-- ==== Sys2Proof/Word.lean ====
section
/-! DEFINITION. The two word types of the block (spec/00_scope.md R8): host registers and command words are
32 bits, stream bytes are 8 bits. Everything computed from them lives under Machine/. -/

namespace Sys2Proof

/-- A host register, a command word, a position or a weight (R8, R22). -/
abbrev Word := BitVec 32

/-- A byte of input or of the compressed stream (R8). -/
abbrev Byte := BitVec 8

end Sys2Proof
end

