-- ==== Sys2Proof/Config.lean ====
section
/-! DEFINITION. What an implementation of the block fixes: the build-time constants of spec/00_scope.md R7 and
R8, the platform parameters BASE and MASTERS (spec/20_memory.md R64, R75), and the free value a host read may return
(spec/10_state.md R54). The free contents of the block after a fault (R58) are `Config.freeData`, beside the
type they range over in Machine/Data.lean. A free value has no body: no proof can see what it is. -/

namespace Sys2Proof.Config

/-- IN_CAP, the capacity of the input buffer in bytes (R7). -/
def inCap : Nat := 65536

/-- OUT_CAP, the capacity of each completed-byte queue BA0, BA1 and OUTQ in bytes (R7): 2*IN_CAP + 1024. -/
def outCap : Nat := 132096

/-- MAX_WINDOW, the largest legal CFG_WINDOW (R7). -/
def maxWindow : Nat := 32768

/-- The largest legal CFG_LOOKBACK (R6). -/
def maxLookback : Nat := 255

/-- MAX_DIST, the largest back-reference distance (R7). -/
def maxDist : Nat := 32768

/-- MAX_MATCH, the largest back-reference length (R7). -/
def maxMatch : Nat := 258

/-- MIN_MATCH, the smallest back-reference length (R7). -/
def minMatch : Nat := 3

/-- N_LL, the size of the literal/length alphabet (R7). -/
def nLL : Nat := 286

/-- N_D, the size of the distance alphabet (R7). -/
def nD : Nat := 30

/-- N_CL, the size of the code-length meta-alphabet (R7). -/
def nCL : Nat := 19

/-- LMAX_LL, the code-length limit of the literal/length alphabet (R7). -/
def lmaxLL : Nat := 15

/-- LMAX_D, the code-length limit of the distance alphabet (R7). -/
def lmaxD : Nat := 15

/-- LMAX_CL, the code-length limit of the code-length alphabet (R7, R180). -/
def lmaxCL : Nat := 7

/-- MAX_SHORTCODE, the widest ShortCode in bits (R7). -/
def maxShortCode : Nat := 64

/-- MASTERS, the number of bus masters the platform lets access the aperture (spec/20_memory.md R75): a named
parameter of the platform, left open. A claim about the program of one host fixes it to 1. -/
opaque masters : Nat

/-- BASE / 256. The platform chooses BASE, a multiple of 256 (R64), so the model leaves it open. -/
opaque baseIndex : Nat

/-- BASE, the bus address of the block's 256-byte aperture (R64). -/
def base : Nat := 256 * baseIndex

/-- The value a host read returns where the spec says "any 32-bit value" or "unspecified" (R54): while
FAULT = 1, and when the read itself raises BUSY_VIOLATION. Applied to the model's free-value counter, so two
such reads need not agree. -/
opaque freeWord : Nat → Word

end Sys2Proof.Config
end

