-- ==== Sys2Proof/Machine/Data.lean ====
section
/-! DEFINITION. The kinds of data the block holds (spec/10_state.md R42 to R51), and the block's state apart
from its control and fault record: exactly the part whose value R58 makes unspecified after a fault. -/

namespace Sys2Proof.Machine

/-- A table of `n` entries, one per symbol of an alphabet (R44 to R46). -/
structure Table (α : Type) (n : Nat) where
  /-- The entries, symbol 0 first. -/
  entries : List α
  /-- A table has one entry per symbol. -/
  size : entries.length = n
deriving DecidableEq, Repr

/-- A DEFLATE symbol (R12, R43). A length or distance is a count, not a field of bits, until R94 packs it. -/
inductive Symbol
  | literal (b : Byte)
  | reference (l d : Nat)
  | endOfBlock
deriving DecidableEq, Repr, Inhabited

/-- One entry (sym, xv, xw) of the code-length symbol queue (R47, R95): the meta-symbol, its extra value and
its extra width. -/
structure ClsEntry where
  sym : Fin 19
  xv : BitVec 8
  xw : BitVec 4
deriving DecidableEq, Repr, Inhabited

/-- One entry (code, width) of an Alphabet Encoder (R46): a canonical code of at most 15 bits (R8), most
significant bit first as a number, and its width. Width 0 means the symbol has no code. -/
structure CodeEntry where
  code : BitVec 15
  width : BitVec 4
deriving DecidableEq, Repr, Inhabited

/-- One entry (key, pos) of the Match Finder window (R48). -/
structure MfEntry where
  key : Word
  pos : Word
deriving DecidableEq, Repr, Inhabited

/-- A bit accumulator (R49): the completed bytes, oldest first, the partial value and the partial bit count. -/
structure Accum where
  bytes : List Byte
  pv : Byte
  pc : Fin 8
deriving DecidableEq, Repr, Inhabited

/-- The faults the block records (spec/60_exceptions.md R271). These are the machine's own exceptions:
recording one is a next state, never a stop of the model. -/
inductive FaultKind
  | illegalCommand
  | illegalOperand
  | busyViolation
  | inOverflow
  | outOverflow
  | codeBudget
  | oversubscribed
  | noCode
  | lengthRange
  | distanceRange
deriving DecidableEq, Repr, Inhabited

/-- The block's state apart from BUSY and the fault record (R27, R28, R36 to R38, R42 to R51). -/
structure Data where
  /-- ARG0 (R27). -/
  arg0 : Word
  /-- ARG1 (R27). -/
  arg1 : Word
  /-- RESULT0 (R28). -/
  result0 : Word
  /-- RESULT1 (R28). -/
  result1 : Word
  /-- PENDING, the command word accepted at the last CMD write (R51). -/
  pending : Word
  /-- CFG_WINDOW = W (R36). -/
  window : Word
  /-- CFG_KEY = K (R37). -/
  keySize : Word
  /-- CFG_LOOKBACK = LB (R38). -/
  lookback : Word
  /-- IN, the input buffer (R42). -/
  input : List Byte
  /-- SYMQ, the symbol queue (R43). -/
  symq : List Symbol
  /-- FREQ_LL (R44). -/
  freqLL : Table Word Config.nLL
  /-- FREQ_D (R44). -/
  freqD : Table Word Config.nD
  /-- FREQ_CL (R44). -/
  freqCL : Table Word Config.nCL
  /-- LEN_LL (R45). -/
  lenLL : Table (BitVec 4) Config.nLL
  /-- LEN_D (R45). -/
  lenD : Table (BitVec 4) Config.nD
  /-- LEN_CL (R45). -/
  lenCL : Table (BitVec 4) Config.nCL
  /-- CODE_LL (R46). -/
  codeLL : Table CodeEntry Config.nLL
  /-- CODE_D (R46). -/
  codeD : Table CodeEntry Config.nD
  /-- CODE_CL (R46). -/
  codeCL : Table CodeEntry Config.nCL
  /-- CLSQ, the code-length symbol queue (R47). -/
  clsq : List ClsEntry
  /-- MF, the Match Finder window, oldest first (R48). -/
  mf : List MfEntry
  /-- BA0, the head accumulator (R49). -/
  ba0 : Accum
  /-- BA1, the tail accumulator (R49). -/
  ba1 : Accum
  /-- OUTQ, the output queue, oldest first (R50). -/
  outq : List Byte
  /-- LOCQ, the locate result queue (R50). -/
  locq : List Word
deriving DecidableEq, Repr

/-- A table whose every entry is `x`. -/
def Table.fill {α : Type} {n : Nat} (x : α) : Table α n := ⟨List.replicate n x, List.length_replicate⟩

/-- An accumulator with no completed byte and no partial bit (R302). -/
def Accum.empty : Accum := ⟨[], 0, 0⟩

/-- The data of the block at its reset values (R57). PENDING has none there: 0 is the model's choice
(DESIGN CHOICE, log 1), and no rule reads it while BUSY = 0. -/
def Data.reset : Data where
  arg0 := 0
  arg1 := 0
  result0 := 0
  result1 := 0
  pending := 0
  window := 4096
  keySize := 3
  lookback := 8
  input := []
  symq := []
  freqLL := .fill 0
  freqD := .fill 0
  freqCL := .fill 0
  lenLL := .fill 0
  lenD := .fill 0
  lenCL := .fill 0
  codeLL := .fill ⟨0, 0⟩
  codeD := .fill ⟨0, 0⟩
  codeCL := .fill ⟨0, 0⟩
  clsq := []
  mf := []
  ba0 := .empty
  ba1 := .empty
  outq := []
  locq := []

end Sys2Proof.Machine

namespace Sys2Proof.Config

/-- The contents of the block after a fault: "the value of every piece of state other than STATUS.BUSY,
STATUS.FAULT, STATUS.FAULT_SRC, STATUS.FAULT_CODE, FAULT_INFO and ID is unspecified until reset: a model
treats it as any value" (spec/10_state.md R58). Applied to the model's free-value counter, so two faults need
not leave the same contents. The bracketed argument only tells Lean that the type has a value. -/
opaque freeData [Inhabited Machine.Data] : Nat → Machine.Data

end Sys2Proof.Config

namespace Sys2Proof.Machine

/-- The block's contents after the fault that drew the free value `n` (R58): any value. -/
def Data.unspecified (n : Nat) : Data := @Config.freeData ⟨Data.reset⟩ n

end Sys2Proof.Machine
end

