-- ==== Sys2Proof/Machine/State.lean ====
section
/-! DEFINITION. The machine's state: the block's control state and fault record (spec/10_state.md R51), its
data (Machine/Data.lean), and the model's own bookkeeping of the world outside the block. With it the two ways
a step of the model can stop, and the state right after reset (R57). -/

namespace Sys2Proof.Machine

/-- One turn of a run. The block has two agents (R20), and a run is one interleaving of host accesses and
engine transitions (spec/20_memory.md R69, spec/60_exceptions.md R277): a list of turns names one
interleaving, and every interleaving is some list. -/
inductive Turn
  /-- The engine takes its step if it has one (spec/70_reset_and_hazards.md R310). -/
  | engine
  /-- The host reads `width` bits at offset `off` of the aperture (R54). -/
  | read (width : Nat) (off : BitVec 8)
  /-- The host writes the value `v` with an access of `width` bits at offset `off` of the aperture (R55). -/
  | write (width : Nat) (off : BitVec 8) (v : Word)
  /-- The platform asserts and releases the reset input (R300). -/
  | hardReset
deriving DecidableEq, Repr, Inhabited

/-- Why a step stops with a fault. No rule of the spec stops the machine: a fault of R271 is recorded in STATUS
and FAULT_INFO and the host goes on, so it is a next state. The type therefore has no constructor (safe: no
claim can rest on a stop that the hardware does not make). -/
inductive Fault
deriving DecidableEq, Repr

/-- Why a step has no meaning. -/
inductive Refusal
  /-- Raised by an arm of `exec` whose command has no meaning in the model yet. No arm does. Safe. -/
  | notModelled (mnemonic : String)
  /-- Raised by `step` for a host access whose width is not 32 bits, which "has no meaning in this spec; a model
  refuses it" (R56). Safe. -/
  | accessWidth (width : Nat)
  /-- Raised by `step` for a host access at an offset that is not a multiple of 4 (R56). Safe. -/
  | misalignedAccess (off : BitVec 8)
deriving DecidableEq, Repr

/-- The state. The first five fields are what R58 keeps specified after a fault; `data` is everything else
the spec gives the block. The last three are the MODEL'S OWN (logs 2, 3 and 4): no rule names them, and no
command reads or writes them. -/
structure State where
  /-- STATUS.BUSY (R51). -/
  busy : Bool
  /-- STATUS.FAULT (R51). -/
  fault : Bool
  /-- STATUS.FAULT_CODE (R51). -/
  faultCode : BitVec 8
  /-- STATUS.FAULT_SRC (R51): false = a command, true = a register access. -/
  faultSrc : Bool
  /-- FAULT_INFO (R29, R51). -/
  faultInfo : Word
  /-- Every other piece of the block's state. -/
  data : Data
  /-- MODEL'S OWN: the turns still to come, the next one first (log 2). -/
  script : List Turn
  /-- MODEL'S OWN: what the host's reads have returned so far, as (offset, value), oldest first (log 3). -/
  reads : List (BitVec 8 × Word)
  /-- MODEL'S OWN: the free-value counter (log 4). -/
  free : Nat
deriving DecidableEq, Repr

/-- The machine right after reset (R57), with no turn to come. -/
def State.reset : State where
  busy := false
  fault := false
  faultCode := 0
  faultSrc := false
  faultInfo := 0
  data := .reset
  script := []
  reads := []
  free := 0

end Sys2Proof.Machine
end

