-- ==== Sys2Proof/Machine/Flags.lean ====
section
/-! DEFINITION. The flags and the packed read-only views: STATUS (spec/10_state.md R26, R53), the fault codes
(spec/60_exceptions.md R271) and BA_STATE (R39). The flags OUT_EMPTY, LOC_EMPTY and IN_FULL are live functions
of the queues: they are computed at each read and stored nowhere. -/

namespace Sys2Proof.Machine

/-- The code of a fault (R271). -/
def FaultKind.code : FaultKind → BitVec 8
  | .illegalCommand => 1
  | .illegalOperand => 2
  | .busyViolation => 3
  | .inOverflow => 4
  | .outOverflow => 5
  | .codeBudget => 6
  | .oversubscribed => 7
  | .noCode => 8
  | .lengthRange => 9
  | .distanceRange => 10

/-- STATUS.OUT_EMPTY: |OUTQ| = 0 (R26). -/
def Data.outEmpty (d : Data) : Bool := d.outq.isEmpty

/-- STATUS.LOC_EMPTY: |LOCQ| = 0 (R26). -/
def Data.locEmpty (d : Data) : Bool := d.locq.isEmpty

/-- STATUS.IN_FULL: |IN| = IN_CAP (R26). -/
def Data.inFull (d : Data) : Bool := d.input.length = Config.inCap

/-- STATUS (R26): bits 31:16 zero, FAULT_CODE in 15:8, bits 7:6 zero, then FAULT_SRC, IN_FULL, LOC_EMPTY,
OUT_EMPTY, FAULT and BUSY from bit 5 down to bit 0. -/
def State.status (s : State) : Word :=
  0#16 ++ s.faultCode ++ 0#2 ++ BitVec.ofBool s.faultSrc ++ BitVec.ofBool s.data.inFull
    ++ BitVec.ofBool s.data.locEmpty ++ BitVec.ofBool s.data.outEmpty
    ++ BitVec.ofBool s.fault ++ BitVec.ofBool s.busy

/-- BA_STATE (R39): BA1.pv, 0, BA1.pc, BA0.pv, 0, BA0.pc, most significant first. -/
def Data.baState (d : Data) : Word :=
  d.ba1.pv ++ 0#4 ++ BitVec.ofNat 4 d.ba1.pc.val ++ d.ba0.pv ++ 0#4 ++ BitVec.ofNat 4 d.ba0.pc.val

end Sys2Proof.Machine
end

