-- ==== Sys2Proof/Syntax.lean ====
section
/-! DEFINITION. The 22 commands of the opcode map (spec/30_encoding.md R83, spec/opcode_table.json), one
constructor each, over the operand fields of R81. -/

namespace Sys2Proof

/-- Field A, the accumulator select (R81): 0 = BA0, 1 = BA1. -/
inductive AccSel
  | ba0
  | ba1
deriving DecidableEq, Repr, Inhabited

/-- Field T, the table select (R81): 0 = LL, 1 = D, 2 = CL. The value 3 is reserved and has no constructor:
the decoder rejects it (R80). -/
inductive TableSel
  | ll
  | d
  | cl
deriving DecidableEq, Repr, Inhabited

/-- Field KD, the table kind (R81): 0 = FREQ, 1 = LEN, 2 = CODE, 3 = reserved. R80 does not look at KD when
it decodes, so the reserved value is a term here; R254 and R256 make it ILLEGAL_COMMAND when executed. -/
inductive TableKind
  | freq
  | len
  | code
  | reserved
deriving DecidableEq, Repr, Inhabited

/-- A command. An immediate is the 16-bit field IMM = w[31:16] (R87); the flag of `blkHeader` and
`blkEncode` is F = w[10], the final-block flag. -/
inductive Instr
  /-- NOP (R250). -/
  | nop
  /-- SOFT_RESET (R252). -/
  | softReset
  /-- BA_APPEND a, n (R111). -/
  | baAppend (a : AccSel) (n : BitVec 16)
  /-- BA_DRAIN a (R113). -/
  | baDrain (a : AccSel)
  /-- BA_EXTEND (R115). -/
  | baExtend
  /-- BA_FLUSH a (R116). -/
  | baFlush (a : AccSel)
  /-- BA_CLEAR a (R118). -/
  | baClear (a : AccSel)
  /-- MF_RESET (R133). -/
  | mfReset
  /-- MF_REGISTER (R134). -/
  | mfRegister
  /-- MF_LOCATE (R136). -/
  | mfLocate
  /-- IN_CLEAR (R150). -/
  | inClear
  /-- SYM_RUN (R152). -/
  | symRun
  /-- SYM_READ (R155). -/
  | symRead
  /-- HL_ASSIGN t (R170). -/
  | hlAssign (t : TableSel)
  /-- CC_BUILD t (R190). -/
  | ccBuild (t : TableSel)
  /-- CT_RLE (R200). -/
  | ctRle
  /-- CLS_READ (R205). -/
  | clsRead
  /-- BLK_HEADER a, f (R224). -/
  | blkHeader (a : AccSel) (f : Bool)
  /-- BLK_BODY a (R227). -/
  | blkBody (a : AccSel)
  /-- BLK_ENCODE f (R230). -/
  | blkEncode (f : Bool)
  /-- TBL_READ t, kd, idx (R254). -/
  | tblRead (t : TableSel) (kd : TableKind) (idx : BitVec 16)
  /-- TBL_WRITE t, kd, idx (R256). -/
  | tblWrite (t : TableSel) (kd : TableKind) (idx : BitVec 16)
deriving DecidableEq, Repr, Inhabited

end Sys2Proof
end

