-- ==== Sys2Proof/WellFormed.lean ====
section
/-! DEFINITION. The legal encodings among the terms of `Instr` (spec/30_encoding.md R85): KD = 3 in TBL_READ
and KD = 2 or 3 in TBL_WRITE are illegal. Every other term is a legal command (T = 3 is no term at all, and
an IMM out of range is an operand fault of a legal command, R87). -/

namespace Sys2Proof

/-- The KD check of TBL_READ (R85, R254). -/
def TableKind.readable : TableKind → Bool
  | .freq => true
  | .len => true
  | .code => true
  | .reserved => false

/-- The KD check of TBL_WRITE (R85, R256): CODE tables are written only by CC_BUILD. -/
def TableKind.writable : TableKind → Bool
  | .freq => true
  | .len => true
  | .code => false
  | .reserved => false

/-- A command whose encoding R85 calls legal. -/
def Instr.wellFormed : Instr → Bool
  | .nop => true
  | .softReset => true
  | .baAppend _ _ => true
  | .baDrain _ => true
  | .baExtend => true
  | .baFlush _ => true
  | .baClear _ => true
  | .mfReset => true
  | .mfRegister => true
  | .mfLocate => true
  | .inClear => true
  | .symRun => true
  | .symRead => true
  | .hlAssign _ => true
  | .ccBuild _ => true
  | .ctRle => true
  | .clsRead => true
  | .blkHeader _ _ => true
  | .blkBody _ => true
  | .blkEncode _ => true
  | .tblRead _ kd _ => kd.readable
  | .tblWrite _ kd _ => kd.writable

end Sys2Proof
end

