-- ==== Sys2Proof/Decode.lean ====
section
/-! DEFINITION. The decoder of a 32-bit command word (spec/30_encoding.md R80 to R83), total and rejecting by
name, then the encoder written from the same tables. Command words have no byte order (spec/20_memory.md
R62): a word is one 32-bit number with bit 0 its least significant bit (R9), as spec/opcode_table.json
numbers it. -/

namespace Sys2Proof

/-- The seven command formats (R82). -/
inductive Format
  | z
  | a
  | an
  | t
  | f
  | fa
  | x
deriving DecidableEq, Repr, Inhabited

/-- Why the decoder rejects a word; each makes the engine raise ILLEGAL_COMMAND (R80), in this order (R275). -/
inductive DecodeError
  /-- The opcode is not in the map of R83. -/
  | unknownOpcode
  /-- A bit the format does not use is set (R82). -/
  | reservedBit
  /-- T = 3 in format T or X (R80). -/
  | reservedTable
deriving DecidableEq, Repr, Inhabited

/-- RESERVED_MASK of a format (R82). -/
def Format.reservedMask : Format → Word
  | .z => 0xFFFFFF00
  | .a => 0xFFFFFE00
  | .an => 0x0000FE00
  | .t => 0xFFFFFC00
  | .f => 0xFFFFFB00
  | .fa => 0xFFFFFA00
  | .x => 0x0000CC00

/-- Field OP = w[7:0] (R81). -/
def opField (w : Word) : BitVec 8 := w.extractLsb' 0 8

/-- Field A = w[8] (R81). -/
def aField (w : Word) : AccSel := if w.getLsbD 8 then .ba1 else .ba0

/-- Field T = w[9:8] (R81), `none` for the reserved value 3. -/
def tField (w : Word) : Option TableSel :=
  match (w.extractLsb' 8 2).toNat with
  | 0 => some .ll
  | 1 => some .d
  | 2 => some .cl
  | _ => none

/-- Field F = w[10] (R81). -/
def fField (w : Word) : Bool := w.getLsbD 10

/-- Field KD = w[13:12] (R81). -/
def kdField (w : Word) : TableKind :=
  match (w.extractLsb' 12 2).toNat with
  | 0 => .freq
  | 1 => .len
  | 2 => .code
  | _ => .reserved

/-- Field IMM = w[31:16] (R81, R87). -/
def immField (w : Word) : BitVec 16 := w.extractLsb' 16 16

/-- The reserved-bit check of R80 for a word whose opcode has format `fmt`. -/
def checkReserved (fmt : Format) (w : Word) (i : Instr) : Except DecodeError Instr :=
  if w &&& fmt.reservedMask = 0 then .ok i else .error .reservedBit

/-- The reserved-bit check and then the T = 3 check of R80, for the formats T and X. -/
def checkTable (fmt : Format) (w : Word) (k : TableSel → Instr) : Except DecodeError Instr :=
  if w &&& fmt.reservedMask = 0 then
    match tField w with
    | some t => .ok (k t)
    | none => .error .reservedTable
  else .error .reservedBit

/-- R80: decode of a command word, by the opcode map of R83. -/
def decode (w : Word) : Except DecodeError Instr :=
  match (opField w).toNat with
  | 0x00 => checkReserved .z w .nop
  | 0x01 => checkReserved .z w .softReset
  | 0x10 => checkReserved .an w (.baAppend (aField w) (immField w))
  | 0x11 => checkReserved .a w (.baDrain (aField w))
  | 0x12 => checkReserved .z w .baExtend
  | 0x13 => checkReserved .a w (.baFlush (aField w))
  | 0x14 => checkReserved .a w (.baClear (aField w))
  | 0x20 => checkReserved .z w .mfReset
  | 0x21 => checkReserved .z w .mfRegister
  | 0x22 => checkReserved .z w .mfLocate
  | 0x30 => checkReserved .z w .inClear
  | 0x40 => checkReserved .z w .symRun
  | 0x41 => checkReserved .z w .symRead
  | 0x50 => checkTable .t w (fun t => .hlAssign t)
  | 0x51 => checkTable .t w (fun t => .ccBuild t)
  | 0x60 => checkReserved .z w .ctRle
  | 0x61 => checkReserved .z w .clsRead
  | 0x70 => checkReserved .fa w (.blkHeader (aField w) (fField w))
  | 0x71 => checkReserved .a w (.blkBody (aField w))
  | 0x78 => checkReserved .f w (.blkEncode (fField w))
  | 0x80 => checkTable .x w (fun t => .tblRead t (kdField w) (immField w))
  | 0x81 => checkTable .x w (fun t => .tblWrite t (kdField w) (immField w))
  | _ => .error .unknownOpcode

/-- The command of a word that spec/opcode_table.json describes with `nbits` bits. Every command word is 32
bits (R86), so the bits above `nbits` are 0 and a number of more than 32 bits is no command word. -/
def decodeTableWord (nbits w : Nat) : Option Instr :=
  if nbits ≤ 32 then (decode (BitVec.ofNat 32 (w % 2 ^ nbits))).toOption else none

/-! ### The encoder -/

/-- The bit of field A. -/
def AccSel.bit : AccSel → BitVec 1
  | .ba0 => 0
  | .ba1 => 1

/-- The two bits of field T. -/
def TableSel.bits : TableSel → BitVec 2
  | .ll => 0
  | .d => 1
  | .cl => 2

/-- The two bits of field KD. -/
def TableKind.bits : TableKind → BitVec 2
  | .freq => 0
  | .len => 1
  | .code => 2
  | .reserved => 3

/-- The opcode of a command (R83). -/
def Instr.opcode : Instr → BitVec 8
  | .nop => 0x00
  | .softReset => 0x01
  | .baAppend _ _ => 0x10
  | .baDrain _ => 0x11
  | .baExtend => 0x12
  | .baFlush _ => 0x13
  | .baClear _ => 0x14
  | .mfReset => 0x20
  | .mfRegister => 0x21
  | .mfLocate => 0x22
  | .inClear => 0x30
  | .symRun => 0x40
  | .symRead => 0x41
  | .hlAssign _ => 0x50
  | .ccBuild _ => 0x51
  | .ctRle => 0x60
  | .clsRead => 0x61
  | .blkHeader _ _ => 0x70
  | .blkBody _ => 0x71
  | .blkEncode _ => 0x78
  | .tblRead _ _ _ => 0x80
  | .tblWrite _ _ _ => 0x81

/-- The format of a command (R83). -/
def Instr.format : Instr → Format
  | .nop => .z
  | .softReset => .z
  | .baAppend _ _ => .an
  | .baDrain _ => .a
  | .baExtend => .z
  | .baFlush _ => .a
  | .baClear _ => .a
  | .mfReset => .z
  | .mfRegister => .z
  | .mfLocate => .z
  | .inClear => .z
  | .symRun => .z
  | .symRead => .z
  | .hlAssign _ => .t
  | .ccBuild _ => .t
  | .ctRle => .z
  | .clsRead => .z
  | .blkHeader _ _ => .fa
  | .blkBody _ => .a
  | .blkEncode _ => .f
  | .tblRead _ _ _ => .x
  | .tblWrite _ _ _ => .x

/-- w[15:8] of a command: the fields A, T, F and KD in their places, every other bit 0 (R82). -/
def Instr.selectByte : Instr → BitVec 8
  | .nop => 0
  | .softReset => 0
  | .baAppend a _ => 0#7 ++ a.bit
  | .baDrain a => 0#7 ++ a.bit
  | .baExtend => 0
  | .baFlush a => 0#7 ++ a.bit
  | .baClear a => 0#7 ++ a.bit
  | .mfReset => 0
  | .mfRegister => 0
  | .mfLocate => 0
  | .inClear => 0
  | .symRun => 0
  | .symRead => 0
  | .hlAssign t => 0#6 ++ t.bits
  | .ccBuild t => 0#6 ++ t.bits
  | .ctRle => 0
  | .clsRead => 0
  | .blkHeader a f => 0#5 ++ BitVec.ofBool f ++ 0#1 ++ a.bit
  | .blkBody a => 0#7 ++ a.bit
  | .blkEncode f => 0#5 ++ BitVec.ofBool f ++ 0#2
  | .tblRead t kd _ => 0#2 ++ kd.bits ++ 0#2 ++ t.bits
  | .tblWrite t kd _ => 0#2 ++ kd.bits ++ 0#2 ++ t.bits

/-- w[31:16] of a command: IMM, or 0 where the format has none (R82). -/
def Instr.imm : Instr → BitVec 16
  | .nop => 0
  | .softReset => 0
  | .baAppend _ n => n
  | .baDrain _ => 0
  | .baExtend => 0
  | .baFlush _ => 0
  | .baClear _ => 0
  | .mfReset => 0
  | .mfRegister => 0
  | .mfLocate => 0
  | .inClear => 0
  | .symRun => 0
  | .symRead => 0
  | .hlAssign _ => 0
  | .ccBuild _ => 0
  | .ctRle => 0
  | .clsRead => 0
  | .blkHeader _ _ => 0
  | .blkBody _ => 0
  | .blkEncode _ => 0
  | .tblRead _ _ idx => idx
  | .tblWrite _ _ idx => idx

/-- The command word of a command (R82, R83): IMM, the select byte and the opcode, most significant first. -/
def encode (i : Instr) : Word := i.imm ++ i.selectByte ++ i.opcode

end Sys2Proof
end

