-- ==== Sys2Proof/Machine/Operands.lean ====
section
/-! DEFINITION. The operand forms of the commands: the fields A and T select an accumulator or the tables of an
alphabet, ARG0 and ARG1 hold a ShortCode body, a key, a position or an index, and symbols, CLSQ entries,
lengths and distances have their packed forms (spec/30_encoding.md Part B). -/

namespace Sys2Proof.Machine

/-! ### Tables (R44 to R46) -/

/-- Entry `i` of a table, or `dflt` beyond its end (no rule reads there: R254 checks the index first). -/
def Table.get {α : Type} {n : Nat} (t : Table α n) (dflt : α) (i : Nat) : α := t.entries.getD i dflt

/-- The table with entry `i` replaced by `x`; nothing changes beyond its end. -/
def Table.set {α : Type} {n : Nat} (t : Table α n) (i : Nat) (x : α) : Table α n :=
  ⟨t.entries.set i x, by rw [List.length_set]; exact t.size⟩

/-- The table whose entry for symbol `s` is `f s`. -/
def Table.build {α : Type} (n : Nat) (f : Nat → α) : Table α n :=
  ⟨(List.range n).map f, by rw [List.length_map, List.length_range]⟩

/-- One more in entry `i` of a weight table (R153, R203). -/
def Table.bump {n : Nat} (t : Table Word n) (i : Nat) : Table Word n := t.set i (t.get 0 i + 1)

/-! ### Field T: the alphabets (R12, R81) -/

end Sys2Proof.Machine

namespace Sys2Proof

/-- N of the alphabet (R255): LL 286, D 30, CL 19. -/
def TableSel.size : TableSel → Nat
  | .ll => Config.nLL
  | .d => Config.nD
  | .cl => Config.nCL

/-- L of the alphabet, its code-length limit (R170, R180): 15, 15 and 7. -/
def TableSel.lengthLimit : TableSel → Nat
  | .ll => Config.lmaxLL
  | .d => Config.lmaxD
  | .cl => Config.lmaxCL

end Sys2Proof

namespace Sys2Proof.Machine

/-- FREQ_T (R44). -/
def Data.freqOf (d : Data) : (t : TableSel) → Table Word t.size
  | .ll => d.freqLL
  | .d => d.freqD
  | .cl => d.freqCL

/-- LEN_T (R45). -/
def Data.lenOf (d : Data) : (t : TableSel) → Table (BitVec 4) t.size
  | .ll => d.lenLL
  | .d => d.lenD
  | .cl => d.lenCL

/-- CODE_T (R46). -/
def Data.codeOf (d : Data) : (t : TableSel) → Table CodeEntry t.size
  | .ll => d.codeLL
  | .d => d.codeD
  | .cl => d.codeCL

/-- FREQ_T replaced. -/
def Data.setFreq (d : Data) : (t : TableSel) → Table Word t.size → Data
  | .ll, v => { d with freqLL := v }
  | .d, v => { d with freqD := v }
  | .cl, v => { d with freqCL := v }

/-- LEN_T replaced. -/
def Data.setLen (d : Data) : (t : TableSel) → Table (BitVec 4) t.size → Data
  | .ll, v => { d with lenLL := v }
  | .d, v => { d with lenD := v }
  | .cl, v => { d with lenCL := v }

/-- CODE_T replaced. -/
def Data.setCode (d : Data) : (t : TableSel) → Table CodeEntry t.size → Data
  | .ll, v => { d with codeLL := v }
  | .d, v => { d with codeD := v }
  | .cl, v => { d with codeCL := v }

/-! ### Field A: the accumulators (R81) -/

/-- BA[A]. -/
def Data.acc (d : Data) : AccSel → Accum
  | .ba0 => d.ba0
  | .ba1 => d.ba1

/-- BA[A] replaced. -/
def Data.setAcc (d : Data) : AccSel → Accum → Data
  | .ba0, x => { d with ba0 := x }
  | .ba1, x => { d with ba1 := x }

/-! ### ARG0 and ARG1 (R27, R63, R134) -/

/-- The 64-bit ShortCode body {ARG1, ARG0} (R63). -/
def Data.body (d : Data) : BitVec 64 := d.arg1 ++ d.arg0

/-- 2^(8K) - 1, the mask that keeps the low K bytes of a key (R100, R134). -/
def keyMask (k : Nat) : Word := BitVec.ofNat 32 (2 ^ (8 * k) - 1)

/-- The key operand ARG0 AND (2^(8K) - 1) (R134, R136). -/
def Data.keyArg (d : Data) : Word := d.arg0 &&& keyMask d.keySize.toNat

/-! ### Numbers (R9) -/

/-- `bit_length(v)`: the number of bits of v without leading zeros, 0 for 0 (R9). -/
def bitLength (v : Nat) : Nat := if v = 0 then 0 else Nat.log2 v + 1

/-- `rev(c, w)`: the w-bit value whose bit j is bit (w-1-j) of c (R9). -/
def rev (c w : Nat) : Nat :=
  (List.range w).foldl (fun acc j => if c.testBit (w - 1 - j) then acc + 2 ^ j else acc) 0

/-! ### Packed forms (R94, R95) -/

/-- The symbol word of R94: tag in bits 31:30, length in 24:16, distance or byte in 15:0. -/
def symword : Symbol → Word
  | .literal b => BitVec.ofNat 32 b.toNat
  | .reference l d => 0x40000000 ||| (BitVec.ofNat 32 l <<< 16) ||| BitVec.ofNat 32 d
  | .endOfBlock => 0x80000000

/-- The CLS word of R95: sym in bits 4:0, xv in 15:8, xw in 19:16. -/
def clsword (e : ClsEntry) : Word := 0#12 ++ e.xw ++ e.xv ++ 0#3 ++ BitVec.ofNat 5 e.sym.val

/-! ### Length and distance codes (R96 to R99) -/

/-- A code symbol with its extra field: (symbol, xw, xv) of R98 and R99. -/
structure ExtraCode where
  symbol : Nat
  xw : Nat
  xv : Nat
deriving DecidableEq, Repr

/-- `lcode(l)`, the closed form of R98. -/
def lcode (l : Nat) : Except FaultKind ExtraCode :=
  if l < Config.minMatch ∨ Config.maxMatch < l then .error .lengthRange
  else if l = 258 then .ok ⟨285, 0, 0⟩
  else if l ≤ 10 then .ok ⟨254 + l, 0, 0⟩
  else
    let v := l - 3
    let b := bitLength v
    let xw := b - 3
    .ok ⟨257 + 4 * (b - 2) + (v >>> xw) % 4, xw, v % 2 ^ xw⟩

/-- `dcode(d)`, the closed form of R99. -/
def dcode (d : Nat) : Except FaultKind ExtraCode :=
  if d < 1 ∨ Config.maxDist < d then .error .distanceRange
  else if d ≤ 4 then .ok ⟨d - 1, 0, 0⟩
  else
    let v := d - 1
    let b := bitLength v
    let xw := b - 2
    .ok ⟨2 * (b - 1) + (v >>> xw) % 2, xw, v % 2 ^ xw⟩

/-! ### Keys (R100) -/

/-- `keyAt(p)`: the shift-and-xor fold over the K bytes of `bytes` from position p (R100). -/
def keyAt (bytes : List Byte) (k p : Nat) : Word :=
  ((bytes.drop p).take k).foldl (fun h b => ((h <<< 8) ^^^ b.zeroExtend 32) &&& keyMask k) 0

end Sys2Proof.Machine
end

