-- ==== Sys2Proof/Machine/Ops.lean ====
section
/-! DEFINITION. The operations the meanings share: recording a fault (spec/60_exceptions.md R270) and the two
ways out of the fault state (R279), the pattern of a command that completes or faults (R251, R310), and the
bit accumulator's primitives (spec/40_bit_accumulator.md R110). -/

namespace Sys2Proof.Machine

/-! ### Taking an exception (R270) and leaving it (R252, R300) -/

/-- `raise X(info)` (R270): FAULT, FAULT_CODE, FAULT_SRC and FAULT_INFO record the fault and BUSY clears.
Everything else is unspecified from here until reset (R58), so it becomes a free value. -/
def raise (k : FaultKind) (src : Bool) (info : Word) (s : State) : State :=
  { s with
    busy := false
    fault := true
    faultCode := k.code
    faultSrc := src
    faultInfo := info
    data := .unspecified s.free
    free := s.free + 1 }

/-- `raise X(w)` of a command: the source is a command and the info is the word being executed (R270). -/
def raiseCommand (k : FaultKind) (s : State) : State := raise k false s.data.pending s

/-- `raise X(src=1, info=off)` of a host access: the info is the register's offset (R270). -/
def raiseAccess (k : FaultKind) (off : BitVec 8) (s : State) : State := raise k true (off.zeroExtend 32) s

/-- SOFT_RESET and hard reset: every piece of the block's state takes its reset value (R252, R253, R300). The
world outside the block is not reset: the turns still to come, the reads already made and the free-value
counter stay. -/
def resetBlock (s : State) : State :=
  { State.reset with script := s.script, reads := s.reads, free := s.free }

/-! ### Completing a command (R251, R310) -/

/-- The engine's transition for a command whose effect on the block's data is `f`: either the command completes,
its effects are in the data and BUSY clears (R251), or it raises the fault `f` met (R270). -/
def runCommand (f : Data → Except FaultKind Data) (s : State) : Host.Outcome State Fault Refusal :=
  match f s.data with
  | .ok d => .next { s with data := d, busy := false }
  | .error k => .next (raiseCommand k s)

/-! ### The bit accumulator (R49, R110) -/

/-- The bits of a byte in stream order, bit 0 first (R60). -/
def byteBits (b : Byte) : List Bool := (List.range 8).map b.getLsbD

/-- `bits(A)`: the completed bytes' bits, then the pc partial bits (R49). -/
def Accum.bits (a : Accum) : List Bool := a.bytes.flatMap byteBits ++ (byteBits a.pv).take a.pc.val

/-- |bits(A)|. -/
def Accum.bitCount (a : Accum) : Nat := 8 * a.bytes.length + a.pc.val

/-- One turn of the loop of R110: append one bit, moving the partial byte to the completed bytes when it is
full. -/
def Accum.appendBit (a : Accum) (bit : Bool) : Except FaultKind Accum :=
  let pv := a.pv ||| ((BitVec.ofBool bit).zeroExtend 8 <<< a.pc.val)
  if h : a.pc.val + 1 < 8 then .ok ⟨a.bytes, pv, ⟨a.pc.val + 1, h⟩⟩
  else if a.bytes.length = Config.outCap then .error .outOverflow
  else .ok ⟨a.bytes ++ [pv], 0, 0⟩

/-- Append a sequence of bits, the first first, stopping at the first fault. -/
def Accum.appendBits (a : Accum) : List Bool → Except FaultKind Accum
  | [] => .ok a
  | b :: bs => (a.appendBit b).bind fun a' => a'.appendBits bs

/-- Bits 0 to n-1 of a ShortCode body, bit 0 first; bits at and above n are ignored (R110). -/
def bodyBits (body : BitVec 64) (n : Nat) : List Bool := (List.range n).map body.getLsbD

/-- `append(A, body, n)` (R110). -/
def Accum.append (a : Accum) (body : BitVec 64) (n : Nat) : Except FaultKind Accum := a.appendBits (bodyBits body n)

/-- `append` of a field given as a number (R90, R220 to R222). -/
def Accum.appendNum (a : Accum) (v n : Nat) : Except FaultKind Accum := a.append (BitVec.ofNat 64 v) n

/-- `appendCode(A, (code, width))` (R220): the code enters with its most significant bit first. -/
def Accum.appendCode (a : Accum) (c : CodeEntry) : Except FaultKind Accum :=
  if c.width = 0 then .error .noCode else a.appendNum (rev c.code.toNat c.width.toNat) c.width.toNat

end Sys2Proof.Machine
end

