-- ==== Sys2Proof/Machine/BitAccumulator.lean ====
section
/-! DEFINITION. The Bit Accumulator commands (spec/40_bit_accumulator.md R111 to R118). Each command is an
operation on the block's data, which BLK_ENCODE runs as a step (R230), and a meaning. -/

namespace Sys2Proof.Machine

/-- BA_APPEND (R111): the operand check comes before any bit is appended. -/
def baAppendOp (a : AccSel) (n : BitVec 16) (d : Data) : Except FaultKind Data :=
  if Config.maxShortCode < n.toNat then .error .illegalOperand
  else ((d.acc a).append d.body n.toNat).map fun x => d.setAcc a x

/-- BA_DRAIN (R113): the completed bytes move to OUTQ; the partial byte and its bit count stay. -/
def baDrainOp (a : AccSel) (d : Data) : Except FaultKind Data :=
  let m := (d.acc a).bytes.length
  if Config.outCap < d.outq.length + m then .error .outOverflow
  else .ok { d.setAcc a { d.acc a with bytes := [] } with
    outq := d.outq ++ (d.acc a).bytes
    result0 := BitVec.ofNat 32 m }

/-- BA_EXTEND (R115): bits(BA1) onto the end of BA0 at its bit offset, and BA1 emptied. -/
def baExtendOp (d : Data) : Except FaultKind Data :=
  (d.ba0.appendBits d.ba1.bits).map fun x => { d with ba0 := x, ba1 := .empty }

/-- BA_FLUSH (R116): the partial byte, its high bits already 0, becomes a completed byte. -/
def baFlushOp (a : AccSel) (d : Data) : Except FaultKind Data :=
  let x := d.acc a
  if 0 < x.pc.val then
    if x.bytes.length = Config.outCap then .error .outOverflow
    else .ok { d.setAcc a ⟨x.bytes ++ [x.pv], 0, 0⟩ with result0 := 1 }
  else .ok { d with result0 := 0 }

/-- BA_CLEAR (R118). -/
def baClearOp (a : AccSel) (d : Data) : Except FaultKind Data := .ok (d.setAcc a .empty)

/-- BA_APPEND (R111). -/
def execBaAppend (a : AccSel) (n : BitVec 16) (s : State) : Host.Outcome State Fault Refusal :=
  runCommand (baAppendOp a n) s

/-- BA_DRAIN (R113). -/
def execBaDrain (a : AccSel) (s : State) : Host.Outcome State Fault Refusal := runCommand (baDrainOp a) s

/-- BA_EXTEND (R115). -/
def execBaExtend (s : State) : Host.Outcome State Fault Refusal := runCommand baExtendOp s

/-- BA_FLUSH (R116). -/
def execBaFlush (a : AccSel) (s : State) : Host.Outcome State Fault Refusal := runCommand (baFlushOp a) s

/-- BA_CLEAR (R118). -/
def execBaClear (a : AccSel) (s : State) : Host.Outcome State Fault Refusal := runCommand (baClearOp a) s

end Sys2Proof.Machine
end

