-- ==== Sys2Proof/Machine/CanonicalCode.lean ====
section
/-! DEFINITION. The canonical code builder (spec/44_canonical_code_builder.md R190 to R194). -/

namespace Sys2Proof.Machine

/-- A symbol with its nonzero code length. -/
structure Lengthed where
  sym : Nat
  len : Nat
deriving DecidableEq, Repr

/-- The order of R191: length ascending, then symbol ascending. -/
def Lengthed.before (a b : Lengthed) : Bool := a.len < b.len || (a.len = b.len && a.sym < b.sym)

/-- `x` put in its place in a sorted list. -/
def insertLengthed (x : Lengthed) : List Lengthed → List Lengthed
  | [] => [x]
  | y :: ys => if x.before y then x :: y :: ys else y :: insertLengthed x ys

/-- The symbols of a length table, in symbol order, from symbol `s` on, whose length is above 0. -/
def codedFrom : (s : Nat) → List Nat → List Lengthed
  | _, [] => []
  | s, l :: ls => if 0 < l then ⟨s, l⟩ :: codedFrom (s + 1) ls else codedFrom (s + 1) ls

/-- S of R191. -/
def codedSorted (lens : List Nat) : List Lengthed := (codedFrom 0 lens).foldr insertLengthed []

/-- The loop of R191 from the code c of the current width: the (symbol, code) pairs, or OVERSUBSCRIBED where a code
would need more than its width (R192). -/
def assignCodes : (c width : Nat) → List Lengthed → Except FaultKind (List (Nat × CodeEntry))
  | _, _, [] => .ok []
  | c, width, x :: xs =>
    let c' := if width < x.len then c <<< (x.len - width) else c
    let width' := if width < x.len then x.len else width
    if 2 ^ width' ≤ c' then .error .oversubscribed
    else (assignCodes (c' + 1) width' xs).map fun rest =>
      (x.sym, ⟨BitVec.ofNat 15 c', BitVec.ofNat 4 width'⟩) :: rest

/-- `build(len)` of R191 as (symbol, code) pairs; every symbol not listed has (0, 0). -/
def buildPairs (lens : List Nat) : Except FaultKind (List (Nat × CodeEntry)) := assignCodes 0 0 (codedSorted lens)

/-- The code a list of pairs gives a symbol, (0, 0) if it lists none. -/
def codeIn (pairs : List (Nat × CodeEntry)) (s : Nat) : CodeEntry :=
  match pairs with
  | [] => ⟨0, 0⟩
  | p :: ps => if p.1 = s then p.2 else codeIn ps s

/-- CC_BUILD (R190). -/
def ccBuildOp (t : TableSel) (d : Data) : Except FaultKind Data := do
  let lens := (d.lenOf t).entries.map BitVec.toNat
  let pairs ← buildPairs lens
  return { d.setCode t (.build t.size (codeIn pairs)) with
    result0 := BitVec.ofNat 32 (lens.filter fun l => 0 < l).length }

/-- CC_BUILD (R190). -/
def execCcBuild (t : TableSel) (s : State) : Host.Outcome State Fault Refusal := runCommand (ccBuildOp t) s

end Sys2Proof.Machine
end

