-- ==== Sys2Proof/Machine/CodeLength.lean ====
section
/-! DEFINITION. The code-length assigner (spec/43_code_length_assignment.md R170 to R180). All arithmetic is on
exact natural numbers (R9, R173). -/

namespace Sys2Proof.Machine

/-- A used symbol with its weight. -/
structure Weighted where
  sym : Nat
  weight : Nat
deriving DecidableEq, Repr

/-- The order of R171: weight descending, then symbol ascending. -/
def Weighted.before (a b : Weighted) : Bool := b.weight < a.weight || (a.weight = b.weight && a.sym < b.sym)

/-- `x` put in its place in a sorted list. -/
def insertWeighted (x : Weighted) : List Weighted → List Weighted
  | [] => [x]
  | y :: ys => if x.before y then x :: y :: ys else y :: insertWeighted x ys

/-- The symbols of a weight table, in symbol order, from symbol `s` on, that are used (weight above 0). -/
def usedFrom : (s : Nat) → List Nat → List Weighted
  | _, [] => []
  | s, w :: ws => if 0 < w then ⟨s, w⟩ :: usedFrom (s + 1) ws else usedFrom (s + 1) ws

/-- U of R171: the used symbols in the order of R171. -/
def usedSorted (ws : List Nat) : List Weighted := (usedFrom 0 ws).foldr insertWeighted []

/-- `total` of R172. -/
def totalWeight (g : List Weighted) : Nat := (g.map fun x => x.weight).sum

/-- The loop of R172 that grows the left group, from k symbols of weight lw with the given symbols still to come:
the final k. `n`, `cap` and `total` are the group's size, each child's capacity and the group's weight. -/
def growLeft (n cap total : Nat) : (k lw : Nat) → List Weighted → Nat
  | k, _, [] => k
  | k, lw, g :: gs =>
    if k < n - 1 ∧ k + 1 ≤ cap ∧ (k = 0 ∨ cap < n - k ∨ 2 * lw + g.weight < total) then
      growLeft n cap total (k + 1) (lw + g.weight) gs
    else k

/-- The size of the left group of a group (R172). -/
def leftSize (cap : Nat) (g : List Weighted) : Nat := growLeft g.length cap (totalWeight g) 0 0 g

/-- `split(G, d)` of R172 at depth d, with r = L - d levels left: the (symbol, length) pairs it assigns. A group of
two or more with no level left does not occur below a root that passed the CODE_BUDGET check (R174). -/
def splitGroup : (r d : Nat) → List Weighted → List (Nat × Nat)
  | _, _, [] => []
  | _, d, [x] => [(x.sym, d)]
  | 0, _, _ => []
  | r + 1, d, g =>
    let k := leftSize (2 ^ r) g
    splitGroup r (d + 1) (g.take k) ++ splitGroup r (d + 1) (g.drop k)

/-- `assign(w, N, L)` of R171 as (symbol, length) pairs; every symbol not listed has length 0. -/
def assignPairs (ws : List Nat) (n limit : Nat) : Except FaultKind (List (Nat × Nat)) :=
  match usedSorted ws with
  | [] => .ok [(0, 1), (1, 1)]
  | [x] => .ok [(x.sym, 1), (if x.sym + 1 < n then x.sym + 1 else x.sym - 1, 1)]
  | g => if 2 ^ limit < g.length then .error .codeBudget else .ok (splitGroup limit 0 g)

/-- The length a list of pairs gives a symbol, 0 if it lists none. -/
def lengthIn (pairs : List (Nat × Nat)) (s : Nat) : Nat :=
  match pairs with
  | [] => 0
  | p :: ps => if p.1 = s then p.2 else lengthIn ps s

/-- `assign` of R171 as the list of all N lengths. -/
def assignLengths (ws : List Nat) (n limit : Nat) : Except FaultKind (List Nat) :=
  (assignPairs ws n limit).map fun pairs => (List.range n).map (lengthIn pairs)

/-- The largest entry of a list, 0 for the empty list. -/
def maxOf (xs : List Nat) : Nat := xs.foldl max 0

/-- HL_ASSIGN (R170). -/
def hlAssignOp (t : TableSel) (d : Data) : Except FaultKind Data := do
  let lens ← assignLengths ((d.freqOf t).entries.map BitVec.toNat) t.size t.lengthLimit
  let table : Table (BitVec 4) t.size := .build t.size fun s => BitVec.ofNat 4 (lens.getD s 0)
  return { d.setLen t table with result0 := BitVec.ofNat 32 (maxOf lens) }

/-- HL_ASSIGN (R170). -/
def execHlAssign (t : TableSel) (s : State) : Host.Outcome State Fault Refusal := runCommand (hlAssignOp t) s

end Sys2Proof.Machine
end

