-- ==== Sys2Proof/Machine/CodeTable.lean ====
section
/-! DEFINITION. The code-length-table encoder (spec/45_code_table_encoder.md R200 to R207). -/

namespace Sys2Proof.Machine

/-- A sequence of lengths as its maximal runs (value, count), in order: the runs R201 walks with i <- i + r. -/
def runsOf : List (BitVec 4) → List (BitVec 4 × Nat)
  | [] => []
  | v :: vs =>
    match runsOf vs with
    | [] => [(v, 1)]
    | (u, r) :: more => if v = u then (u, r + 1) :: more else (v, 1) :: (u, r) :: more

/-- The entry Literal(v) of R95. -/
def clsLiteral (v : BitVec 4) : ClsEntry := ⟨⟨v.toNat, by omega⟩, 0, 0⟩

/-- The entries for the rest of a run of zeros, `rem` of them (R201). `fuel` = rem turns are enough. -/
def zeroEntries : (fuel rem : Nat) → List ClsEntry
  | 0, _ => []
  | fuel + 1, rem =>
    if 11 ≤ rem then
      ⟨18, BitVec.ofNat 8 (min rem 138 - 11), 7⟩ :: zeroEntries fuel (rem - min rem 138)
    else if 3 ≤ rem then [⟨17, BitVec.ofNat 8 (rem - 3), 3⟩]
    else List.replicate rem (clsLiteral 0)

/-- The entries for the copies still to send of a nonzero length v, `rem` of them (R201). -/
def copyEntries (v : BitVec 4) : (fuel rem : Nat) → List ClsEntry
  | 0, _ => []
  | fuel + 1, rem =>
    if 3 ≤ rem then
      ⟨16, BitVec.ofNat 8 (min rem 6 - 3), 2⟩ :: copyEntries v fuel (rem - min rem 6)
    else List.replicate rem (clsLiteral v)

/-- The entries of one run (R201). -/
def runEntries (run : BitVec 4 × Nat) : List ClsEntry :=
  if run.1 = 0 then zeroEntries run.2 run.2
  else clsLiteral run.1 :: copyEntries run.1 (run.2 - 1) (run.2 - 1)

/-- `rle(lens)` (R201). -/
def rle (lens : List (BitVec 4)) : List ClsEntry := (runsOf lens).flatMap runEntries

/-- One more in FREQ_CL for each entry's meta-symbol (R203). -/
def countCls (entries : List ClsEntry) : Table Word Config.nCL :=
  entries.foldl (fun t e => t.bump e.sym.val) (.fill 0)

/-- CT_RLE (R200): the LL lengths and the D lengths as two separate sequences (R206). -/
def ctRleOp (d : Data) : Except FaultKind Data :=
  let q := rle d.lenLL.entries ++ rle d.lenD.entries
  .ok { d with clsq := q, freqCL := countCls q, result0 := BitVec.ofNat 32 q.length }

/-- CLS_READ (R205): an index beyond the queue reads 0xFFFFFFFF and is no fault. -/
def clsReadOp (d : Data) : Except FaultKind Data :=
  .ok { d with result0 :=
    match d.clsq[d.arg0.toNat]? with
    | some e => clsword e
    | none => 0xFFFFFFFF }

/-- CT_RLE (R200). -/
def execCtRle (s : State) : Host.Outcome State Fault Refusal := runCommand ctRleOp s

/-- CLS_READ (R205). -/
def execClsRead (s : State) : Host.Outcome State Fault Refusal := runCommand clsReadOp s

end Sys2Proof.Machine
end

