-- ==== Sys2Proof/Machine/MatchFinder.lean ====
section
/-! DEFINITION. The Match Finder commands (spec/41_match_finder.md R130 to R136). -/

namespace Sys2Proof.Machine

/-- `mf_register(key, pos)` on a window of capacity `w` (R130): the entry goes to the newest end, and if the
window then exceeds its capacity the oldest entry goes. -/
def mfRegister (w : Nat) (e : MfEntry) (mf : List MfEntry) : List MfEntry :=
  if w < (mf ++ [e]).length then (mf ++ [e]).drop 1 else mf ++ [e]

/-- `mf_locate(key)` (R132): the positions of the entries with this key, most recent first. -/
def mfLocate (key : Word) (mf : List MfEntry) : List Word :=
  (mf.reverse.filter fun e => e.key = key).map fun e => e.pos

/-- MF_RESET (R133). -/
def mfResetOp (d : Data) : Except FaultKind Data := .ok { d with mf := [] }

/-- MF_REGISTER (R134). -/
def mfRegisterOp (d : Data) : Except FaultKind Data :=
  .ok { d with mf := mfRegister d.window.toNat ⟨d.keyArg, d.arg1⟩ d.mf }

/-- MF_LOCATE (R136): LOCQ is replaced, and the whole list is returned (not cut to LB). -/
def mfLocateOp (d : Data) : Except FaultKind Data :=
  .ok { d with
    locq := mfLocate d.keyArg d.mf
    result0 := BitVec.ofNat 32 (mfLocate d.keyArg d.mf).length }

/-- MF_RESET (R133). -/
def execMfReset (s : State) : Host.Outcome State Fault Refusal := runCommand mfResetOp s

/-- MF_REGISTER (R134). -/
def execMfRegister (s : State) : Host.Outcome State Fault Refusal := runCommand mfRegisterOp s

/-- MF_LOCATE (R136). -/
def execMfLocate (s : State) : Host.Outcome State Fault Refusal := runCommand mfLocateOp s

end Sys2Proof.Machine
end

