-- ==== Sys2Proof/Machine/Symbolizer.lean ====
section
/-! DEFINITION. The Symbolizer commands (spec/42_symbolizer.md R150 to R155). -/

namespace Sys2Proof.Machine

/-- How many bytes two sequences share from their starts, at most `cap`. With the sequences that start at s and
at i of the input, s < i, it is the match scan of R152: the scan ends at the cap, at the end of the
input (i + l < n) or at the first differing byte. -/
def commonPrefix : Nat → List Byte → List Byte → Nat
  | cap + 1, x :: xs, y :: ys => if x = y then commonPrefix cap xs ys + 1 else 0
  | _, _, _ => 0

/-- The turn of R152's candidate loop for the candidate stored at position `e`, from the best (length, distance)
so far: a distance above 32768 is passed over, and only a strictly greater length replaces the best (R156). -/
def considerCandidate (bytes : List Byte) (k i : Nat) (best : Nat × Nat) (e : Word) : Nat × Nat :=
  let s := e.toNat - (k - 1)
  let dist := i - s
  if Config.maxDist < dist then best
  else
    let l := commonPrefix Config.maxMatch (bytes.drop s) (bytes.drop i)
    if best.1 < l then (l, dist) else best

/-- (best_len, best_dist) at position i (R152): the first LB positions of the lookup, most recent first; (0, 0)
where fewer than K bytes remain. -/
def bestMatch (bytes : List Byte) (k lb i : Nat) (mf : List MfEntry) : Nat × Nat :=
  if i + k ≤ bytes.length then
    ((mfLocate (keyAt bytes k i) mf).take lb).foldl (considerCandidate bytes k i) (0, 0)
  else (0, 0)

/-- Registration of the positions p, p+1, ... (`adv` of them) of an advance (R152); a position with fewer than K
bytes left is not registered. -/
def registerSpan (bytes : List Byte) (w k : Nat) : (p adv : Nat) → List MfEntry → List MfEntry
  | _, 0, mf => mf
  | p, adv + 1, mf =>
    registerSpan bytes w k (p + 1) adv <|
      if p + k ≤ bytes.length then mfRegister w ⟨keyAt bytes k p, BitVec.ofNat 32 (p + k - 1)⟩ mf else mf

/-- The symbol emitted at position i for the best match found there, and how far it advances (R152). -/
def chooseSymbol (bytes : List Byte) (i : Nat) (best : Nat × Nat) : Symbol × Nat :=
  if Config.minMatch ≤ best.1 then (.reference best.1 best.2, best.1) else (.literal (bytes.getD i 0), 1)

/-- The loop of R152 from position i with window `mf`: the symbols before EndOfBlock and the final window. Every
turn advances, so `fuel` = |IN| turns are enough. -/
def symbolLoop (bytes : List Byte) (w k lb : Nat) : (fuel i : Nat) → List MfEntry → List Symbol × List MfEntry
  | 0, _, mf => ([], mf)
  | fuel + 1, i, mf =>
    if i < bytes.length then
      let choice := chooseSymbol bytes i (bestMatch bytes k lb i mf)
      let rest := symbolLoop bytes w k lb fuel (i + choice.2) (registerSpan bytes w k i choice.2 mf)
      (choice.1 :: rest.1, rest.2)
    else ([], mf)

/-- The two weight tables SYM_RUN writes. -/
abbrev Weights := Table Word Config.nLL × Table Word Config.nD

/-- One turn of the weight count (R153). -/
def countSymbol (t : Weights) : Symbol → Except FaultKind Weights
  | .literal b => .ok (t.1.bump b.toNat, t.2)
  | .reference l d => do
    let lc ← lcode l
    let dc ← dcode d
    return (t.1.bump lc.symbol, t.2.bump dc.symbol)
  | .endOfBlock => .ok (t.1.bump 256, t.2)

/-- The weight count of a symbol sequence from given tables (R153), stopping at the first fault. -/
def countSymbols : List Symbol → Weights → Except FaultKind Weights
  | [], t => .ok t
  | x :: xs, t => (countSymbol t x).bind (countSymbols xs)

/-- IN_CLEAR (R150). -/
def inClearOp (d : Data) : Except FaultKind Data := .ok { d with input := [] }

/-- The symbols SYM_RUN makes of the input, EndOfBlock last, and the window it leaves (R152). -/
def symbolize (d : Data) : List Symbol × List MfEntry :=
  let r := symbolLoop d.input d.window.toNat d.keySize.toNat d.lookback.toNat d.input.length 0 []
  (r.1 ++ [.endOfBlock], r.2)

/-- SYM_RUN (R152, R153): one window per block, so the loop starts from an empty window (R158). -/
def symRunOp (d : Data) : Except FaultKind Data := do
  let (symbols, mf) := symbolize d
  let (ll, dist) ← countSymbols symbols (.fill 0, .fill 0)
  return { d with
    symq := symbols
    mf := mf
    freqLL := ll
    freqD := dist
    result0 := BitVec.ofNat 32 symbols.length }

/-- SYM_READ (R155): an index beyond the queue reads 0xFFFFFFFF and is no fault. -/
def symReadOp (d : Data) : Except FaultKind Data :=
  .ok { d with result0 :=
    match d.symq[d.arg0.toNat]? with
    | some x => symword x
    | none => 0xFFFFFFFF }

/-- IN_CLEAR (R150). -/
def execInClear (s : State) : Host.Outcome State Fault Refusal := runCommand inClearOp s

/-- SYM_RUN (R152). -/
def execSymRun (s : State) : Host.Outcome State Fault Refusal := runCommand symRunOp s

/-- SYM_READ (R155). -/
def execSymRead (s : State) : Host.Outcome State Fault Refusal := runCommand symReadOp s

end Sys2Proof.Machine
end

