-- ==== Sys2Proof/Machine/BlockAssembler.lean ====
section
/-! DEFINITION. The Block Assembler commands (spec/46_block_assembler.md R220 to R230). -/

namespace Sys2Proof.Machine

/-- The transmission order of the CL lengths (spec/30_encoding.md R93). -/
def clOrder : List Nat := [16, 17, 18, 0, 8, 7, 9, 6, 10, 5, 11, 4, 12, 3, 13, 2, 14, 1, 15]

/-- `appendSymbol(A, sym)` (R221): code, extra bits, and for a Reference the distance's code and extra bits. -/
def appendSymbol (d : Data) (a : Accum) : Symbol → Except FaultKind Accum
  | .literal b => a.appendCode (d.codeLL.get ⟨0, 0⟩ b.toNat)
  | .endOfBlock => a.appendCode (d.codeLL.get ⟨0, 0⟩ 256)
  | .reference l dist => do
    let lc ← lcode l
    let a ← a.appendCode (d.codeLL.get ⟨0, 0⟩ lc.symbol)
    let a ← a.appendNum lc.xv lc.xw
    let dc ← dcode dist
    let a ← a.appendCode (d.codeD.get ⟨0, 0⟩ dc.symbol)
    a.appendNum dc.xv dc.xw

/-- `appendSymbol` for each symbol of a sequence, in order (R227). -/
def appendSymbols (d : Data) : List Symbol → Accum → Except FaultKind Accum
  | [], a => .ok a
  | x :: xs, a => (appendSymbol d a x).bind (appendSymbols d xs)

/-- `appendMeta(A, e)` (R222): the meta-code, then the extra field as a number. -/
def appendMeta (d : Data) (a : Accum) (e : ClsEntry) : Except FaultKind Accum :=
  (a.appendCode (d.codeCL.get ⟨0, 0⟩ e.sym.val)).bind fun a => a.appendNum e.xv.toNat e.xw.toNat

/-- `appendMeta` for each entry of a sequence, in order (R224). -/
def appendMetas (d : Data) : List ClsEntry → Accum → Except FaultKind Accum
  | [], a => .ok a
  | e :: es, a => (appendMeta d a e).bind (appendMetas d es)

/-- The CL lengths of a list of symbols as 3-bit fields (R92, R224). -/
def appendClLengths (d : Data) : List Nat → Accum → Except FaultKind Accum
  | [], a => .ok a
  | s :: ss, a => (a.appendNum (d.lenCL.get 0 s).toNat 3).bind (appendClLengths d ss)

/-- The whole header of R224: BFINAL, BTYPE, HLIT, HDIST, HCLEN, the CL lengths and the CLSQ entries. -/
def appendHeader (d : Data) (f : Bool) (a : Accum) : Except FaultKind Accum := do
  let a ← a.appendNum f.toNat 1
  let a ← a.appendNum 2 2
  let a ← a.appendNum 29 5
  let a ← a.appendNum 29 5
  let a ← a.appendNum 15 4
  let a ← appendClLengths d clOrder a
  appendMetas d d.clsq a

/-- BLK_HEADER (R224). -/
def blkHeaderOp (a : AccSel) (f : Bool) (d : Data) : Except FaultKind Data := do
  let x ← appendHeader d f (d.acc a)
  return { d.setAcc a x with result0 := BitVec.ofNat 32 (x.bitCount - (d.acc a).bitCount) }

/-- BLK_BODY (R227). -/
def blkBodyOp (a : AccSel) (d : Data) : Except FaultKind Data := do
  let x ← appendSymbols d d.symq (d.acc a)
  return { d.setAcc a x with result0 := BitVec.ofNat 32 (x.bitCount - (d.acc a).bitCount) }

/-- BLK_ENCODE (R230): the unit commands in their fixed order, inside this one command. Only the last values of
RESULT0 and RESULT1 are visible. -/
def blkEncodeOp (f : Bool) (d : Data) : Except FaultKind Data := do
  let d ← symRunOp d
  let d ← hlAssignOp .ll d
  let d ← hlAssignOp .d d
  let d ← ccBuildOp .ll d
  let d ← ccBuildOp .d d
  let d ← ctRleOp d
  let d ← hlAssignOp .cl d
  let d ← ccBuildOp .cl d
  let d ← baClearOp .ba1 d
  let d ← blkHeaderOp .ba1 f d
  let h := d.result0
  let d ← blkBodyOp .ba1 d
  let b := d.result0
  let d ← baExtendOp d
  let d ← baDrainOp .ba0 d
  let m := d.result0
  let d ← inClearOp d
  return { d with result0 := h + b, result1 := m }

/-- BLK_HEADER (R224). -/
def execBlkHeader (a : AccSel) (f : Bool) (s : State) : Host.Outcome State Fault Refusal :=
  runCommand (blkHeaderOp a f) s

/-- BLK_BODY (R227). -/
def execBlkBody (a : AccSel) (s : State) : Host.Outcome State Fault Refusal := runCommand (blkBodyOp a) s

/-- BLK_ENCODE (R230). -/
def execBlkEncode (f : Bool) (s : State) : Host.Outcome State Fault Refusal := runCommand (blkEncodeOp f) s

end Sys2Proof.Machine
end

