-- ==== Sys2Proof/Machine/System.lean ====
section
/-! DEFINITION. The system and table-access commands (spec/47_system_and_table_access.md R250 to R256). -/

namespace Sys2Proof.Machine

/-- TBL_READ (R254): KD, then the index, is checked; RESULT1 is written only for a CODE table. -/
def tblReadOp (t : TableSel) (kd : TableKind) (idx : BitVec 16) (d : Data) : Except FaultKind Data :=
  if kd.readable = false then .error .illegalCommand
  else if t.size ≤ idx.toNat then .error .illegalOperand
  else match kd with
    | .freq => .ok { d with result0 := (d.freqOf t).get 0 idx.toNat }
    | .len => .ok { d with result0 := ((d.lenOf t).get 0 idx.toNat).zeroExtend 32 }
    | .code =>
      let c := (d.codeOf t).get ⟨0, 0⟩ idx.toNat
      .ok { d with result0 := c.code.zeroExtend 32, result1 := c.width.zeroExtend 32 }
    | .reserved => .error .illegalCommand

/-- TBL_WRITE (R256): KD, then the index, then the value is checked. -/
def tblWriteOp (t : TableSel) (kd : TableKind) (idx : BitVec 16) (d : Data) : Except FaultKind Data :=
  if kd.writable = false then .error .illegalCommand
  else if t.size ≤ idx.toNat then .error .illegalOperand
  else match kd with
    | .freq => .ok (d.setFreq t ((d.freqOf t).set idx.toNat d.arg0))
    | .len =>
      if t.lengthLimit < d.arg0.toNat then .error .illegalOperand
      else .ok (d.setLen t ((d.lenOf t).set idx.toNat (d.arg0.extractLsb' 0 4)))
    | .code => .error .illegalCommand
    | .reserved => .error .illegalCommand

/-- NOP (R250): no change of state other than BUSY <- 0. -/
def execNop (s : State) : Host.Outcome State Fault Refusal := runCommand .ok s

/-- SOFT_RESET (R252). The exact word is acted on at the host's write to CMD (`hostWrite`), which has this
same effect; the engine would give it to a pending word 0x00000001 (R80), which no run has. -/
def execSoftReset (s : State) : Host.Outcome State Fault Refusal := .next (resetBlock s)

/-- TBL_READ (R254). -/
def execTblRead (t : TableSel) (kd : TableKind) (idx : BitVec 16) (s : State) : Host.Outcome State Fault Refusal :=
  runCommand (tblReadOp t kd idx) s

/-- TBL_WRITE (R256). -/
def execTblWrite (t : TableSel) (kd : TableKind) (idx : BitVec 16) (s : State) : Host.Outcome State Fault Refusal :=
  runCommand (tblWriteOp t kd idx) s

end Sys2Proof.Machine
end

