-- ==== Sys2Proof/Machine/Dispatch.lean ====
section
/-! DEFINITION. One arm per command: the engine's transition for a decoded command (spec/30_encoding.md R80,
spec/70_reset_and_hazards.md R310). -/

namespace Sys2Proof.Machine

def exec (i : Instr) (s : State) : Host.Outcome State Fault Refusal :=
  match i with
  | .nop => Sys2Proof.Machine.execNop s
  | .softReset => Sys2Proof.Machine.execSoftReset s
  | .baAppend a n => Sys2Proof.Machine.execBaAppend a n s
  | .baDrain a => Sys2Proof.Machine.execBaDrain a s
  | .baExtend => Sys2Proof.Machine.execBaExtend s
  | .baFlush a => Sys2Proof.Machine.execBaFlush a s
  | .baClear a => Sys2Proof.Machine.execBaClear a s
  | .mfReset => Sys2Proof.Machine.execMfReset s
  | .mfRegister => Sys2Proof.Machine.execMfRegister s
  | .mfLocate => Sys2Proof.Machine.execMfLocate s
  | .inClear => Sys2Proof.Machine.execInClear s
  | .symRun => Sys2Proof.Machine.execSymRun s
  | .symRead => Sys2Proof.Machine.execSymRead s
  | .hlAssign t => Sys2Proof.Machine.execHlAssign t s
  | .ccBuild t => Sys2Proof.Machine.execCcBuild t s
  | .ctRle => Sys2Proof.Machine.execCtRle s
  | .clsRead => Sys2Proof.Machine.execClsRead s
  | .blkHeader a f => Sys2Proof.Machine.execBlkHeader a f s
  | .blkBody a => Sys2Proof.Machine.execBlkBody a s
  | .blkEncode f => Sys2Proof.Machine.execBlkEncode f s
  | .tblRead t kd idx => Sys2Proof.Machine.execTblRead t kd idx s
  | .tblWrite t kd idx => Sys2Proof.Machine.execTblWrite t kd idx s

end Sys2Proof.Machine
end

