-- ==== Sys2Proof/Machine/HostPort.lean ====
section
/-! DEFINITION. The host's side of the block: the register map (spec/10_state.md R23), reads (R54) and writes
(R55) of the aperture, and the host's pseudo-instructions as lists of turns (spec/30_encoding.md R89). Step
calls what is here; nothing here is a command. -/

namespace Sys2Proof.Machine

/-- The host registers (R23). -/
inductive Reg
  | id
  | cmd
  | status
  | arg0
  | arg1
  | result0
  | result1
  | faultInfo
  | inData
  | inCount
  | outData
  | outCount
  | locData
  | locCount
  | cfgWindow
  | cfgKey
  | cfgLookback
  | baState
  | ba0Count
  | ba1Count
  | symCount
  | clsCount
deriving DecidableEq, Repr, Inhabited

/-- The offset of a register (R23). -/
def Reg.offset : Reg → BitVec 8
  | .id => 0x00
  | .cmd => 0x04
  | .status => 0x08
  | .arg0 => 0x0C
  | .arg1 => 0x10
  | .result0 => 0x14
  | .result1 => 0x18
  | .faultInfo => 0x1C
  | .inData => 0x20
  | .inCount => 0x24
  | .outData => 0x28
  | .outCount => 0x2C
  | .locData => 0x30
  | .locCount => 0x34
  | .cfgWindow => 0x38
  | .cfgKey => 0x3C
  | .cfgLookback => 0x40
  | .baState => 0x44
  | .ba0Count => 0x48
  | .ba1Count => 0x4C
  | .symCount => 0x50
  | .clsCount => 0x54

/-- The register at an offset (R23); `none` at 0x58 to 0xFC, which hold no register (R22), and at offsets that are
not a multiple of 4. -/
def Reg.ofOffset (off : BitVec 8) : Option Reg :=
  match off.toNat with
  | 0x00 => some .id
  | 0x04 => some .cmd
  | 0x08 => some .status
  | 0x0C => some .arg0
  | 0x10 => some .arg1
  | 0x14 => some .result0
  | 0x18 => some .result1
  | 0x1C => some .faultInfo
  | 0x20 => some .inData
  | 0x24 => some .inCount
  | 0x28 => some .outData
  | 0x2C => some .outCount
  | 0x30 => some .locData
  | 0x34 => some .locCount
  | 0x38 => some .cfgWindow
  | 0x3C => some .cfgKey
  | 0x40 => some .cfgLookback
  | 0x44 => some .baState
  | 0x48 => some .ba0Count
  | 0x4C => some .ba1Count
  | 0x50 => some .symCount
  | 0x54 => some .clsCount
  | _ => none

/-- ID (R24). -/
def idValue : Word := 0x44464C01

/-- What a pop of an empty queue returns (R32, R34). -/
def emptyPop : Word := 0xFFFFFFFF

/-- The SOFT_RESET word (R252). -/
def softResetWord : Word := 0x00000001

/-- The value of a register as a read returns it (R24 to R41). For the pop registers it is the queue's front. -/
def readReg (s : State) : Reg → Word
  | .id => idValue
  | .cmd => 0
  | .status => s.status
  | .arg0 => s.data.arg0
  | .arg1 => s.data.arg1
  | .result0 => s.data.result0
  | .result1 => s.data.result1
  | .faultInfo => s.faultInfo
  | .inData => 0
  | .inCount => BitVec.ofNat 32 s.data.input.length
  | .outData => match s.data.outq with
    | [] => emptyPop
    | b :: _ => b.zeroExtend 32
  | .outCount => BitVec.ofNat 32 s.data.outq.length
  | .locData => s.data.locq.headD emptyPop
  | .locCount => BitVec.ofNat 32 s.data.locq.length
  | .cfgWindow => s.data.window
  | .cfgKey => s.data.keySize
  | .cfgLookback => s.data.lookback
  | .baState => s.data.baState
  | .ba0Count => BitVec.ofNat 32 s.data.ba0.bytes.length
  | .ba1Count => BitVec.ofNat 32 s.data.ba1.bytes.length
  | .symCount => BitVec.ofNat 32 s.data.symq.length
  | .clsCount => BitVec.ofNat 32 s.data.clsq.length

/-- What a read changes (R54, R65): OUT_DATA and LOC_DATA each pop one entry. -/
def afterRead (s : State) : Reg → State
  | .outData => { s with data := { s.data with outq := s.data.outq.drop 1 } }
  | .locData => { s with data := { s.data with locq := s.data.locq.drop 1 } }
  | _ => s

/-- A host read at an offset (R54): the state after it and the value returned. -/
def hostRead (off : BitVec 8) (s : State) : State × Word :=
  if s.busy = true ∧ Reg.ofOffset off ≠ some .id ∧ Reg.ofOffset off ≠ some .status then
    (raiseAccess .busyViolation off s, Config.freeWord s.free)
  else if s.fault = true ∧ Reg.ofOffset off ≠ some .id ∧ Reg.ofOffset off ≠ some .status
      ∧ Reg.ofOffset off ≠ some .faultInfo then
    ({ s with free := s.free + 1 }, Config.freeWord s.free)
  else match Reg.ofOffset off with
    | some r => (afterRead s r, readReg s r)
    | none => (s, 0)

/-- An accepted host write (the `case off` of R55). -/
def acceptWrite (off : BitVec 8) (v : Word) (s : State) : State :=
  match Reg.ofOffset off with
  | some .cmd => { s with busy := true, data := { s.data with pending := v } }
  | some .arg0 => { s with data := { s.data with arg0 := v } }
  | some .arg1 => { s with data := { s.data with arg1 := v } }
  | some .inData =>
    if s.data.input.length = Config.inCap then raiseAccess .inOverflow off s
    else { s with data := { s.data with input := s.data.input ++ [v.extractLsb' 0 8] } }
  | some .cfgWindow =>
    if 1 ≤ v.toNat ∧ v.toNat ≤ Config.maxWindow then { s with data := { s.data with window := v, mf := [] } } else s
  | some .cfgKey =>
    if v = 2 ∨ v = 3 then { s with data := { s.data with keySize := v, mf := [] } } else s
  | some .cfgLookback =>
    if 1 ≤ v.toNat ∧ v.toNat ≤ Config.maxLookback then { s with data := { s.data with lookback := v } } else s
  | _ => s

/-- A host write of v at an offset (R55): the exact SOFT_RESET word first, then FAULT, then BUSY (R276). -/
def hostWrite (off : BitVec 8) (v : Word) (s : State) : State :=
  if Reg.ofOffset off = some .cmd ∧ v = softResetWord then resetBlock s
  else if s.fault = true then s
  else if s.busy = true then raiseAccess .busyViolation off s
  else acceptWrite off v s

/-! ### The engine (R20, R310) -/

/-- The engine has a step exactly when BUSY = 1 and FAULT = 0 (R20). -/
def engineEnabled (s : State) : Bool := s.busy && !s.fault

/-- The engine's turn: it executes the pending command word (R80, R310), and does nothing when it has no step. -/
def engineTurn (s : State) : Host.Outcome State Fault Refusal :=
  if engineEnabled s then
    match decode s.data.pending with
    | .ok i => exec i s
    | .error _ => .next (raiseCommand .illegalCommand s)
  else .next s

/-- One turn. A read's value goes to the end of the host's record. -/
def takeTurn (t : Turn) (s : State) : Host.Outcome State Fault Refusal :=
  match t with
  | .engine => engineTurn s
  | .read width off =>
    if width ≠ 32 then .refused (.accessWidth width)
    else if off.toNat % 4 ≠ 0 then .refused (.misalignedAccess off)
    else .next { (hostRead off s).1 with reads := s.reads ++ [(off, (hostRead off s).2)] }
  | .write width off v =>
    if width ≠ 32 then .refused (.accessWidth width)
    else if off.toNat % 4 ≠ 0 then .refused (.misalignedAccess off)
    else .next (hostWrite off v s)
  | .hardReset => .next (resetBlock s)

/-! ### The aperture on the bus (R64) -/

/-- The offset of a bus address in the block's aperture; `none` for an address the block does not decode. -/
def apertureOffset (addr : Nat) : Option (BitVec 8) :=
  if Config.base ≤ addr ∧ addr < Config.base + 256 then some (BitVec.ofNat 8 (addr - Config.base)) else none

/-! ### The bus masters (R75) -/

/-- The merged access sequence of several masters' programs: the platform's `order` names the master whose next turn
comes next, and a master with none left is passed over. The block adds no arbitration: it sees this sequence. -/
def mergeMasters : (order : List Nat) → (programs : List (List Turn)) → List Turn
  | [], _ => []
  | m :: ms, programs =>
    match programs.getD m [] with
    | [] => mergeMasters ms programs
    | t :: ts => t :: mergeMasters ms (programs.set m ts)

/-- `s` with the turns to come that the MASTERS masters of the platform bring to the block in the given order. -/
def State.withMasters (s : State) (programs : Fin Config.masters → List Turn) (order : List (Fin Config.masters)) : State :=
  { s with script := mergeMasters (order.map fun m => m.val) (List.ofFn programs) }

/-! ### The host's pseudo-instructions (R88, R89), as turns

A host that polls is a list of turns in which the engine's turn comes before the poll that ends it (R69). -/

/-- `RD <reg>` (R88). -/
def rd (r : Reg) : Turn := .read 32 r.offset

/-- `WR <reg>, v` (R88). -/
def wr (r : Reg) (v : Word) : Turn := .write 32 r.offset v

/-- `RUN <command>`: write the word, then poll until BUSY = 0 (R89). -/
def runScript (i : Instr) : List Turn := [wr .cmd (encode i), .engine, rd .status]

/-- `PUSH b0, b1, ...` (R89). -/
def pushScript (bytes : List Byte) : List Turn := bytes.map fun b => wr .inData (b.zeroExtend 32)

/-- `SETARG x, y` (R89). -/
def setArgScript (x y : Word) : List Turn := [wr .arg0 x, wr .arg1 y]

/-- `POPALL` on a queue of n bytes: n pops and the read of 0xFFFFFFFF that ends it (R89). -/
def popAllScript (n : Nat) : List Turn := List.replicate (n + 1) (rd .outData)

/-- `FINISH` on a stream that leaves n bytes to pop (R89, R234). -/
def finishScript (n : Nat) : List Turn := runScript (.baFlush .ba0) ++ runScript (.baDrain .ba0) ++ popAllScript n

end Sys2Proof.Machine
end

