-- ==== Sys2Proof/Machine/Step.lean ====
section
/-! DEFINITION. One step of the machine: the next turn of the script, or the engine's turn when no turn is left
(a host that makes no further access lets the engine take its step, spec/70_reset_and_hazards.md R312). -/

namespace Sys2Proof.Machine

/-- One step: one host access, one engine transition, or one reset (R14, R69, R310). With no turn left and the
engine idle nothing happens, and all state is kept (spec/60_exceptions.md R287). -/
def step (s : State) : Host.Outcome State Fault Refusal :=
  match s.script with
  | [] => engineTurn s
  | t :: ts => takeTurn t { s with script := ts }

/-- `s` with the command word `w` pending, BUSY = 1 and no fault recorded, and the engine's turn next: the block
fetches no instruction (R21), and this is the state the accepted CMD write of the word leads to (R55), from
which the engine's step runs exactly that word. The bits of `w` above `nbits` are dropped. The reset state has
no turn to come, so the engine's turn is next there as it stands; elsewhere it is put before the others. -/
def State.withFetchWord (s : State) (nbits w : Nat) : State :=
  { s with
    busy := true
    fault := false
    faultCode := 0
    faultSrc := false
    faultInfo := 0
    data := { s.data with pending := BitVec.ofNat 32 (w % 2 ^ nbits) }
    script := if s.script.isEmpty then [] else .engine :: s.script }

end Sys2Proof.Machine
end

