-- ==== Sys2Proof/Safety.lean ====
section
/-! DEFINITION. The words the claims use: what a recorded fault looks like, what holds of every state a run can
reach (`State.ok`), the raw-bit reading of the illegal encodings, the bits each part of a block stands for, and
the spec's own reconstruction laws (expand, unrle) and code properties (Kraft, prefix-free). Nothing here is
part of the machine. -/

namespace Sys2Proof.Machine

/-! ### Faults and idleness -/

/-- The fault record after `raise k` with this source and info, and BUSY clear (R270). -/
def State.recorded (t : State) (k : FaultKind) (src : Bool) (info : Word) : Prop :=
  t.busy = false ∧ t.fault = true ∧ t.faultCode = k.code ∧ t.faultSrc = src ∧ t.faultInfo = info

/-- The engine's turn is the next one: no turn is left, or the next turn is the engine's. -/
def State.engineNext (s : State) : Prop := s.script = [] ∨ ∃ ts, s.script = .engine :: ts

/-- The state as the turn finds it: the turn itself is off the script. -/
def State.inTurn (s : State) : State := { s with script := s.script.tail }

/-- The command completed (R251): BUSY clears, the data are `d`, and nothing else changes. -/
def State.completed (s : State) (d : Data) : State := { s with busy := false, data := d }

/-- Every piece of the block's state at its reset value (R57). PENDING has no reset value, so it may be anything. -/
def State.isReset (t : State) : Prop :=
  t.busy = false ∧ t.fault = false ∧ t.faultCode = 0 ∧ t.faultSrc = false ∧ t.faultInfo = 0
    ∧ t.data = { Data.reset with pending := t.data.pending }

/-- A command word is pending, the engine has its step, and its turn is next (R20, R310). -/
def State.engineReady (s : State) : Prop := s.engineNext ∧ s.busy = true ∧ s.fault = false

/-- The host's turn is next with this turn, the block is idle and no fault is recorded. -/
def State.hostReady (s : State) (t : Turn) : Prop :=
  (∃ ts, s.script = t :: ts) ∧ s.busy = false ∧ s.fault = false

/-- The state after a read that returned v: the record has it, the data are d, nothing else changes. -/
def State.afterReadOf (s : State) (off : BitVec 8) (v : Word) (d : Data) : State :=
  { s.inTurn with data := d, reads := s.reads ++ [(off, v)] }

/-- The state after a write that only changed the data. -/
def State.withData (s : State) (d : Data) : State := { s.inTurn with data := d }

/-! ### Legal configuration and ranges -/

/-- CFG_WINDOW, CFG_KEY and CFG_LOOKBACK hold legal values (R6, R36 to R38). -/
def Data.legalConfig (d : Data) : Prop :=
  (1 ≤ d.window.toNat ∧ d.window.toNat ≤ Config.maxWindow) ∧ (d.keySize = 2 ∨ d.keySize = 3)
    ∧ (1 ≤ d.lookback.toNat ∧ d.lookback.toNat ≤ Config.maxLookback)

/-- A symbol as R43 bounds it: 3 <= l <= 258 and 1 <= d <= 32768 for a Reference. -/
def Symbol.inRange : Symbol → Prop
  | .literal _ => True
  | .reference l d => Config.minMatch ≤ l ∧ l ≤ Config.maxMatch ∧ 1 ≤ d ∧ d ≤ Config.maxDist
  | .endOfBlock => True

/-- The distance of a symbol is at most the window capacity (R151). -/
def Symbol.withinWindow (w : Nat) : Symbol → Prop
  | .literal _ => True
  | .reference _ d => d ≤ w
  | .endOfBlock => True

/-- An entry of CLSQ as R95 lists them. -/
def ClsEntry.inRange (e : ClsEntry) : Prop :=
  (e.sym.val ≤ 15 ∧ e.xw = 0 ∧ e.xv = 0) ∨ (e.sym.val = 16 ∧ e.xw = 2 ∧ e.xv.toNat ≤ 3)
    ∨ (e.sym.val = 17 ∧ e.xw = 3 ∧ e.xv.toNat ≤ 7) ∨ (e.sym.val = 18 ∧ e.xw = 7 ∧ e.xv.toNat ≤ 127)

/-- An Alphabet Encoder entry as R46 bounds it: code < 2^width. -/
def CodeEntry.inRange (c : CodeEntry) : Prop := c.code.toNat < 2 ^ c.width.toNat

/-- The bits of the partial value at and above the partial count are 0 (R49). -/
def Accum.clean (a : Accum) : Prop := a.pv.toNat < 2 ^ a.pc.val

/-- An accumulator as R49 bounds it. -/
def Accum.ok (a : Accum) : Prop := a.bytes.length ≤ Config.outCap ∧ a.clean

/-! ### What holds of every reachable state -/

/-- The block's data as R42 to R50 bound them. -/
structure Data.ok (d : Data) : Prop where
  legal : d.legalConfig
  input : d.input.length ≤ Config.inCap
  symqLength : d.symq.length ≤ Config.inCap + 1
  symqRange : ∀ x ∈ d.symq, x.inRange
  symqEnds : d.symq = [] ∨ d.symq.getLast? = some .endOfBlock
  lenCL : ∀ l ∈ d.lenCL.entries, l.toNat ≤ Config.lmaxCL
  codeLL : ∀ c ∈ d.codeLL.entries, c.inRange
  codeD : ∀ c ∈ d.codeD.entries, c.inRange
  codeCL : ∀ c ∈ d.codeCL.entries, c.inRange
  clsqLength : d.clsq.length ≤ Config.nLL + Config.nD
  clsqRange : ∀ e ∈ d.clsq, e.inRange
  mfLength : d.mf.length ≤ d.window.toNat
  mfKeys : ∀ e ∈ d.mf, e.key &&& keyMask d.keySize.toNat = e.key
  ba0 : d.ba0.ok
  ba1 : d.ba1.ok
  outq : d.outq.length ≤ Config.outCap
  locq : d.locq.length ≤ Config.maxWindow

/-- The machine's invariant. BUSY and FAULT are never both set (R270, R272); while FAULT = 0 the fault record is 0
(R26) and the data are in range; while FAULT = 1 a code of R271 is recorded, never a reserved one, and the
data are unspecified (R58). -/
structure State.ok (s : State) : Prop where
  notBoth : ¬(s.busy = true ∧ s.fault = true)
  quiet : s.fault = false → s.faultCode = 0 ∧ s.faultSrc = false ∧ s.faultInfo = 0
  data : s.fault = false → s.data.ok
  code : s.fault = true → ∃ k : FaultKind, s.faultCode = k.code

/-! ### Encodings, by raw bits (R83, R85) -/

/-- The opcode map of R83: opcode and format. -/
def opcodeMap : List (Nat × Format) :=
  [(0x00, .z), (0x01, .z), (0x10, .an), (0x11, .a), (0x12, .z), (0x13, .a), (0x14, .a), (0x20, .z)]
    ++ [(0x21, .z), (0x22, .z), (0x30, .z), (0x40, .z), (0x41, .z), (0x50, .t), (0x51, .t), (0x60, .z)]
    ++ [(0x61, .z), (0x70, .fa), (0x71, .a), (0x78, .f), (0x80, .x), (0x81, .x)]

/-- The illegal words of R85: an opcode not in the map; a reserved bit set; T = 3 in format T or X; KD = 3 in
TBL_READ; KD = 2 or 3 in TBL_WRITE. -/
def illegalWord (w : Word) : Prop :=
  match opcodeMap.lookup (w.extractLsb' 0 8).toNat with
  | none => True
  | some fmt =>
    w &&& fmt.reservedMask ≠ 0 ∨ ((fmt = .t ∨ fmt = .x) ∧ w.extractLsb' 8 2 = 3)
      ∨ (w.extractLsb' 0 8 = 0x80 ∧ w.extractLsb' 12 2 = 3)
      ∨ (w.extractLsb' 0 8 = 0x81 ∧ 2 ≤ (w.extractLsb' 12 2).toNat)

/-! ### The length and distance code tables (R96, R97) -/

/-- A row of R96 or R97: the code symbol, its extra-bit count, and the first and last value of the row. -/
structure CodeRow where
  symbol : Nat
  extra : Nat
  first : Nat
  last : Nat
deriving DecidableEq, Repr

/-- The table of R96. -/
def lengthRows : List CodeRow :=
  [⟨257, 0, 3, 3⟩, ⟨258, 0, 4, 4⟩, ⟨259, 0, 5, 5⟩, ⟨260, 0, 6, 6⟩, ⟨261, 0, 7, 7⟩, ⟨262, 0, 8, 8⟩]
    ++ [⟨263, 0, 9, 9⟩, ⟨264, 0, 10, 10⟩, ⟨265, 1, 11, 12⟩, ⟨266, 1, 13, 14⟩, ⟨267, 1, 15, 16⟩]
    ++ [⟨268, 1, 17, 18⟩, ⟨269, 2, 19, 22⟩, ⟨270, 2, 23, 26⟩, ⟨271, 2, 27, 30⟩, ⟨272, 2, 31, 34⟩]
    ++ [⟨273, 3, 35, 42⟩, ⟨274, 3, 43, 50⟩, ⟨275, 3, 51, 58⟩, ⟨276, 3, 59, 66⟩, ⟨277, 4, 67, 82⟩]
    ++ [⟨278, 4, 83, 98⟩, ⟨279, 4, 99, 114⟩, ⟨280, 4, 115, 130⟩, ⟨281, 5, 131, 162⟩, ⟨282, 5, 163, 194⟩]
    ++ [⟨283, 5, 195, 226⟩, ⟨284, 5, 227, 257⟩, ⟨285, 0, 258, 258⟩]

/-- The table of R97. -/
def distanceRows : List CodeRow :=
  [⟨0, 0, 1, 1⟩, ⟨1, 0, 2, 2⟩, ⟨2, 0, 3, 3⟩, ⟨3, 0, 4, 4⟩, ⟨4, 1, 5, 6⟩, ⟨5, 1, 7, 8⟩, ⟨6, 2, 9, 12⟩]
    ++ [⟨7, 2, 13, 16⟩, ⟨8, 3, 17, 24⟩, ⟨9, 3, 25, 32⟩, ⟨10, 4, 33, 48⟩, ⟨11, 4, 49, 64⟩, ⟨12, 5, 65, 96⟩]
    ++ [⟨13, 5, 97, 128⟩, ⟨14, 6, 129, 192⟩, ⟨15, 6, 193, 256⟩, ⟨16, 7, 257, 384⟩, ⟨17, 7, 385, 512⟩]
    ++ [⟨18, 8, 513, 768⟩, ⟨19, 8, 769, 1024⟩, ⟨20, 9, 1025, 1536⟩, ⟨21, 9, 1537, 2048⟩]
    ++ [⟨22, 10, 2049, 3072⟩, ⟨23, 10, 3073, 4096⟩, ⟨24, 11, 4097, 6144⟩, ⟨25, 11, 6145, 8192⟩]
    ++ [⟨26, 12, 8193, 12288⟩, ⟨27, 12, 12289, 16384⟩, ⟨28, 13, 16385, 24576⟩, ⟨29, 13, 24577, 32768⟩]

/-! ### The bits a block is made of -/

/-- The n low bits of a number, bit 0 first (R60). -/
def numBits (v n : Nat) : List Bool := (List.range n).map v.testBit

/-- The bits of a Huffman code in the stream: its most significant bit first (R220). -/
def codeBits (c : CodeEntry) : List Bool :=
  (List.range c.width.toNat).map fun j => c.code.toNat.testBit (c.width.toNat - 1 - j)

/-- The bits of a code symbol's extra field, none for a value that has no code (R221). -/
def extraBits : Except FaultKind ExtraCode → List Bool
  | .ok e => numBits e.xv e.xw
  | .error _ => []

/-- The code an alphabet gives the code symbol of a length or distance, (0, 0) for a value that has none. -/
def codeFor {n : Nat} (t : Table CodeEntry n) : Except FaultKind ExtraCode → CodeEntry
  | .ok e => t.get ⟨0, 0⟩ e.symbol
  | .error _ => ⟨0, 0⟩

/-- The bits of one symbol (R221). -/
def symbolBits (d : Data) : Symbol → List Bool
  | .literal b => codeBits (d.codeLL.get ⟨0, 0⟩ b.toNat)
  | .endOfBlock => codeBits (d.codeLL.get ⟨0, 0⟩ 256)
  | .reference l dist =>
    codeBits (codeFor d.codeLL (lcode l)) ++ extraBits (lcode l)
      ++ codeBits (codeFor d.codeD (dcode dist)) ++ extraBits (dcode dist)

/-- Every Huffman code the symbol needs has a width above 0 (R229). -/
def hasCodes (d : Data) : Symbol → Prop
  | .literal b => (d.codeLL.get ⟨0, 0⟩ b.toNat).width ≠ 0
  | .endOfBlock => (d.codeLL.get ⟨0, 0⟩ 256).width ≠ 0
  | .reference l dist => (codeFor d.codeLL (lcode l)).width ≠ 0 ∧ (codeFor d.codeD (dcode dist)).width ≠ 0

/-- The bits a symbol appends before the first of its Huffman codes that is missing (R221, R229). -/
def bitsBeforeMissing (d : Data) : Symbol → List Bool
  | .literal _ => []
  | .endOfBlock => []
  | .reference l _ =>
    if (codeFor d.codeLL (lcode l)).width = 0 then [] else codeBits (codeFor d.codeLL (lcode l)) ++ extraBits (lcode l)

/-- The bits of a block's body: those of SYMQ, in order (R227). -/
def blockBody (d : Data) : List Bool := d.symq.flatMap (symbolBits d)

/-- The bits of one CLSQ entry (R222). -/
def metaBits (d : Data) (e : ClsEntry) : List Bool :=
  codeBits (d.codeCL.get ⟨0, 0⟩ e.sym.val) ++ numBits e.xv.toNat e.xw.toNat

/-- The 17 bits before the CL lengths (R223). -/
def fixedHeader (f : Bool) : List Bool :=
  [f, false, true, true, false, true, true, true, true, false, true, true, true, true, true, true, true]

/-- The bits of a block's header (R224): the 17 fixed bits, the 19 CL lengths in the order of R93, the CLSQ entries. -/
def blockHeader (d : Data) (f : Bool) : List Bool :=
  fixedHeader f
    ++ [16, 17, 18, 0, 8, 7, 9, 6, 10, 5, 11, 4, 12, 3, 13, 2, 14, 1, 15].flatMap
        (fun s => numBits (d.lenCL.get 0 s).toNat 3)
    ++ d.clsq.flatMap (metaBits d)

/-- The bits of a sequence of bytes in stream order (R60). -/
def streamBits (bytes : List Byte) : List Bool := bytes.flatMap byteBits

/-! ### Code symbols of a Symbol (R101) and matches (R152) -/

/-- The LL symbol of a Symbol (R101), `none` for a length outside the format. -/
def llSymbol : Symbol → Option Nat
  | .literal b => some b.toNat
  | .reference l _ => (lcode l).toOption.map fun e => e.symbol
  | .endOfBlock => some 256

/-- The D symbol of a Symbol (R101), `none` for one that has no distance. -/
def dSymbol : Symbol → Option Nat
  | .literal _ => none
  | .reference _ d => (dcode d).toOption.map fun e => e.symbol
  | .endOfBlock => none

/-- The distance of the candidate stored at position e for the position i (R152). -/
def candidateDistance (k i : Nat) (e : Word) : Nat := i - (e.toNat - (k - 1))

/-- The match length of the candidate stored at position e for the position i (R152). -/
def candidateLength (bytes : List Byte) (k i : Nat) (e : Word) : Nat :=
  commonPrefix Config.maxMatch (bytes.drop (e.toNat - (k - 1))) (bytes.drop i)

/-- The candidates examined at position i: the first LB positions of the lookup, most recent first, none where fewer than
K bytes remain (R152, R156). -/
def nearCandidates (bytes : List Byte) (k lb i : Nat) (mf : List MfEntry) : List Word :=
  if i + k ≤ bytes.length then (mfLocate (keyAt bytes k i) mf).take lb else []

/-- The window SYM_RUN has when it comes to position i: the last W of the entries of the positions below i that have K
bytes, in order (R131, R152). -/
def windowBefore (d : Data) (i : Nat) : List MfEntry :=
  let k := d.keySize.toNat
  let entries := (List.range (min i (d.input.length + 1 - k))).map fun p =>
    (⟨keyAt d.input k p, BitVec.ofNat 32 (p + k - 1)⟩ : MfEntry)
  entries.drop (entries.length - d.window.toNat)

/-! ### The spec's reconstruction laws (R154, R204) -/

/-- The copy of a Reference, one byte at a time, so that it may copy bytes it has just made (R154). -/
def copyBack (dist : Nat) : Nat → List Byte → List Byte
  | 0, out => out
  | l + 1, out => copyBack dist l (out ++ [out.getD (out.length - dist) 0])

/-- `expand(S)` from the bytes made so far (R154). -/
def expandFrom : List Byte → List Symbol → List Byte
  | out, [] => out
  | out, .literal b :: xs => expandFrom (out ++ [b]) xs
  | out, .reference l d :: xs => expandFrom (copyBack d l out) xs
  | out, .endOfBlock :: _ => out

/-- `expand(S)` (R154). -/
def expand (xs : List Symbol) : List Byte := expandFrom [] xs

/-- `unrle(C)` from the lengths made so far (R204). -/
def unrleFrom : List (BitVec 4) → List ClsEntry → List (BitVec 4)
  | out, [] => out
  | out, e :: es =>
    if e.sym.val ≤ 15 then unrleFrom (out ++ [BitVec.ofNat 4 e.sym.val]) es
    else if e.sym.val = 16 then unrleFrom (out ++ List.replicate (e.xv.toNat + 3) (out.getLastD 0)) es
    else if e.sym.val = 17 then unrleFrom (out ++ List.replicate (e.xv.toNat + 3) 0) es
    else unrleFrom (out ++ List.replicate (e.xv.toNat + 11) 0) es

/-- `unrle(C)` (R204). -/
def unrle (es : List ClsEntry) : List (BitVec 4) := unrleFrom [] es

/-! ### Code properties (R178, R193) -/

/-- 2^15 times the Kraft sum of a length table: the sum of 2^(15-len) over the lengths above 0 (R178). -/
def kraft (lens : List (BitVec 4)) : Nat := (lens.map fun l => if l = 0 then 0 else 2 ^ (15 - l.toNat)).sum

/-- Of two different symbols that have codes, neither code is a prefix of the other (R193). -/
def prefixFree {n : Nat} (t : Table CodeEntry n) : Prop :=
  ∀ i j, i < n → j < n → i ≠ j → (t.get ⟨0, 0⟩ i).width ≠ 0 → (t.get ⟨0, 0⟩ j).width ≠ 0 →
    ¬ codeBits (t.get ⟨0, 0⟩ i) <+: codeBits (t.get ⟨0, 0⟩ j)

/-- The canonical codes of a length table (R191): a symbol with no length has (0, 0); any other has a code of its
length's width that, as a fraction of that width, is the sum of 2^-len over the symbols before it, those of a
smaller length and those of its length with a smaller index. -/
def canonicalCodes {n : Nat} (lens : Table (BitVec 4) n) (codes : Table CodeEntry n) : Prop :=
  ∀ j, j < n →
    let len := fun i => (lens.get 0 i).toNat
    (len j = 0 → codes.get ⟨0, 0⟩ j = ⟨0, 0⟩)
    ∧ (0 < len j → (codes.get ⟨0, 0⟩ j).width = lens.get 0 j
      ∧ (codes.get ⟨0, 0⟩ j).code.toNat * 2 ^ (15 - len j) = (((List.range n).filter fun i =>
          0 < len i ∧ (len i < len j ∨ (len i = len j ∧ i < j))).map fun i => 2 ^ (15 - len i)).sum)

/-! ### Safe runs -/

/-- A step that goes on with no fault recorded. -/
def safeStep (s : State) : Prop := ∃ t, step s = .next t ∧ t.fault = false

end Sys2Proof.Machine
end

