-- ==== Sys2Proof/Certificates/Slice0/Obligations.lean ====
section
/-! DEFINITION. The statements about the machine, one `def Obligations.<Name> : Prop` each, in the order of
OBLIGATIONS.json. A completion statement says which next state `exec` answers, whole: `s.completed d` is s with BUSY
clear and the data d, so what d does not change is unchanged, and so is everything outside the data. The turns to
come (`script`, `inTurn`) and the record of what reads returned (`reads`) are the model's own (logs 2 and 3). -/

open Sys2Proof Sys2Proof.Machine

/-! ### Reset -/

/-- R57: the reset value of every piece of state, and of STATUS. PENDING is unspecified there and not named here. -/
def Obligations.ResetLeavesResetValues : Prop :=
  State.reset.isReset ∧ State.reset.status = 0x0000000C
    ∧ Data.reset.arg0 = 0 ∧ Data.reset.arg1 = 0 ∧ Data.reset.result0 = 0 ∧ Data.reset.result1 = 0
    ∧ Data.reset.window = 4096 ∧ Data.reset.keySize = 3 ∧ Data.reset.lookback = 8
    ∧ Data.reset.input = [] ∧ Data.reset.symq = [] ∧ Data.reset.clsq = [] ∧ Data.reset.outq = []
    ∧ Data.reset.locq = [] ∧ Data.reset.mf = []
    ∧ (∀ (t : TableSel) (i : Nat), i < t.size → (Data.reset.freqOf t).get 1 i = 0
        ∧ (Data.reset.lenOf t).get 1 i = 0 ∧ (Data.reset.codeOf t).get ⟨1, 1⟩ i = ⟨0, 0⟩)
    ∧ Data.reset.ba0 = ⟨[], 0, 0⟩ ∧ Data.reset.ba1 = ⟨[], 0, 0⟩

/-- The invariant `State.ok` holds right after reset. -/
def Obligations.ResetStateIsOk : Prop := State.reset.ok

/-- R253: SOFT_RESET (the exact word written to CMD, whatever BUSY and FAULT hold) and hard reset give the same
state, and no piece of the block's state survives. The turns to come and the host's record are outside the block. -/
def Obligations.SoftResetAndHardResetGiveResetState : Prop :=
  ∀ (s : State) (ts : List Turn), (s.script = .write 32 0x04 0x00000001 :: ts ∨ s.script = .hardReset :: ts) →
    ∃ t, step s = .next t ∧ t.isReset ∧ t.script = ts ∧ t.reads = s.reads

/-! ### The engine and the decoder -/

/-- Where the engine has its step and the pending word decodes to i, the step is exec of i, with its own turn off
the script; a word that does not decode raises ILLEGAL_COMMAND (R80, R310). -/
def Obligations.StepRunsTheDecodedCommand : Prop :=
  ∀ s : State, s.engineReady →
    (∀ i, decode s.data.pending = .ok i → step s = exec i s.inTurn)
    ∧ (∀ e, decode s.data.pending = .error e →
        ∃ t, step s = .next t ∧ t.recorded .illegalCommand false s.data.pending)

/-- R310 and R20: the engine has no step in any other state; its turn then passes with nothing changed. -/
def Obligations.EngineHasNoOtherStep : Prop :=
  ∀ s : State, s.engineNext → ¬(s.busy = true ∧ s.fault = false) → step s = .next s.inTurn

/-- R310: every engine step, whatever the pending word and the data, ends with BUSY = 0 and FAULT = 0 or with
FAULT = 1; no command stops the machine. -/
def Obligations.EngineStepEndsIdleOrFaulted : Prop :=
  ∀ s : State, s.engineReady →
    ∃ t, step s = .next t ∧ ((t.busy = false ∧ t.fault = false) ∨ t.fault = true)

/-- Decoding an encoded command gives it back, with every operand at every value (R81 to R83). -/
def Obligations.DecodeOfEncodeIsTheCommand : Prop := ∀ i : Instr, decode (encode i) = .ok i

/-- Every word the decoder accepts is the encoding of the command it gives: no bit is ignored (R85, R86). -/
def Obligations.EncodeOfDecodeIsTheWord : Prop := ∀ (w : Word) (i : Instr), decode w = .ok i → encode i = w

/-- R85: every illegal word, by its raw bits, raises ILLEGAL_COMMAND when executed; every other word is a legal command,
and its step records no ILLEGAL_COMMAND. -/
def Obligations.EveryWordIsACommandOrIllegal : Prop :=
  (∀ s : State, s.engineReady → illegalWord s.data.pending →
      ∃ t, step s = .next t ∧ t.recorded .illegalCommand false s.data.pending)
    ∧ (∀ w : Word, ¬ illegalWord w → ∃ i, decode w = .ok i ∧ i.wellFormed = true)
    ∧ ∀ s t : State, s.engineReady → ¬ illegalWord s.data.pending → step s = .next t →
        ∀ src info, ¬ t.recorded .illegalCommand src info

/-- The worked encodings of R89 and V-ENC decode to the commands they are written for. -/
def Obligations.WorkedEncodingsDecode : Prop :=
  decode 0x00000000 = .ok .nop ∧ decode 0x00050110 = .ok (.baAppend .ba1 5)
    ∧ decode 0x00000570 = .ok (.blkHeader .ba1 true) ∧ decode 0x00000478 = .ok (.blkEncode true)
    ∧ decode 0x00000078 = .ok (.blkEncode false) ∧ decode 0x00000250 = .ok (.hlAssign .cl)
    ∧ decode 0x00042180 = .ok (.tblRead .d .code 4) ∧ decode 0x00121281 = .ok (.tblWrite .cl .len 18)
    ∧ decode 0x00000002 = .error .unknownOpcode ∧ decode 0x00000178 = .error .reservedBit
    ∧ decode 0x00000350 = .error .reservedTable

/-! ### Faults -/

/-- R272: once FAULT = 1 the engine takes no step; every host write but the SOFT_RESET word is ignored; ID, STATUS and
FAULT_INFO read their values and every other read returns some value; no second fault is recorded; and only
SOFT_RESET and hard reset clear FAULT. -/
def Obligations.FaultsAreSticky : Prop :=
  ∀ s : State, s.fault = true → s.busy = false →
    (s.engineNext → step s = .next s.inTurn)
    ∧ (∀ off v ts, s.script = .write 32 off v :: ts → off.toNat % 4 = 0 → ¬(off = 0x04 ∧ v = 0x00000001) →
        step s = .next s.inTurn)
    ∧ (∀ off ts, s.script = .read 32 off :: ts → off.toNat % 4 = 0 →
        ∃ t v, step s = .next t ∧ t.reads = s.reads ++ [(off, v)] ∧ (off = 0x00 → v = 0x44464C01)
          ∧ (off = 0x08 → v = s.status) ∧ (off = 0x1C → v = s.faultInfo))
    ∧ ((∀ ts, s.script ≠ .write 32 0x04 0x00000001 :: ts) → (∀ ts, s.script ≠ .hardReset :: ts) →
        ∀ t, step s = .next t → t.fault = true ∧ t.busy = false ∧ t.faultCode = s.faultCode
          ∧ t.faultSrc = s.faultSrc ∧ t.faultInfo = s.faultInfo)
    ∧ (∀ ts, (s.script = .write 32 0x04 0x00000001 :: ts ∨ s.script = .hardReset :: ts) →
        ∃ t, step s = .next t ∧ t.fault = false)

/-- R311: while BUSY = 1 a read other than of ID and STATUS, and a write other than SOFT_RESET, raises
BUSY_VIOLATION, recorded with the register offset. -/
def Obligations.BusyAccessesRaiseBusyViolation : Prop :=
  ∀ (s : State) (off : BitVec 8) (ts : List Turn), s.busy = true → s.fault = false → off.toNat % 4 = 0 →
    (s.script = .read 32 off :: ts → off ≠ 0x00 → off ≠ 0x08 →
        ∃ t, step s = .next t ∧ t.recorded .busyViolation true (off.zeroExtend 32))
    ∧ (∀ v, s.script = .write 32 off v :: ts → ¬(off = 0x04 ∧ v = 0x00000001) →
        ∃ t, step s = .next t ∧ t.recorded .busyViolation true (off.zeroExtend 32))

/-- R56: an access of another width, or at an offset that is not a multiple of 4, is refused by name. -/
def Obligations.OddAccessesAreRefused : Prop :=
  ∀ (s : State) (w : Nat) (off : BitVec 8) (v : Word) (ts : List Turn),
    (s.script = .read w off :: ts ∨ s.script = .write w off v :: ts) →
    (w ≠ 32 → step s = .refused (.accessWidth w))
    ∧ (w = 32 → off.toNat % 4 ≠ 0 → step s = .refused (.misalignedAccess off))

/-! ### Host registers -/

/-- R26: the fields of STATUS, the reserved ones 0. -/
def Obligations.StatusFieldsAreTheFlags : Prop :=
  ∀ s : State,
    s.status.getLsbD 0 = s.busy ∧ s.status.getLsbD 1 = s.fault
    ∧ s.status.getLsbD 2 = decide (s.data.outq = []) ∧ s.status.getLsbD 3 = decide (s.data.locq = [])
    ∧ s.status.getLsbD 4 = decide (s.data.input.length = Config.inCap) ∧ s.status.getLsbD 5 = s.faultSrc
    ∧ s.status.extractLsb' 6 2 = 0 ∧ s.status.extractLsb' 8 8 = s.faultCode ∧ s.status.extractLsb' 16 16 = 0

/-- ID and STATUS are read in every state, and FAULT_INFO in the fault state, with no effect but the value
returned (R24, R26, R29, R54). -/
def Obligations.IdStatusAndFaultInfoReadAlways : Prop :=
  ∀ (s : State) (ts : List Turn),
    (s.script = .read 32 0x00 :: ts → step s = .next (s.afterReadOf 0x00 0x44464C01 s.data))
    ∧ (s.script = .read 32 0x08 :: ts → step s = .next (s.afterReadOf 0x08 s.status s.data))
    ∧ (s.script = .read 32 0x1C :: ts → s.busy = false → step s = .next (s.afterReadOf 0x1C s.faultInfo s.data))

/-- R32: a read of OUT_DATA pops the oldest byte, or returns 0xFFFFFFFF and changes nothing when there is none; a
write has no effect. -/
def Obligations.OutDataPopsTheOldestByte : Prop :=
  ∀ s : State,
    (s.hostReady (.read 32 0x28) →
      (∀ b bs, s.data.outq = b :: bs →
          step s = .next (s.afterReadOf 0x28 (b.zeroExtend 32) { s.data with outq := bs }))
      ∧ (s.data.outq = [] → step s = .next (s.afterReadOf 0x28 0xFFFFFFFF s.data)))
    ∧ ∀ v, s.hostReady (.write 32 0x28 v) → step s = .next s.inTurn

/-- R34: a read of LOC_DATA pops the first position, or returns 0xFFFFFFFF and changes nothing when there is none;
a write has no effect. -/
def Obligations.LocDataPopsTheFirstPosition : Prop :=
  ∀ s : State,
    (s.hostReady (.read 32 0x30) →
      (∀ p ps, s.data.locq = p :: ps → step s = .next (s.afterReadOf 0x30 p { s.data with locq := ps }))
      ∧ (s.data.locq = [] → step s = .next (s.afterReadOf 0x30 0xFFFFFFFF s.data)))
    ∧ ∀ v, s.hostReady (.write 32 0x30 v) → step s = .next s.inTurn

/-- An accepted write to IN_DATA appends v[7:0], and raises IN_OVERFLOW when the buffer is full; a read returns 0 and
has no effect (R30; what IN holds after the fault is R58's). -/
def Obligations.InDataPushesOrOverflows : Prop :=
  ∀ s : State,
    (∀ v, s.hostReady (.write 32 0x20 v) →
      (s.data.input.length ≠ Config.inCap →
        step s = .next (s.withData { s.data with input := s.data.input ++ [v.extractLsb' 0 8] }))
      ∧ (s.data.input.length = Config.inCap →
        ∃ t, step s = .next t ∧ t.recorded .inOverflow true 0x20))
    ∧ (s.hostReady (.read 32 0x20) → step s = .next (s.afterReadOf 0x20 0 s.data))

/-- R36 to R38: a legal value written to a configuration register is kept, and empties the Match Finder for
CFG_WINDOW and CFG_KEY; an illegal one changes nothing; a read returns the value; the reset values are 4096, 3, 8. -/
def Obligations.ConfigurationKeepsOnlyLegalValues : Prop :=
  (∀ (s : State) (v : Word),
    (s.hostReady (.write 32 0x38 v) →
      step s = .next (if 1 ≤ v.toNat ∧ v.toNat ≤ 32768 then s.withData { s.data with window := v, mf := [] }
        else s.inTurn))
    ∧ (s.hostReady (.write 32 0x3C v) →
      step s = .next (if v = 2 ∨ v = 3 then s.withData { s.data with keySize := v, mf := [] } else s.inTurn))
    ∧ (s.hostReady (.write 32 0x40 v) →
      step s = .next (if 1 ≤ v.toNat ∧ v.toNat ≤ 255 then s.withData { s.data with lookback := v } else s.inTurn))
    ∧ (s.hostReady (.read 32 0x38) → step s = .next (s.afterReadOf 0x38 s.data.window s.data))
    ∧ (s.hostReady (.read 32 0x3C) → step s = .next (s.afterReadOf 0x3C s.data.keySize s.data))
    ∧ (s.hostReady (.read 32 0x40) → step s = .next (s.afterReadOf 0x40 s.data.lookback s.data)))
  ∧ State.reset.data.window = 4096 ∧ State.reset.data.keySize = 3 ∧ State.reset.data.lookback = 8

/-- R25 and R27: an accepted write to CMD makes the word pending and sets BUSY; one to ARG0 or ARG1 sets the
register; CMD reads 0 and the others read what they hold. -/
def Obligations.CmdAndArgWrites : Prop :=
  ∀ (s : State) (v : Word),
    (s.hostReady (.write 32 0x04 v) → v ≠ 0x00000001 →
      step s = .next { s.withData { s.data with pending := v } with busy := true })
    ∧ (s.hostReady (.write 32 0x0C v) → step s = .next (s.withData { s.data with arg0 := v }))
    ∧ (s.hostReady (.write 32 0x10 v) → step s = .next (s.withData { s.data with arg1 := v }))
    ∧ (s.hostReady (.read 32 0x04) → step s = .next (s.afterReadOf 0x04 0 s.data))
    ∧ (s.hostReady (.read 32 0x0C) → step s = .next (s.afterReadOf 0x0C s.data.arg0 s.data))
    ∧ (s.hostReady (.read 32 0x10) → step s = .next (s.afterReadOf 0x10 s.data.arg1 s.data))

/-- The read-only registers return the values R28, R31, R33, R35 and R39 to R41 give, with no effect, and a write to
any of them, or to an offset that holds no register, has none; those offsets read 0 (R55, R64). -/
def Obligations.ReadOnlyRegistersReadTheirValues : Prop :=
  ∀ (s : State) (off : BitVec 8),
    (s.hostReady (.read 32 off) → ∀ v : Word,
      ((off = 0x14 ∧ v = s.data.result0) ∨ (off = 0x18 ∧ v = s.data.result1)
        ∨ (off = 0x24 ∧ v = BitVec.ofNat 32 s.data.input.length)
        ∨ (off = 0x2C ∧ v = BitVec.ofNat 32 s.data.outq.length)
        ∨ (off = 0x34 ∧ v = BitVec.ofNat 32 s.data.locq.length)
        ∨ (off = 0x44 ∧ v.extractLsb' 0 4 = BitVec.ofNat 4 s.data.ba0.pc.val ∧ v.extractLsb' 4 4 = 0
            ∧ v.extractLsb' 8 8 = s.data.ba0.pv ∧ v.extractLsb' 16 4 = BitVec.ofNat 4 s.data.ba1.pc.val
            ∧ v.extractLsb' 20 4 = 0 ∧ v.extractLsb' 24 8 = s.data.ba1.pv)
        ∨ (off = 0x48 ∧ v = BitVec.ofNat 32 s.data.ba0.bytes.length)
        ∨ (off = 0x4C ∧ v = BitVec.ofNat 32 s.data.ba1.bytes.length)
        ∨ (off = 0x50 ∧ v = BitVec.ofNat 32 s.data.symq.length)
        ∨ (off = 0x54 ∧ v = BitVec.ofNat 32 s.data.clsq.length)
        ∨ (0x58 ≤ off.toNat ∧ off.toNat % 4 = 0 ∧ v = 0)) →
      step s = .next (s.afterReadOf off v s.data))
    ∧ ∀ v, s.hostReady (.write 32 off v) →
      (off ∈ [0x00, 0x08, 0x14, 0x18, 0x1C, 0x24, 0x2C, 0x34, 0x44, 0x48, 0x4C, 0x50, 0x54]
        ∨ (0x58 ≤ off.toNat ∧ off.toNat % 4 = 0)) →
      step s = .next s.inTurn

/-! ### System and table-access commands -/

/-- R250: NOP is the all-zero word and changes nothing but BUSY; a NOP word with a reserved bit set raises
ILLEGAL_COMMAND. -/
def Obligations.NopOnlyClearsBusy : Prop :=
  decode 0x00000000 = .ok .nop ∧ ∀ s : State,
    exec .nop s = .next { s with busy := false }
    ∧ (s.engineReady → s.data.pending.extractLsb' 0 8 = 0 → s.data.pending ≠ 0 →
        ∃ t, step s = .next t ∧ t.recorded .illegalCommand false s.data.pending)

/-- SOFT_RESET as the command it decodes to (the model's reading of R80, log 7): every piece of the block's state takes
its reset value, as R252 says of the word. -/
def Obligations.SoftResetCommandResets : Prop :=
  ∀ s : State, ∃ t, exec .softReset s = .next t ∧ t.isReset ∧ t.script = s.script ∧ t.reads = s.reads

/-- R254: TBL_READ puts the entry in RESULT0, a code's width in RESULT1 only for a CODE table, and raises
ILLEGAL_COMMAND for T = 3 or KD = 3 and then ILLEGAL_OPERAND for an index at or above N. -/
def Obligations.TblReadReturnsTheEntry : Prop :=
  ∀ (s : State) (t : TableSel) (idx : BitVec 16),
    (idx.toNat < t.size →
      exec (.tblRead t .freq idx) s = .next (s.completed { s.data with result0 := (s.data.freqOf t).get 0 idx.toNat })
      ∧ exec (.tblRead t .len idx) s
          = .next (s.completed { s.data with result0 := ((s.data.lenOf t).get 0 idx.toNat).zeroExtend 32 })
      ∧ exec (.tblRead t .code idx) s
          = .next (s.completed { s.data with
              result0 := ((s.data.codeOf t).get ⟨0, 0⟩ idx.toNat).code.zeroExtend 32
              result1 := ((s.data.codeOf t).get ⟨0, 0⟩ idx.toNat).width.zeroExtend 32 }))
    ∧ (∃ u, exec (.tblRead t .reserved idx) s = .next u ∧ u.recorded .illegalCommand false s.data.pending)
    ∧ (∀ kd, kd ≠ .reserved → t.size ≤ idx.toNat →
        ∃ u, exec (.tblRead t kd idx) s = .next u ∧ u.recorded .illegalOperand false s.data.pending)
    ∧ (s.engineReady → s.data.pending.extractLsb' 0 8 = 0x80 → s.data.pending.extractLsb' 8 2 = 3 →
        ∃ u, step s = .next u ∧ u.recorded .illegalCommand false s.data.pending)

/-- R256: TBL_WRITE replaces one entry of a weight or length table and nothing else, and raises ILLEGAL_COMMAND for
T = 3 or KD = 2 or 3, then ILLEGAL_OPERAND for an index at or above N or a length above the limit. -/
def Obligations.TblWriteReplacesTheEntry : Prop :=
  ∀ (s : State) (t : TableSel) (idx : BitVec 16),
    (idx.toNat < t.size →
      (∃ v, exec (.tblWrite t .freq idx) s = .next (s.completed (s.data.setFreq t v))
        ∧ v.get 0 idx.toNat = s.data.arg0 ∧ ∀ i, i ≠ idx.toNat → v.get 0 i = (s.data.freqOf t).get 0 i)
      ∧ (s.data.arg0.toNat ≤ t.lengthLimit →
        ∃ v, exec (.tblWrite t .len idx) s = .next (s.completed (s.data.setLen t v))
          ∧ (v.get 0 idx.toNat).toNat = s.data.arg0.toNat ∧ ∀ i, i ≠ idx.toNat → v.get 0 i = (s.data.lenOf t).get 0 i)
      ∧ (t.lengthLimit < s.data.arg0.toNat →
        ∃ u, exec (.tblWrite t .len idx) s = .next u ∧ u.recorded .illegalOperand false s.data.pending))
    ∧ (∀ kd, kd = .code ∨ kd = .reserved →
        ∃ u, exec (.tblWrite t kd idx) s = .next u ∧ u.recorded .illegalCommand false s.data.pending)
    ∧ (∀ kd, kd = .freq ∨ kd = .len → t.size ≤ idx.toNat →
        ∃ u, exec (.tblWrite t kd idx) s = .next u ∧ u.recorded .illegalOperand false s.data.pending)
    ∧ (s.engineReady → s.data.pending.extractLsb' 0 8 = 0x81 → s.data.pending.extractLsb' 8 2 = 3 →
        ∃ u, step s = .next u ∧ u.recorded .illegalCommand false s.data.pending)

/-! ### Bit Accumulator -/

/-- BA_APPEND adds bits 0 to n-1 of {ARG1, ARG0} to the accumulator's bit stream and nothing else (R110, R111), for
every n up to 64 for which no completed byte exceeds OUT_CAP. -/
def Obligations.BaAppendAddsTheLowBits : Prop :=
  ∀ (s : State) (a : AccSel) (n : BitVec 16), n.toNat ≤ 64 → (s.data.acc a).ok →
    (s.data.acc a).bitCount + n.toNat < 8 * (Config.outCap + 1) →
    ∃ x : Accum, exec (.baAppend a n) s = .next (s.completed (s.data.setAcc a x)) ∧ x.ok
      ∧ x.bits = (s.data.acc a).bits ++ (List.range n.toNat).map fun j => (s.data.arg1 ++ s.data.arg0).getLsbD j

/-- BA_APPEND raises ILLEGAL_OPERAND for n above 64, and OUT_OVERFLOW where a completed byte would exceed OUT_CAP
(R111, R119). -/
def Obligations.BaAppendFaults : Prop :=
  ∀ (s : State) (a : AccSel) (n : BitVec 16),
    (64 < n.toNat → ∃ t, exec (.baAppend a n) s = .next t ∧ t.recorded .illegalOperand false s.data.pending)
    ∧ (n.toNat ≤ 64 → (s.data.acc a).ok → 8 * (Config.outCap + 1) ≤ (s.data.acc a).bitCount + n.toNat →
        ∃ t, exec (.baAppend a n) s = .next t ∧ t.recorded .outOverflow false s.data.pending)

/-- BA_DRAIN moves the completed bytes to OUTQ in order, keeps the partial byte and its count, and reports how many
moved; with no room for them it raises OUT_OVERFLOW (R113). -/
def Obligations.BaDrainMovesCompletedBytes : Prop :=
  ∀ (s : State) (a : AccSel),
    (s.data.outq.length + (s.data.acc a).bytes.length ≤ Config.outCap →
      exec (.baDrain a) s = .next (s.completed
        { s.data.setAcc a ⟨[], (s.data.acc a).pv, (s.data.acc a).pc⟩ with
          outq := s.data.outq ++ (s.data.acc a).bytes
          result0 := BitVec.ofNat 32 (s.data.acc a).bytes.length }))
    ∧ (Config.outCap < s.data.outq.length + (s.data.acc a).bytes.length →
      ∃ t, exec (.baDrain a) s = .next t ∧ t.recorded .outOverflow false s.data.pending)

/-- BA_EXTEND leaves bits(BA0) as old bits(BA0) followed by old bits(BA1), and BA1 empty; where a completed byte
would exceed OUT_CAP it raises OUT_OVERFLOW (R115). -/
def Obligations.BaExtendJoinsTheStreams : Prop :=
  ∀ s : State, s.data.ba0.ok →
    (s.data.ba0.bitCount + s.data.ba1.bits.length < 8 * (Config.outCap + 1) →
      ∃ x : Accum, exec .baExtend s = .next (s.completed { s.data with ba0 := x, ba1 := ⟨[], 0, 0⟩ }) ∧ x.ok
        ∧ x.bits = s.data.ba0.bits ++ s.data.ba1.bits)
    ∧ (8 * (Config.outCap + 1) ≤ s.data.ba0.bitCount + s.data.ba1.bits.length →
      ∃ t, exec .baExtend s = .next t ∧ t.recorded .outOverflow false s.data.pending)

/-- BA_FLUSH completes the partial byte, its high bits zero, and reports 1; with no partial byte it changes only
RESULT0, to 0; with the queue full it raises OUT_OVERFLOW (R116). -/
def Obligations.BaFlushCompletesThePartialByte : Prop :=
  ∀ (s : State) (a : AccSel), (s.data.acc a).clean →
    ((s.data.acc a).pc.val = 0 → exec (.baFlush a) s = .next (s.completed { s.data with result0 := 0 }))
    ∧ (0 < (s.data.acc a).pc.val → (s.data.acc a).bytes.length ≠ Config.outCap →
      ∃ x : Accum, exec (.baFlush a) s = .next (s.completed { s.data.setAcc a x with result0 := 1 })
        ∧ x = ⟨(s.data.acc a).bytes ++ [(s.data.acc a).pv], 0, 0⟩
        ∧ x.bits = (s.data.acc a).bits ++ List.replicate (8 - (s.data.acc a).pc.val) false)
    ∧ (0 < (s.data.acc a).pc.val → (s.data.acc a).bytes.length = Config.outCap →
      ∃ t, exec (.baFlush a) s = .next t ∧ t.recorded .outOverflow false s.data.pending)

/-- BA_CLEAR, MF_RESET and IN_CLEAR empty their unit and change nothing else (R118, R133, R150). -/
def Obligations.ClearingCommandsEmptyTheirUnit : Prop :=
  ∀ s : State,
    (∀ a, exec (.baClear a) s = .next (s.completed (s.data.setAcc a ⟨[], 0, 0⟩)))
    ∧ exec .mfReset s = .next (s.completed { s.data with mf := [] })
    ∧ exec .inClear s = .next (s.completed { s.data with input := [] })

/-- R114: a drain that completes keeps the stream: the bytes in OUTQ followed by bits(A) are the same bits before and
after. -/
def Obligations.DrainPreservesTheStream : Prop :=
  ∀ (s t : State) (a : AccSel), exec (.baDrain a) s = .next t → s.fault = false → t.fault = false →
    streamBits t.data.outq ++ (t.data.acc a).bits = streamBits s.data.outq ++ (s.data.acc a).bits

/-- R112: appending the concatenation (b1 OR (b2 << n1), n1 + n2) of two ShortCodes is appending the first and then
the second, for a first body with no bit at or above its count. -/
def Obligations.ShortCodeConcatenation : Prop :=
  ∀ (a : Accum) (b1 b2 : BitVec 64) (n1 n2 : Nat), n1 + n2 ≤ 64 → b1.toNat < 2 ^ n1 →
    a.append (b1 ||| (b2 <<< n1)) (n1 + n2) = (a.append b1 n1).bind fun x => x.append b2 n2

/-! ### Match Finder -/

/-- MF_REGISTER appends (ARG0 AND (2^(8K) - 1), ARG1) and, above capacity, removes the oldest entry; MF_LOCATE puts
the positions of the entries with that key into LOCQ, newest first, and their count in RESULT0; neither changes
anything else (R130, R132, R134, R136). -/
def Obligations.MatchFinderRegistersAndLocates : Prop :=
  ∀ s : State,
    let key := s.data.arg0 &&& BitVec.ofNat 32 (2 ^ (8 * s.data.keySize.toNat) - 1)
    let found := (s.data.mf.reverse.filter fun e => e.key = key).map fun e => e.pos
    (s.data.mf.length < s.data.window.toNat →
      exec .mfRegister s = .next (s.completed { s.data with mf := s.data.mf ++ [⟨key, s.data.arg1⟩] }))
    ∧ (s.data.window.toNat ≤ s.data.mf.length →
      exec .mfRegister s = .next (s.completed { s.data with mf := (s.data.mf ++ [(⟨key, s.data.arg1⟩ : MfEntry)]).tail }))
    ∧ exec .mfLocate s
        = .next (s.completed { s.data with locq := found, result0 := BitVec.ofNat 32 found.length })

/-- R135: after any registrations into an empty window of capacity w, a lookup returns, newest first, the positions of
exactly those with its key among the last w. -/
def Obligations.WindowHoldsTheLastRegistrations : Prop :=
  ∀ (w : Nat) (es : List MfEntry) (key : Word), 1 ≤ w →
    mfLocate key (es.foldl (fun mf e => mfRegister w e mf) [])
      = (((es.drop (es.length - w)).filter fun e => e.key = key).map fun e => e.pos).reverse

/-- R100: with K = 2 or 3 the key is injective on K-byte strings: keys at two positions are equal exactly when their K
bytes are. -/
def Obligations.KeysAreEqualExactlyWhenTheirBytesAre : Prop :=
  ∀ (bytes : List Byte) (k p q : Nat), k = 2 ∨ k = 3 → p + k ≤ bytes.length → q + k ≤ bytes.length →
    (keyAt bytes k p = keyAt bytes k q ↔ (bytes.drop p).take k = (bytes.drop q).take k)

/-! ### Symbolizer -/

/-- SYM_RUN completes on every input that fits, and its symbols rebuild the input: expand(SYMQ) = IN. Nothing but
SYMQ, MF, FREQ_LL, FREQ_D and RESULT0 changes (R152, R154). -/
def Obligations.SymRunSymbolsRebuildTheInput : Prop :=
  ∀ s : State, s.data.legalConfig → s.data.input.length ≤ Config.inCap →
    ∃ t, exec .symRun s = .next t
      ∧ t = s.completed { s.data with
          symq := t.data.symq, mf := t.data.mf, freqLL := t.data.freqLL, freqD := t.data.freqD
          result0 := BitVec.ofNat 32 t.data.symq.length }
      ∧ expand t.data.symq = s.data.input

/-- Every symbol of SYM_RUN is in the format's range with its distance within the window; there are at most
|IN| + 1 of them, EndOfBlock the last and only there (R43, R151). MF is left with the last W of the entries of all
positions that have K bytes, in order (R152). -/
def Obligations.SymRunSymbolsAreInRange : Prop :=
  ∀ s : State, s.data.legalConfig → s.data.input.length ≤ Config.inCap →
    ∃ t xs, exec .symRun s = .next t ∧ t.data.symq = xs ++ [.endOfBlock] ∧ xs.length ≤ s.data.input.length
      ∧ (∀ x ∈ xs, x ≠ .endOfBlock ∧ x.inRange ∧ x.withinWindow s.data.window.toNat
        ∧ ∀ b, x = .literal b → b ∈ s.data.input)
      ∧ t.data.mf = windowBefore s.data s.data.input.length

/-- R153: after SYM_RUN, FREQ_LL and FREQ_D count the LL and D symbols of SYMQ, and FREQ_LL[256] = 1. -/
def Obligations.SymRunCountsTheSymbols : Prop :=
  ∀ s : State, s.data.legalConfig → s.data.input.length ≤ Config.inCap →
    ∃ t, exec .symRun s = .next t
      ∧ (∀ i, i < 286 → (t.data.freqLL.get 0 i).toNat = t.data.symq.countP fun x => llSymbol x = some i)
      ∧ (∀ i, i < 30 → (t.data.freqD.get 0 i).toNat = t.data.symq.countP fun x => dSymbol x = some i)
      ∧ t.data.freqLL.get 0 256 = 1

/-- R156, of SYM_RUN (R152): each symbol before EndOfBlock, at the position i that the symbols before it rebuild, is the
one chosen for the best match among the first LB candidates of the window SYM_RUN has there, and no candidate of the
best length is nearer. Of any window: passing over the candidates that are too far, the best has the greatest length
and, of equal lengths, is the first examined; with none, or below length 3, the symbol is a Literal. -/
def Obligations.MatchIsTheLongestNearest : Prop :=
  (∀ s : State, s.data.legalConfig → s.data.input.length ≤ Config.inCap →
    ∃ t, exec .symRun s = .next t ∧ ∀ before x after, t.data.symq = before ++ x :: after → x ≠ .endOfBlock →
      let k := s.data.keySize.toNat
      let lb := s.data.lookback.toNat
      let i := (expand before).length
      let window := windowBefore s.data i
      let best := bestMatch s.data.input k lb i window
      x = (chooseSymbol s.data.input i best).1
        ∧ ∀ e ∈ nearCandidates s.data.input k lb i window, candidateDistance k i e ≤ 32768 →
          candidateLength s.data.input k i e = best.1 → best.2 ≤ candidateDistance k i e)
  ∧ ∀ (bytes : List Byte) (k lb i : Nat) (mf : List MfEntry),
    let near := nearCandidates bytes k lb i mf
    let best := bestMatch bytes k lb i mf
    (∀ e ∈ near, candidateDistance k i e ≤ 32768 → candidateLength bytes k i e ≤ best.1)
    ∧ (best.1 ≠ 0 → ∃ before e after, near = before ++ e :: after ∧ candidateDistance k i e ≤ 32768
        ∧ best = (candidateLength bytes k i e, candidateDistance k i e)
        ∧ ∀ x ∈ before, candidateDistance k i x ≤ 32768 → candidateLength bytes k i x < best.1)
    ∧ chooseSymbol bytes i best
        = if 3 ≤ best.1 then (.reference best.1 best.2, best.1) else (.literal (bytes.getD i 0), 1)

/-- SYM_READ and CLS_READ put the word of the entry ARG0 in RESULT0, or 0xFFFFFFFF beyond the queue, and change nothing
else (R94, R95, R155, R205). -/
def Obligations.QueueReadsReturnTheWord : Prop :=
  ∀ s : State,
    (∀ b, s.data.symq[s.data.arg0.toNat]? = some (.literal b) →
      exec .symRead s = .next (s.completed { s.data with result0 := b.zeroExtend 32 }))
    ∧ (∀ l d, s.data.symq[s.data.arg0.toNat]? = some (.reference l d) →
      exec .symRead s = .next (s.completed { s.data with
        result0 := 0x40000000 ||| (BitVec.ofNat 32 l <<< 16) ||| BitVec.ofNat 32 d }))
    ∧ (s.data.symq[s.data.arg0.toNat]? = some .endOfBlock →
      exec .symRead s = .next (s.completed { s.data with result0 := 0x80000000 }))
    ∧ (s.data.symq.length ≤ s.data.arg0.toNat →
      exec .symRead s = .next (s.completed { s.data with result0 := 0xFFFFFFFF }))
    ∧ (∀ e, s.data.clsq[s.data.arg0.toNat]? = some e →
      ∃ r : Word, exec .clsRead s = .next (s.completed { s.data with result0 := r })
        ∧ (r.extractLsb' 0 5).toNat = e.sym.val ∧ r.extractLsb' 5 3 = 0 ∧ r.extractLsb' 8 8 = e.xv
        ∧ r.extractLsb' 16 4 = e.xw ∧ r.extractLsb' 20 12 = 0)
    ∧ (s.data.clsq.length ≤ s.data.arg0.toNat →
      exec .clsRead s = .next (s.completed { s.data with result0 := 0xFFFFFFFF }))

/-! ### Code lengths and codes -/

/-- HL_ASSIGN always completes; the lengths it writes are at most L, satisfy the Kraft equality, are nonzero for every
used symbol and 0 for every unused one when two or more are used; RESULT0 is the largest; nothing else changes
(R170, R178). -/
def Obligations.HlAssignGivesACompleteCode : Prop :=
  ∀ (s : State) (t : TableSel), ∃ (v : Table (BitVec 4) t.size) (r : Word),
    exec (.hlAssign t) s = .next (s.completed { s.data.setLen t v with result0 := r })
    ∧ (∀ l ∈ v.entries, l.toNat ≤ t.lengthLimit ∧ l.toNat ≤ r.toNat) ∧ (∃ l ∈ v.entries, l.toNat = r.toNat)
    ∧ kraft v.entries = 2 ^ 15
    ∧ (∀ i, i < t.size → (s.data.freqOf t).get 0 i ≠ 0 → v.get 0 i ≠ 0)
    ∧ (∀ i j, i < t.size → j < t.size → i ≠ j → (s.data.freqOf t).get 0 i ≠ 0 → (s.data.freqOf t).get 0 j ≠ 0 →
        ∀ m, m < t.size → (s.data.freqOf t).get 0 m = 0 → v.get 0 m = 0)

/-- With no used symbol, symbols 0 and 1 get length 1; with one used symbol s, s and s + 1 do, or s - 1 where s is the
last; every other length is 0 (R175, R176). -/
def Obligations.NoneOrOneUsedSymbolGetsTwoLeaves : Prop :=
  ∀ (s : State) (t : TableSel) (a b : Nat),
    (((∀ i, i < t.size → (s.data.freqOf t).get 0 i = 0) ∧ a = 0 ∧ b = 1)
      ∨ (a < t.size ∧ (s.data.freqOf t).get 0 a ≠ 0 ∧ (∀ i, i < t.size → i ≠ a → (s.data.freqOf t).get 0 i = 0)
          ∧ b = if a + 1 < t.size then a + 1 else a - 1)) →
    ∃ v : Table (BitVec 4) t.size,
      exec (.hlAssign t) s = .next (s.completed { s.data.setLen t v with result0 := 1 })
      ∧ ∀ i, i < t.size → v.get 0 i = if i = a ∨ i = b then 1 else 0

/-- R171 to R174: with two or more used symbols HL_ASSIGN gives each the depth at which the split of the used symbols,
by weight descending and then by symbol, leaves it alone. A group of 2 to 2*cap symbols splits into two that are not
empty and fit their capacity; the left one is the shortest, of the sizes the capacities allow, at which it can grow
no more or the test 2*lw + w_next < total fails. -/
def Obligations.SplitSizesFitTheirCapacity : Prop :=
  (∀ (r : Nat) (g : List Weighted), 2 ≤ g.length → g.length ≤ 2 * 2 ^ r →
    let k := leftSize (2 ^ r) g
    let least := max 1 (g.length - 2 ^ r)
    let most := min (2 ^ r) (g.length - 1)
    let balanced := fun j => totalWeight g ≤ 2 * totalWeight (g.take j) + (g.getD j ⟨0, 0⟩).weight
    least ≤ k ∧ k ≤ most ∧ (k = most ∨ balanced k) ∧ (∀ j, least ≤ j → j < k → ¬ balanced j)
    ∧ ∀ depth, splitGroup (r + 1) depth g
        = splitGroup r (depth + 1) (g.take k) ++ splitGroup r (depth + 1) (g.drop k))
  ∧ (∀ r depth x, splitGroup r depth [x] = [(x.sym, depth)])
  ∧ ∀ (s : State) (t : TableSel),
    let used := usedSorted ((s.data.freqOf t).entries.map BitVec.toNat)
    (used.Pairwise fun a b => b.weight < a.weight ∨ (a.weight = b.weight ∧ a.sym < b.sym))
    ∧ (∀ x, x ∈ used ↔ x.sym < t.size ∧ 0 < x.weight ∧ x.weight = ((s.data.freqOf t).get 0 x.sym).toNat)
    ∧ (2 ≤ used.length → ∃ (v : Table (BitVec 4) t.size) (m : Word),
        exec (.hlAssign t) s = .next (s.completed { s.data.setLen t v with result0 := m })
        ∧ ∀ i, i < t.size → (v.get 0 i).toNat = lengthIn (splitGroup t.lengthLimit 0 used) i)

/-- Where the lengths satisfy the Kraft inequality, CC_BUILD completes with codes of exactly those widths, each within
its width and (0, 0) where there is none, pairwise prefix-free; RESULT0 counts them; nothing else changes (R190,
R193, R194). -/
def Obligations.CcBuildGivesPrefixFreeCodes : Prop :=
  ∀ (s : State) (t : TableSel), kraft (s.data.lenOf t).entries ≤ 2 ^ 15 →
    ∃ v : Table CodeEntry t.size,
      exec (.ccBuild t) s = .next (s.completed { s.data.setCode t v with
        result0 := BitVec.ofNat 32 ((s.data.lenOf t).entries.countP fun l => l ≠ 0) })
      ∧ (∀ i, i < t.size → (v.get ⟨0, 0⟩ i).width = (s.data.lenOf t).get 0 i ∧ (v.get ⟨0, 0⟩ i).inRange)
      ∧ prefixFree v

/-- R191: the code CC_BUILD gives a symbol is, as a fraction of its width, the sum of 2^-len over the symbols before it
in the order of R191. So (R193) codes of one length are consecutive in symbol order, a shorter code is below the
first bits of a longer one, and with Kraft equality the last symbol has the all-ones code. -/
def Obligations.CcBuildCodesAreCanonical : Prop :=
  ∀ (s : State) (t : TableSel), kraft (s.data.lenOf t).entries ≤ 2 ^ 15 →
    ∃ v : Table CodeEntry t.size,
      exec (.ccBuild t) s = .next (s.completed { s.data.setCode t v with
        result0 := BitVec.ofNat 32 ((s.data.lenOf t).entries.countP fun l => l ≠ 0) })
      ∧ canonicalCodes (s.data.lenOf t) v
      ∧ ∀ j, j < t.size →
        let len := fun i => ((s.data.lenOf t).get 0 i).toNat
        let code := fun i => (v.get ⟨0, 0⟩ i).code.toNat
        0 < len j →
        (∀ i, i < j → len i = len j → (∀ m, i < m → m < j → len m ≠ len j) → code j = code i + 1)
        ∧ (∀ i, i < t.size → 0 < len i → len i < len j → code i < code j >>> (len j - len i))
        ∧ (kraft (s.data.lenOf t).entries = 2 ^ 15 →
            (∀ m, m < t.size → len m < len j ∨ (len m = len j ∧ m ≤ j)) → code j = 2 ^ len j - 1)

/-- R192: CC_BUILD raises OVERSUBSCRIBED where the Kraft sum exceeds 1. -/
def Obligations.CcBuildFaultsWhenOversubscribed : Prop :=
  ∀ (s : State) (t : TableSel), 2 ^ 15 < kraft (s.data.lenOf t).entries →
    ∃ u, exec (.ccBuild t) s = .next u ∧ u.recorded .oversubscribed false s.data.pending

/-! ### Code-length-table encoder -/

/-- CT_RLE replaces CLSQ by rle(LEN_LL) followed by rle(LEN_D), counts each meta-symbol into FREQ_CL, reports |CLSQ|,
and changes nothing else (R200, R203, R206); every entry has R95's form, and there are at most 316 (R47). -/
def Obligations.CtRleEncodesTheLengths : Prop :=
  ∀ s : State, ∃ v : Table Word Config.nCL,
    exec .ctRle s = .next (s.completed { s.data with
      clsq := rle s.data.lenLL.entries ++ rle s.data.lenD.entries, freqCL := v
      result0 := BitVec.ofNat 32 (rle s.data.lenLL.entries ++ rle s.data.lenD.entries).length })
    ∧ (∀ i, i < 19 → (v.get 0 i).toNat
        = (rle s.data.lenLL.entries ++ rle s.data.lenD.entries).countP fun e => e.sym.val = i)
    ∧ (rle s.data.lenLL.entries ++ rle s.data.lenD.entries).length ≤ 316
    ∧ ∀ e ∈ rle s.data.lenLL.entries ++ rle s.data.lenD.entries, e.inRange

/-- R204: unrle(rle(L)) = L for every sequence of lengths, and rle(L) never begins with meta-symbol 16. R202: the
entries of a run of r zeros and of a run of r + 1 equal nonzero lengths, whatever stands around the run; and no run
crosses from LEN_LL to LEN_D in CT_RLE. -/
def Obligations.RleReconstructsTheLengths : Prop :=
  (∀ lens : List (BitVec 4), unrle (rle lens) = lens ∧ ∀ e es, rle lens = e :: es → e.sym.val ≠ 16)
  ∧ (∀ r : Nat, rle (List.replicate r 0) = List.replicate (r / 138) ⟨18, 127, 7⟩
      ++ (if 11 ≤ r % 138 then [⟨18, BitVec.ofNat 8 (r % 138 - 11), 7⟩]
        else if 3 ≤ r % 138 then [⟨17, BitVec.ofNat 8 (r % 138 - 3), 3⟩]
        else List.replicate (r % 138) ⟨0, 0, 0⟩))
  ∧ (∀ (v : BitVec 4) (r : Nat), v ≠ 0 → rle (List.replicate (r + 1) v)
      = ⟨Fin.ofNat 19 v.toNat, 0, 0⟩ :: List.replicate (r / 6) ⟨16, 3, 2⟩
        ++ (if 3 ≤ r % 6 then [⟨16, BitVec.ofNat 8 (r % 6 - 3), 2⟩]
          else List.replicate (r % 6) ⟨Fin.ofNat 19 v.toNat, 0, 0⟩))
  ∧ (∀ (xs ys : List (BitVec 4)) (v : BitVec 4) (r : Nat), 1 ≤ r → xs.getLast? ≠ some v → ys.head? ≠ some v →
      rle (xs ++ List.replicate r v ++ ys) = rle xs ++ rle (List.replicate r v) ++ rle ys)
  ∧ ∀ s : State, ∃ t, exec .ctRle s = .next t ∧ t.data.clsq = rle s.data.lenLL.entries ++ rle s.data.lenD.entries

/-! ### Block Assembler -/

/-- R96 to R99: lcode and dcode give the row of their table that holds the value, with the value's offset in the row,
and raise LENGTH_RANGE and DISTANCE_RANGE outside the tables. -/
def Obligations.LengthAndDistanceCodesAreTheTables : Prop :=
  (∀ r ∈ lengthRows, ∀ l, r.first ≤ l → l ≤ r.last → lcode l = .ok ⟨r.symbol, r.extra, l - r.first⟩)
    ∧ (∀ r ∈ distanceRows, ∀ d, r.first ≤ d → d ≤ r.last → dcode d = .ok ⟨r.symbol, r.extra, d - r.first⟩)
    ∧ (∀ l, l < 3 ∨ 258 < l → lcode l = .error .lengthRange)
    ∧ (∀ d, d < 1 ∨ 32768 < d → dcode d = .error .distanceRange)

/-- BLK_HEADER adds exactly the header's bits to the accumulator and reports their number, 74 + the sum over CLSQ of
meta-code width and extra width, and changes nothing else, where every meta-code exists and the bytes fit; where
they do not fit it raises OUT_OVERFLOW (R223 to R225). -/
def Obligations.BlkHeaderAddsTheHeaderBits : Prop :=
  ∀ (s : State) (a : AccSel) (f : Bool), (s.data.acc a).ok →
    (∀ e ∈ s.data.clsq, (s.data.codeCL.get ⟨0, 0⟩ e.sym.val).width ≠ 0) →
    let size := 74 + (s.data.clsq.map fun e =>
      (s.data.codeCL.get ⟨0, 0⟩ e.sym.val).width.toNat + e.xw.toNat).sum
    ((s.data.acc a).bitCount + size < 8 * (Config.outCap + 1) →
      ∃ x : Accum, exec (.blkHeader a f) s
          = .next (s.completed { s.data.setAcc a x with result0 := BitVec.ofNat 32 size }) ∧ x.ok
        ∧ x.bits = (s.data.acc a).bits ++ blockHeader s.data f)
    ∧ (8 * (Config.outCap + 1) ≤ (s.data.acc a).bitCount + size →
      ∃ t, exec (.blkHeader a f) s = .next t ∧ t.recorded .outOverflow false s.data.pending)

/-- BLK_BODY adds exactly the bits of the symbols of SYMQ, in order, to the accumulator, reports their number and
changes nothing else, where the symbols are in range, their codes exist and the bytes fit; where they do not fit
it raises OUT_OVERFLOW (R221, R227, R228). -/
def Obligations.BlkBodyAddsTheSymbolBits : Prop :=
  ∀ (s : State) (a : AccSel), (s.data.acc a).ok → (∀ x ∈ s.data.symq, x.inRange ∧ hasCodes s.data x) →
    ((s.data.acc a).bitCount + (blockBody s.data).length < 8 * (Config.outCap + 1) →
      ∃ x : Accum, exec (.blkBody a) s = .next (s.completed
          { s.data.setAcc a x with result0 := BitVec.ofNat 32 (blockBody s.data).length }) ∧ x.ok
        ∧ x.bits = (s.data.acc a).bits ++ blockBody s.data)
    ∧ (8 * (Config.outCap + 1) ≤ (s.data.acc a).bitCount + (blockBody s.data).length →
      ∃ t, exec (.blkBody a) s = .next t ∧ t.recorded .outOverflow false s.data.pending)

/-- R229 and R275: BLK_HEADER and BLK_BODY raise NO_CODE at the first symbol they reach that has a code of width 0, where
the bits before that code fit; where those bits do not fit they raise OUT_OVERFLOW. What follows the symbol plays no
part. -/
def Obligations.MissingCodesRaiseNoCode : Prop :=
  ∀ (s : State) (a : AccSel), (s.data.acc a).ok →
    (∀ f before e after, s.data.clsq = before ++ e :: after →
      (∀ x ∈ before, (s.data.codeCL.get ⟨0, 0⟩ x.sym.val).width ≠ 0) →
      (s.data.codeCL.get ⟨0, 0⟩ e.sym.val).width = 0 →
      ∃ t, exec (.blkHeader a f) s = .next t ∧ t.recorded
        (if (s.data.acc a).bitCount + (blockHeader { s.data with clsq := before } f).length < 8 * (Config.outCap + 1)
          then .noCode else .outOverflow) false s.data.pending)
    ∧ (∀ before x after, s.data.symq = before ++ x :: after → (∀ y ∈ before, y.inRange ∧ hasCodes s.data y) →
      x.inRange → ¬ hasCodes s.data x →
      ∃ t, exec (.blkBody a) s = .next t ∧ t.recorded
        (if (s.data.acc a).bitCount + (blockBody { s.data with symq := before } ++ bitsBeforeMissing s.data x).length
            < 8 * (Config.outCap + 1)
          then .noCode else .outOverflow) false s.data.pending)

/-- An empty input is one block of only EndOfBlock: 111 bits, those of the 14 bytes of vector S1 with BFINAL = F,
added to the stream (R230, R235). -/
def Obligations.BlkEncodeOfEmptyInput : Prop :=
  ∀ (s : State) (f : Bool), s.data.input = [] → s.data.ba0.ok →
    s.data.outq.length + (s.data.ba0.bitCount + 111) / 8 ≤ Config.outCap →
    ∃ t, exec (.blkEncode f) s = .next t ∧ t.fault = s.fault ∧ t.busy = false
      ∧ t.data.result0 = 111 ∧ t.data.symq = [.endOfBlock] ∧ t.data.input = []
      ∧ streamBits t.data.outq ++ t.data.ba0.bits = streamBits s.data.outq ++ s.data.ba0.bits
        ++ f :: ((streamBits [0xED, 0xFD, 0x81, 0x00, 0x00, 0x00, 0x00, 0x00, 0x10, 0xFC, 0x5F, 0x33, 0xC2, 0x08]).take
          111).tail

/-- BLK_ENCODE completes on every input that fits, with legal parameters and room in OUTQ, and puts exactly one block
on the stream: the header and body bits of the tables it leaves, at most 16n + 4513 of them, after what OUTQ and
BA0 held. SYMQ rebuilds the input; IN, BA1 and BA0's completed bytes are empty after it; RESULT0 and RESULT1 count
the block's bits and the bytes moved (R230, R231, R236). -/
def Obligations.BlkEncodePutsOneBlockOnTheStream : Prop :=
  ∀ (s : State) (f : Bool), s.data.legalConfig → s.data.input.length ≤ Config.inCap → s.data.ba0.ok →
    s.data.ba0.bytes.length + s.data.outq.length + 2 * s.data.input.length + 566 ≤ Config.outCap →
    ∃ t, exec (.blkEncode f) s = .next t ∧ t = s.completed t.data
      ∧ expand t.data.symq = s.data.input
      ∧ streamBits t.data.outq ++ t.data.ba0.bits = streamBits s.data.outq ++ s.data.ba0.bits
          ++ blockHeader t.data f ++ blockBody t.data
      ∧ (blockHeader t.data f ++ blockBody t.data).length ≤ 16 * s.data.input.length + 4513
      ∧ t.data.result0 = BitVec.ofNat 32 (blockHeader t.data f ++ blockBody t.data).length
      ∧ t.data.result1 = BitVec.ofNat 32 (t.data.outq.length - s.data.outq.length)
      ∧ s.data.outq <+: t.data.outq ∧ t.data.ba0.bytes = [] ∧ t.data.ba1 = ⟨[], 0, 0⟩
      ∧ t.data.input = [] ∧ t.data.locq = s.data.locq

/-- After BLK_ENCODE the tables describe one another (R226): CLSQ stands for the LL and then the D lengths, the codes of
each alphabet are the canonical ones of its lengths (R191), and they are prefix-free with the Kraft equality. -/
def Obligations.BlkEncodeTablesAgree : Prop :=
  ∀ (s : State) (f : Bool), s.data.legalConfig → s.data.input.length ≤ Config.inCap → s.data.ba0.ok →
    s.data.ba0.bytes.length + s.data.outq.length + 2 * s.data.input.length + 566 ≤ Config.outCap →
    ∃ t, exec (.blkEncode f) s = .next t
      ∧ unrle t.data.clsq = t.data.lenLL.entries ++ t.data.lenD.entries
      ∧ ∀ a : TableSel, kraft (t.data.lenOf a).entries = 2 ^ 15 ∧ prefixFree (t.data.codeOf a)
        ∧ canonicalCodes (t.data.lenOf a) (t.data.codeOf a)
        ∧ ∀ i, i < a.size → ((t.data.codeOf a).get ⟨0, 0⟩ i).width = (t.data.lenOf a).get 0 i

/-- With prefix-free codes the bits of a block's body determine its symbols: two sequences of coded symbols, each ended
by EndOfBlock, whose bits agree up to what follows them are the same, and so is what follows (R193, R221, R237). -/
def Obligations.BlockBodiesDecodeUniquely : Prop :=
  ∀ (d : Data) (xs ys : List Symbol) (r r' : List Bool), prefixFree d.codeLL → prefixFree d.codeD →
    (∀ x ∈ xs, x ≠ .endOfBlock ∧ x.inRange ∧ hasCodes d x) → (∀ y ∈ ys, y ≠ .endOfBlock ∧ y.inRange ∧ hasCodes d y) →
    hasCodes d .endOfBlock →
    xs.flatMap (symbolBits d) ++ symbolBits d .endOfBlock ++ r
      = ys.flatMap (symbolBits d) ++ symbolBits d .endOfBlock ++ r' →
    xs = ys ∧ r = r'

/-- The block BLK_ENCODE makes depends only on IN, W, K, LB and F: nothing of an earlier block, of a stale table or queue
or of BA1 reaches it (R158, R238). -/
def Obligations.BlkEncodeDependsOnlyOnItsInput : Prop :=
  ∀ (s s' t t' : State) (f : Bool), s.data.input = s'.data.input → s.data.window = s'.data.window →
    s.data.keySize = s'.data.keySize → s.data.lookback = s'.data.lookback →
    s.fault = false → s'.fault = false → exec (.blkEncode f) s = .next t → exec (.blkEncode f) s' = .next t' →
    t.fault = false → t'.fault = false →
    t.data.symq = t'.data.symq ∧ t.data.result0 = t'.data.result0
      ∧ blockHeader t.data f ++ blockBody t.data = blockHeader t'.data f ++ blockBody t'.data

/-! ### Rules over all commands and all steps -/

/-- R27, R28 and R84: no command that completes changes ARG0, ARG1 or the configuration; RESULT1 changes only in
BLK_ENCODE and in TBL_READ of a CODE table; RESULT0 stays in the commands that name no result; the fault record, the
turns to come and the host's record stay. -/
def Obligations.CommandsKeepOperandsAndConfiguration : Prop :=
  ∀ (i : Instr) (s t : State), i ≠ .softReset → s.fault = false → exec i s = .next t → t.fault = false →
    t = s.completed t.data
    ∧ t.data.arg0 = s.data.arg0 ∧ t.data.arg1 = s.data.arg1 ∧ t.data.window = s.data.window
    ∧ t.data.keySize = s.data.keySize ∧ t.data.lookback = s.data.lookback
    ∧ ((∀ f, i ≠ .blkEncode f) → (∀ tb idx, i ≠ .tblRead tb .code idx) → t.data.result1 = s.data.result1)
    ∧ ((i = .nop ∨ (∃ a n, i = .baAppend a n) ∨ i = .baExtend ∨ (∃ a, i = .baClear a) ∨ i = .mfReset
        ∨ i = .mfRegister ∨ i = .inClear ∨ ∃ tb kd idx, i = .tblWrite tb kd idx) →
        t.data.result0 = s.data.result0)

/-- The invariant of the machine: every step from a state that meets it gives a state that meets it. The capacities,
ranges and bounds of R42 to R50, R207 and R271 hold of every state a run reaches. That the data are one free value
after a fault is the model's form of R58 (logs 4 and 5). -/
def Obligations.StepKeepsTheStateOk : Prop := ∀ s t : State, s.ok → step s = .next t → t.ok
end

