-- ==== Sys2Proof/Laws/Accum.lean ====
section
/-! SUPPORT. Everything `append` can do (R110): on an accumulator within R49's bounds it either adds exactly the
given bits to the accumulator's bit stream, or raises OUT_OVERFLOW because a completed byte would exceed
OUT_CAP (R119). The commands that append are proved from these lemmas alone. -/

namespace Sys2Proof.Machine

@[simp] theorem length_byteBits (b : Byte) : (byteBits b).length = 8 := by simp [byteBits]

@[simp] theorem length_bodyBits (body : BitVec 64) (n : Nat) : (bodyBits body n).length = n := by simp [bodyBits]

@[simp] theorem bits_empty : Accum.empty.bits = [] := rfl

theorem ok_empty : Accum.empty.ok := ⟨Nat.zero_le _, by simp [Accum.clean, Accum.empty]⟩

/-- |bits(A)| is the length of bits(A). -/
theorem length_bits (a : Accum) : a.bits.length = a.bitCount := by
  have h := a.pc.isLt
  have hs : ∀ l : List Byte, (l.flatMap byteBits).length = 8 * l.length := by
    intro l
    induction l with
    | nil => rfl
    | cons b bs ih => simp only [List.flatMap_cons, List.length_append, length_byteBits, ih, List.length_cons]; omega
  simp only [Accum.bits, List.length_append, hs, List.length_take, length_byteBits, Accum.bitCount]
  omega

/-- The partial value after one more bit, as a number. -/
theorem partial_toNat (pv : Byte) (pc : Fin 8) (bit : Bool) (h : pv.toNat < 2 ^ pc.val) :
    (pv ||| ((BitVec.ofBool bit).zeroExtend 8 <<< pc.val)).toNat = pv.toNat + bit.toNat * 2 ^ pc.val := by
  have hp := pc.isLt
  have hb : bit.toNat * 2 ^ pc.val < 2 ^ 8 := by
    have : (2 : Nat) ^ pc.val ≤ 2 ^ 7 := Nat.pow_le_pow_right (by decide) (by omega)
    cases bit
    · simp
    · simp; omega
  rw [BitVec.toNat_or, BitVec.toNat_shiftLeft]
  have e : ((BitVec.ofBool bit).zeroExtend 8).toNat = bit.toNat := by cases bit <;> rfl
  rw [e, Nat.shiftLeft_eq, Nat.mod_eq_of_lt hb, Nat.or_comm, Nat.mul_comm]
  rw [← Nat.two_pow_add_eq_or_of_lt h]
  omega

/-- The partial bits after one more bit: the old ones, then the new one. -/
theorem partial_bits (pv : Byte) (pc : Fin 8) (bit : Bool) (h : pv.toNat < 2 ^ pc.val) :
    (byteBits (pv ||| ((BitVec.ofBool bit).zeroExtend 8 <<< pc.val))).take (pc.val + 1)
      = (byteBits pv).take pc.val ++ [bit] := by
  have hp := pc.isLt
  apply List.ext_getElem
  · simp [byteBits]
  · intro i h1 h2
    have hi : i < pc.val + 1 := by simp at h1; omega
    simp only [byteBits, List.getElem_take, List.getElem_map, List.getElem_range]
    rw [BitVec.getLsbD_or, BitVec.getLsbD_shiftLeft]
    by_cases hlt : i < pc.val
    · rw [List.getElem_append_left (by simp; omega)]
      simp [hlt]
    · have hie : i = pc.val := by omega
      subst hie
      rw [List.getElem_append_right (by simp)]
      have hz : pv.getLsbD pc.val = false := by
        rw [BitVec.getLsbD]; exact Nat.testBit_lt_two_pow h
      cases bit <;> simp_all

/-- Everything one appended bit can do. -/
theorem appendBit_cases (a : Accum) (bit : Bool) (hc : a.clean) :
    (∃ a', a.appendBit bit = .ok a' ∧ a'.clean ∧ a'.bits = a.bits ++ [bit]
        ∧ (a'.bytes = a.bytes ∨ a.bytes.length ≠ Config.outCap ∧ a'.bytes.length = a.bytes.length + 1))
      ∨ (a.appendBit bit = .error .outOverflow ∧ a.pc.val = 7 ∧ a.bytes.length = Config.outCap) := by
  have hp := a.pc.isLt
  unfold Accum.appendBit
  split
  · rename_i h
    refine .inl ⟨_, rfl, ?_, ?_, .inl rfl⟩
    · show _ < 2 ^ (a.pc.val + 1)
      rw [partial_toNat _ _ _ hc]
      have := hc
      unfold Accum.clean at this
      cases bit <;> simp [Nat.pow_succ] <;> omega
    · simp only [Accum.bits, partial_bits _ _ _ hc, List.append_assoc]
  · have h7 : a.pc.val = 7 := by omega
    split
    · rename_i h; exact .inr ⟨rfl, h7, h⟩
    · rename_i h
      refine .inl ⟨_, rfl, by simp [Accum.clean], ?_, .inr ⟨h, by simp⟩⟩
      have hb := partial_bits a.pv a.pc bit hc
      rw [h7, List.take_of_length_le (by simp)] at hb
      simp only [Accum.bits, h7, List.flatMap_append, List.flatMap_cons, List.flatMap_nil, List.append_nil]
      simp [hb]

/-- Everything a sequence of appended bits can do (R110): the bits are added in order, or a completed byte would
exceed OUT_CAP and OUT_OVERFLOW is raised. -/
theorem appendBits_cases (bs : List Bool) (a : Accum) (ha : a.ok) :
    (∃ a', a.appendBits bs = .ok a' ∧ a'.ok ∧ a'.bits = a.bits ++ bs)
      ∨ (a.appendBits bs = .error .outOverflow ∧ 8 * Config.outCap + 8 ≤ a.bitCount + bs.length) := by
  induction bs generalizing a with
  | nil => exact .inl ⟨a, rfl, ha, by simp⟩
  | cons b bs ih =>
    rcases appendBit_cases a b ha.2 with ⟨a', h, hc, hb, hl⟩ | ⟨h, hp, hl⟩
    · have ha' : a'.ok := ⟨by have := ha.1; rcases hl with hl | ⟨hl, hl'⟩ <;> [rw [hl]; skip] <;> omega, hc⟩
      have hcount : a'.bitCount = a.bitCount + 1 := by rw [← length_bits, hb, ← length_bits]; simp
      rcases ih a' ha' with ⟨x, hx, hxo, hxb⟩ | ⟨hx, hn⟩
      · exact .inl ⟨x, by simp [Accum.appendBits, h, Except.bind, hx], hxo, by rw [hxb, hb]; simp⟩
      · exact .inr ⟨by simp [Accum.appendBits, h, Except.bind, hx], by rw [hcount] at hn; simp; omega⟩
    · refine .inr ⟨by simp [Accum.appendBits, h, Except.bind], ?_⟩
      simp only [Accum.bitCount, hp, hl, List.length_cons]; omega

/-- Where every completed byte fits, the append completes and adds exactly the bits (R110, R119). -/
theorem appendBits_of_room (bs : List Bool) (a : Accum) (ha : a.ok)
    (h : a.bitCount + bs.length < 8 * Config.outCap + 8) :
    ∃ a', a.appendBits bs = .ok a' ∧ a'.ok ∧ a'.bits = a.bits ++ bs := by
  rcases appendBits_cases bs a ha with h' | ⟨_, h'⟩
  · exact h'
  · omega

/-- Appending two sequences is appending the first and then the second (R112). -/
theorem appendBits_append (bs cs : List Bool) (a : Accum) :
    a.appendBits (bs ++ cs) = (a.appendBits bs).bind fun x => x.appendBits cs := by
  induction bs generalizing a with
  | nil => rfl
  | cons b bs ih =>
    simp only [List.cons_append, Accum.appendBits]
    cases a.appendBit b with
    | error k => rfl
    | ok x => exact ih x

/-- A numeric field appends its low bits, bit 0 first. -/
theorem appendNum_eq (a : Accum) (v n : Nat) (h : n ≤ 64) : a.appendNum v n = a.appendBits (numBits v n) := by
  unfold Accum.appendNum Accum.append bodyBits numBits
  congr 1
  apply List.map_congr_left
  intro j hj
  have : j < 64 := by have := List.mem_range.mp hj; omega
  rw [BitVec.getLsbD_ofNat]; simp [this]

/-- `rev(c, w)` has bit (w-1-j) of c as its bit j, below w, and no bit above (R9). -/
theorem testBit_rev (c w j : Nat) : (rev c w).testBit j = (decide (j < w) && c.testBit (w - 1 - j)) := by
  unfold rev
  generalize hf : (fun j => c.testBit (w - 1 - j)) = f
  have key : ∀ m, ∀ i, (((List.range m).foldl (fun acc j => if f j then acc + 2 ^ j else acc) 0) < 2 ^ m)
      ∧ ((List.range m).foldl (fun acc j => if f j then acc + 2 ^ j else acc) 0).testBit i
        = (decide (i < m) && f i) := by
    intro m
    induction m with
    | zero => intro i; simp
    | succ m ih =>
      intro i
      have hlt := (ih i).1
      have hbit := (ih i).2
      rw [List.range_succ, List.foldl_append]
      simp only [List.foldl_cons, List.foldl_nil]
      cases hfm : f m
      · simp only [Bool.false_eq_true, if_false]
        refine ⟨by rw [Nat.pow_succ]; omega, ?_⟩
        rw [hbit]
        by_cases hi : i = m
        · subst hi; simp [hfm]
        · by_cases h' : i < m
          · simp [h', Nat.lt_succ_of_lt h']
          · have : ¬ i < m + 1 := by omega
            simp [h', this]
      · simp only [if_true]
        refine ⟨by rw [Nat.pow_succ]; omega, ?_⟩
        rw [Nat.add_comm]
        by_cases hi : i = m
        · subst hi
          rw [Nat.testBit_two_pow_add_eq, hbit]; simp [hfm]
        · by_cases h' : i < m
          · rw [Nat.testBit_two_pow_add_gt h', hbit]; simp [h', Nat.lt_succ_of_lt h']
          · have h2 : ¬ i < m + 1 := by omega
            simp only [h2, decide_false, Bool.false_and]
            apply Nat.testBit_lt_two_pow
            have h1 : (2 : Nat) ^ m + 2 ^ m = 2 ^ (m + 1) := by rw [Nat.pow_succ]; omega
            have h3 : (2 : Nat) ^ (m + 1) ≤ 2 ^ i := Nat.pow_le_pow_right (by decide) (by omega)
            omega
  have := (key w j).2
  subst hf
  exact this

/-- A code of nonzero width appends its bits, most significant first; a code of width 0 raises NO_CODE (R220). -/
theorem appendCode_eq (a : Accum) (c : CodeEntry) :
    a.appendCode c = if c.width = 0 then .error .noCode else a.appendBits (codeBits c) := by
  unfold Accum.appendCode
  split
  · rfl
  · have hw : c.width.toNat < 16 := c.width.isLt
    rw [appendNum_eq _ _ _ (by omega)]
    congr 1
    unfold numBits codeBits
    apply List.map_congr_left
    intro j hj
    rw [testBit_rev]
    simp [List.mem_range.mp hj]

/-- A code of nonzero width appends its bits. -/
theorem appendCode_of_ne (a : Accum) {c : CodeEntry} (h : c.width ≠ 0) : a.appendCode c = a.appendBits (codeBits c) := by
  rw [appendCode_eq, if_neg h]

@[simp] theorem length_numBits (v n : Nat) : (numBits v n).length = n := by simp [numBits]

@[simp] theorem length_codeBits (c : CodeEntry) : (codeBits c).length = c.width.toNat := by simp [codeBits]

end Sys2Proof.Machine
end

