-- ==== Sys2Proof/Laws/Tables.lean ====
section
/-! SUPPORT. Reading and writing one entry of a table (R44 to R46): everything `Table.get`, `Table.set`,
`Table.build` and `Table.bump` can do. -/

namespace Sys2Proof.Machine

variable {α : Type} {n : Nat}

theorem Table.ext_entries {t u : Table α n} (h : t.entries = u.entries) : t = u := by
  cases t; cases u; cases h; rfl

@[simp] theorem Table.length_entries (t : Table α n) : t.entries.length = n := t.size

@[simp] theorem Table.entries_set (t : Table α n) (i : Nat) (x : α) : (t.set i x).entries = t.entries.set i x := rfl

@[simp] theorem Table.entries_build (f : Nat → α) : (Table.build n f).entries = (List.range n).map f := rfl

/-- Writing an entry and reading it back gives the value written. -/
theorem Table.get_set_self (t : Table α n) (dflt x : α) {i : Nat} (h : i < n) : (t.set i x).get dflt i = x := by
  simp [Table.get, List.getD_eq_getElem?_getD, h]

/-- Writing an entry leaves every other entry alone. -/
theorem Table.get_set_other (t : Table α n) (dflt x : α) {i j : Nat} (h : i ≠ j) :
    (t.set i x).get dflt j = t.get dflt j := by
  simp [Table.get, List.getD_eq_getElem?_getD, h]

theorem Table.get_fill (dflt x : α) {i : Nat} (h : i < n) : (Table.fill x : Table α n).get dflt i = x := by
  simp [Table.get, Table.fill, List.getD_eq_getElem?_getD, h]

theorem Table.get_build (dflt : α) (f : Nat → α) {i : Nat} (h : i < n) : (Table.build n f).get dflt i = f i := by
  simp [Table.get, List.getD_eq_getElem?_getD, h]

/-- An entry within the table is one of its entries. -/
theorem Table.get_mem (t : Table α n) (dflt : α) {i : Nat} (h : i < n) : t.get dflt i ∈ t.entries := by
  have hi : i < t.entries.length := by simpa using h
  simp only [Table.get, List.getD_eq_getElem?_getD, List.getElem?_eq_getElem hi, Option.getD_some]
  exact List.getElem_mem hi

theorem Table.get_bump_self (t : Table Word n) {i : Nat} (h : i < n) : (t.bump i).get 0 i = t.get 0 i + 1 :=
  t.get_set_self 0 _ h

theorem Table.get_bump_other (t : Table Word n) {i j : Nat} (h : i ≠ j) : (t.bump i).get 0 j = t.get 0 j :=
  t.get_set_other 0 _ h

end Sys2Proof.Machine
end

