-- ==== Sys2Proof/Laws/Blocks.lean ====
section
/-! SUPPORT. Everything the block assembler's primitives can do (R220 to R224): on symbols in range whose codes
exist, appending a symbol, a meta entry, the body or the header is appending its bits. -/

namespace Sys2Proof.Machine

/-- The facts of R98 a proof needs: a length in range has a code symbol 257 to 285 and at most 5 extra bits. -/
theorem lcode_ok {l : Nat} (h3 : 3 ≤ l) (h258 : l ≤ 258) :
    ∃ e, lcode l = .ok e ∧ 257 ≤ e.symbol ∧ e.symbol ≤ 285 ∧ e.xw ≤ 5 ∧ e.xv < 2 ^ e.xw := by
  have key : ∀ l, l < 259 → 3 ≤ l → (match lcode l with
      | .ok e => decide (257 ≤ e.symbol ∧ e.symbol ≤ 285 ∧ e.xw ≤ 5 ∧ e.xv < 2 ^ e.xw)
      | .error _ => false) = true := by decide +kernel
  have := key l (by omega) h3
  cases he : lcode l with
  | error k => simp [he] at this
  | ok e => exact ⟨e, rfl, by simpa [he] using this⟩

/-- The facts of R99 a proof needs: a distance in range has a code symbol 0 to 29 and at most 13 extra bits. -/
theorem dcode_ok {d : Nat} (h1 : 1 ≤ d) (hd : d ≤ 32768) :
    ∃ e, dcode d = .ok e ∧ e.symbol ≤ 29 ∧ e.xw ≤ 13 ∧ e.xv < 2 ^ e.xw := by
  unfold dcode
  rw [if_neg (by simp only [Config.maxDist]; omega)]
  split
  · exact ⟨_, rfl, by simp; omega, by simp, by simp⟩
  · rename_i h4
    have hv : d - 1 ≠ 0 := by omega
    have hlog : Nat.log2 (d - 1) < 15 := (Nat.log2_lt hv).mpr (by omega)
    refine ⟨_, rfl, ?_, ?_, Nat.mod_lt _ (Nat.two_pow_pos _)⟩
    · simp only [bitLength, if_neg hv]
      have := Nat.mod_lt ((d - 1) >>> (Nat.log2 (d - 1) + 1 - 2)) (show 0 < 2 by decide)
      omega
    · simp only [bitLength, if_neg hv]; omega

/-- Appending a symbol in range whose codes exist is appending its bits (R221). -/
theorem appendSymbol_eq {d : Data} {x : Symbol} (a : Accum) (hr : x.inRange) (hc : hasCodes d x) :
    appendSymbol d a x = a.appendBits (symbolBits d x) := by
  cases x with
  | literal b =>
    simp only [hasCodes] at hc
    simp only [appendSymbol, symbolBits, appendCode_eq, if_neg hc]
  | endOfBlock =>
    simp only [hasCodes] at hc
    simp only [appendSymbol, symbolBits, appendCode_eq, if_neg hc]
  | reference l dist =>
    obtain ⟨h1, h2, h3, h4⟩ := hr
    obtain ⟨le, hle, -, -, hlw, -⟩ := lcode_ok h1 h2
    obtain ⟨de, hde, -, hdw, -⟩ := dcode_ok h3 h4
    obtain ⟨hcl, hcd⟩ := hc
    simp only [hle, hde, codeFor] at hcl hcd
    simp only [appendSymbol, symbolBits, hle, hde, codeFor, extraBits, appendBits_append, bind]
    simp only [Except.bind, appendCode_of_ne _ hcl, appendCode_of_ne _ hcd, appendNum_eq _ _ _ (show le.xw ≤ 64 by omega),
      appendNum_eq _ _ _ (show de.xw ≤ 64 by omega)]
    cases a.appendBits (codeBits (d.codeLL.get ⟨0, 0⟩ le.symbol)) with
    | error k => rfl
    | ok a1 =>
      simp only
      cases a1.appendBits (numBits le.xv le.xw) with
      | error k => rfl
      | ok a2 =>
        rfl

/-- Appending symbols in range whose codes exist is appending their bits in order (R227). -/
theorem appendSymbols_eq {d : Data} (xs : List Symbol) (a : Accum) (hr : ∀ x ∈ xs, x.inRange)
    (hc : ∀ x ∈ xs, hasCodes d x) : appendSymbols d xs a = a.appendBits (xs.flatMap (symbolBits d)) := by
  induction xs generalizing a with
  | nil => rfl
  | cons x xs ih =>
    simp only [appendSymbols, List.flatMap_cons, appendBits_append,
      appendSymbol_eq a (hr x (by simp)) (hc x (by simp))]
    cases a.appendBits (symbolBits d x) with
    | error k => rfl
    | ok a1 => exact ih a1 (fun y hy => hr y (by simp [hy])) (fun y hy => hc y (by simp [hy]))

/-- Appending a CLSQ entry whose meta-code exists is appending its bits (R222). -/
theorem appendMeta_eq {d : Data} {e : ClsEntry} (a : Accum) (hc : (d.codeCL.get ⟨0, 0⟩ e.sym.val).width ≠ 0) :
    appendMeta d a e = a.appendBits (metaBits d e) := by
  have hw := e.xw.isLt
  simp only [appendMeta, metaBits, appendCode_eq, if_neg hc, appendBits_append]
  cases a.appendBits (codeBits (d.codeCL.get ⟨0, 0⟩ e.sym.val)) with
  | error k => rfl
  | ok a1 => exact appendNum_eq a1 _ _ (by omega)

/-- Appending CLSQ entries whose meta-codes exist is appending their bits in order (R224). -/
theorem appendMetas_eq {d : Data} (es : List ClsEntry) (a : Accum)
    (hc : ∀ e ∈ es, (d.codeCL.get ⟨0, 0⟩ e.sym.val).width ≠ 0) :
    appendMetas d es a = a.appendBits (es.flatMap (metaBits d)) := by
  induction es generalizing a with
  | nil => rfl
  | cons e es ih =>
    simp only [appendMetas, List.flatMap_cons, appendBits_append, appendMeta_eq a (hc e (by simp))]
    cases a.appendBits (metaBits d e) with
    | error k => rfl
    | ok a1 => exact ih a1 fun y hy => hc y (by simp [hy])

/-- The CL lengths are appended as 3-bit numbers in the given order (R92). -/
theorem appendClLengths_eq (d : Data) (ss : List Nat) (a : Accum) :
    appendClLengths d ss a = a.appendBits (ss.flatMap fun s => numBits (d.lenCL.get 0 s).toNat 3) := by
  induction ss generalizing a with
  | nil => rfl
  | cons s ss ih =>
    simp only [appendClLengths, List.flatMap_cons, appendBits_append, appendNum_eq a _ 3 (by decide)]
    cases a.appendBits (numBits (d.lenCL.get 0 s).toNat 3) with
    | error k => rfl
    | ok a1 => exact ih a1

/-- Where every meta-code exists, appending the header is appending its bits (R223, R224). -/
theorem appendHeader_eq {d : Data} (f : Bool) (a : Accum)
    (hc : ∀ e ∈ d.clsq, (d.codeCL.get ⟨0, 0⟩ e.sym.val).width ≠ 0) :
    appendHeader d f a = a.appendBits (blockHeader d f) := by
  have hfixed : fixedHeader f
      = numBits f.toNat 1 ++ numBits 2 2 ++ numBits 29 5 ++ numBits 29 5 ++ numBits 15 4 := by
    cases f <;> decide
  have hb : blockHeader d f = fixedHeader f
      ++ clOrder.flatMap (fun s => numBits (d.lenCL.get 0 s).toNat 3) ++ d.clsq.flatMap (metaBits d) := rfl
  rw [hb, hfixed]
  simp only [appendHeader, appendNum_eq _ _ _ (show (1 : Nat) ≤ 64 by decide),
    appendNum_eq _ _ _ (show (2 : Nat) ≤ 64 by decide), appendNum_eq _ _ _ (show (5 : Nat) ≤ 64 by decide),
    appendNum_eq _ _ _ (show (4 : Nat) ≤ 64 by decide), appendClLengths_eq, appendMetas_eq _ _ hc,
    appendBits_append, bind]
  cases a.appendBits (numBits f.toNat 1) with
  | error k => rfl
  | ok a1 =>
    simp only [Except.bind]
    cases a1.appendBits (numBits 2 2) with
    | error k => rfl
    | ok a2 =>
      simp only
      cases a2.appendBits (numBits 29 5) with
      | error k => rfl
      | ok a3 =>
        simp only
        cases a3.appendBits (numBits 29 5) with
        | error k => rfl
        | ok a4 =>
          simp only
          cases a4.appendBits (numBits 15 4) <;> rfl

end Sys2Proof.Machine
end

