-- ==== Sys2Proof/Laws/Decode.lean ====
section
/-! SUPPORT. The fields of a word put together from its three parts, IMM, the select byte and the opcode (R81):
each field of R81 reads back the part, and a reserved mask tests the select byte and IMM. -/

namespace Sys2Proof

/-- A 32-bit word from its parts, most significant first. -/
theorem toNat_parts (imm : BitVec 16) (sel op : BitVec 8) :
    (imm ++ sel ++ op : Word).toNat = imm.toNat * 65536 + sel.toNat * 256 + op.toNat := by
  have h1 := sel.isLt
  have h2 := op.isLt
  rw [BitVec.toNat_append, BitVec.toNat_append, ← Nat.shiftLeft_add_eq_or_of_lt h1,
    ← Nat.shiftLeft_add_eq_or_of_lt h2, Nat.shiftLeft_eq, Nat.shiftLeft_eq]
  omega

theorem opField_parts (imm : BitVec 16) (sel op : BitVec 8) : opField (imm ++ sel ++ op) = op := by
  apply BitVec.eq_of_toNat_eq
  have h1 := sel.isLt
  have h2 := op.isLt
  simp only [opField, BitVec.extractLsb'_toNat, toNat_parts, Nat.shiftRight_zero]
  omega

theorem immField_parts (imm : BitVec 16) (sel op : BitVec 8) : immField (imm ++ sel ++ op) = imm := by
  apply BitVec.eq_of_toNat_eq
  have h0 := imm.isLt
  have h1 := sel.isLt
  have h2 := op.isLt
  simp only [immField, BitVec.extractLsb'_toNat, toNat_parts, Nat.shiftRight_eq_div_pow]
  omega

/-- Bit 8+j of a word is bit j of its select byte. -/
theorem getLsbD_sel (imm : BitVec 16) (sel op : BitVec 8) {j : Nat} (h : j < 8) :
    (imm ++ sel ++ op : Word).getLsbD (8 + j) = sel.getLsbD j := by
  simp only [BitVec.getLsbD_append]
  rw [if_neg (by omega), if_pos (by omega)]
  congr 1
  omega

/-- The select byte of a word, as the bits 15:8. -/
theorem extract_sel (imm : BitVec 16) (sel op : BitVec 8) {lo len : Nat} (h : lo + len ≤ 8) :
    (imm ++ sel ++ op : Word).extractLsb' (8 + lo) len = sel.extractLsb' lo len := by
  apply BitVec.eq_of_getLsbD_eq
  intro i hi
  simp only [BitVec.getLsbD_extractLsb', hi, decide_true, Bool.true_and]
  have h := getLsbD_sel imm sel op (show lo + i < 8 by omega)
  rwa [← Nat.add_assoc] at h

/-- Masking a word is masking its parts. -/
theorem and_parts (imm imm' : BitVec 16) (sel sel' op op' : BitVec 8) :
    (imm ++ sel ++ op : Word) &&& (imm' ++ sel' ++ op') = (imm &&& imm') ++ (sel &&& sel') ++ (op &&& op') := by
  apply BitVec.eq_of_getLsbD_eq
  intro i _
  simp only [BitVec.getLsbD_and, BitVec.getLsbD_append]
  split <;> [skip; split] <;> rfl

/-- A word all of whose parts are 0 is 0. -/
theorem parts_zero : (0#16 ++ 0#8 ++ 0#8 : Word) = 0 := by decide

end Sys2Proof
end

