-- ==== Sys2Proof/Laws/HostPort.lean ====
section
/-! SUPPORT. The merged access sequence of the bus masters (spec/20_memory.md R75). -/

namespace Sys2Proof.Machine

@[simp] theorem mergeMasters_nil (ps : List (List Turn)) : mergeMasters [] ps = [] := rfl

/-- One master's accesses reach the block in its program's order. -/
theorem mergeMasters_one (n : Nat) (p : List Turn) : mergeMasters (List.replicate n 0) [p] = p.take n := by
  induction n generalizing p with
  | zero => simp
  | succ n ih => cases p <;> simp [List.replicate_succ, mergeMasters, ih]

theorem ofFn_one {α : Type} {m : Nat} (h : m = 1) (f : Fin m → α) : List.ofFn f = [f ⟨0, by omega⟩] := by
  subst h
  rfl

@[simp] theorem withMasters_data (s : State) (ps : Fin Config.masters → List Turn) (o : List (Fin Config.masters)) :
    (s.withMasters ps o).data = s.data := rfl

/-- Where a claim fixes MASTERS to 1, the turns to come are those of the one host's program, in order. -/
theorem withMasters_one (h : Config.masters = 1) (s : State) (ps : Fin Config.masters → List Turn)
    (o : List (Fin Config.masters)) :
    (s.withMasters ps o).script = (ps ⟨0, by omega⟩).take o.length := by
  have ho : o.map (fun m => m.val) = List.replicate o.length 0 := by
    rw [List.eq_replicate_iff]
    exact ⟨List.length_map _, fun x hx => by
      obtain ⟨m, -, rfl⟩ := List.mem_map.mp hx
      omega⟩
  simp only [State.withMasters, ofFn_one h, ho, mergeMasters_one]

end Sys2Proof.Machine
end

