-- ==== Sys2Proof/Laws/MatchFinder.lean ====
section
/-! SUPPORT. Everything `mfRegister` (R130) and `mfLocate` (R132) can do. -/

namespace Sys2Proof.Machine

/-- Registration below capacity keeps every entry; at capacity the oldest one goes (R130). -/
theorem mfRegister_eq {w : Nat} {mf : List MfEntry} (e : MfEntry) (h : mf.length ≤ w) (hw : 1 ≤ w) :
    mfRegister w e mf = if mf.length < w then mf ++ [e] else mf.drop 1 ++ [e] := by
  unfold mfRegister
  by_cases hl : mf.length < w
  · simp [hl, Nat.not_lt.mpr hl]
  · have : mf.length = w := by omega
    cases mf with
    | nil => simp at this; omega
    | cons x xs => simp at this; simp [← this]

/-- Registration never leaves a window above its capacity (R130). -/
theorem length_mfRegister_le {w : Nat} {mf : List MfEntry} (e : MfEntry) (h : mf.length ≤ w) (hw : 1 ≤ w) :
    (mfRegister w e mf).length ≤ w := by
  rw [mfRegister_eq e h hw]
  split
  · simp; omega
  · simp; omega

/-- An entry of the window after a registration was there before or is the one registered. -/
theorem mem_mfRegister {w : Nat} {mf : List MfEntry} {e x : MfEntry} (h : x ∈ mfRegister w e mf) :
    x ∈ mf ∨ x = e := by
  unfold mfRegister at h
  split at h
  · have := List.mem_of_mem_drop h
    simpa using this
  · simpa using h

/-- The positions a lookup returns are those of the window's entries with the key (R132). -/
theorem mem_mfLocate {key p : Word} {mf : List MfEntry} :
    p ∈ mfLocate key mf ↔ ∃ e ∈ mf, e.key = key ∧ e.pos = p := by
  simp [mfLocate, and_assoc]

/-- A lookup returns at most one position per entry (R132). -/
theorem length_mfLocate_le (key : Word) (mf : List MfEntry) : (mfLocate key mf).length ≤ mf.length := by
  unfold mfLocate
  rw [List.length_map]
  exact (List.length_filter_le _ _).trans (by simp)

end Sys2Proof.Machine
end

