-- ==== Sys2Proof/Laws/Ops.lean ====
section
/-! SUPPORT. The shared operations of every meaning: a command either completes or records the fault it met
(`runCommand`), recording a fault leaves exactly R270's record (`raise`), and a turn of the script is what
`step` takes. Later proofs cite these and unfold none of them. -/

namespace Sys2Proof.Machine

/-- `raise` leaves the record of R270. -/
theorem raise_recorded (k : FaultKind) (src : Bool) (info : Word) (s : State) :
    (raise k src info s).recorded k src info := ⟨rfl, rfl, rfl, rfl, rfl⟩

/-- A command's fault is recorded with the pending word as its info (R270). -/
theorem raiseCommand_recorded (k : FaultKind) (s : State) : (raiseCommand k s).recorded k false s.data.pending :=
  raise_recorded k false s.data.pending s

/-- A host access's fault is recorded with the register offset as its info (R270). -/
theorem raiseAccess_recorded (k : FaultKind) (off : BitVec 8) (s : State) :
    (raiseAccess k off s).recorded k true (off.zeroExtend 32) :=
  raise_recorded k true (off.zeroExtend 32) s

theorem runCommand_ok {f : Data → Except FaultKind Data} {s : State} {d : Data} (h : f s.data = .ok d) :
    runCommand f s = .next (s.completed d) := by
  simp [runCommand, h, State.completed]

theorem runCommand_error {f : Data → Except FaultKind Data} {s : State} {k : FaultKind} (h : f s.data = .error k) :
    runCommand f s = .next (raiseCommand k s) := by
  simp [runCommand, h]

/-- Everything a command can do: complete, or record the fault it met. -/
theorem runCommand_cases (f : Data → Except FaultKind Data) (s : State) :
    (∃ d, f s.data = .ok d ∧ runCommand f s = .next (s.completed d))
      ∨ ∃ k, f s.data = .error k ∧ runCommand f s = .next (raiseCommand k s) := by
  cases h : f s.data with
  | ok d => exact .inl ⟨d, rfl, runCommand_ok h⟩
  | error k => exact .inr ⟨k, rfl, runCommand_error h⟩

/-- Inversion of `runCommand`: a next state is a completion or a recorded fault. -/
theorem runCommand_next {f : Data → Except FaultKind Data} {s t : State} (h : runCommand f s = .next t) :
    (∃ d, f s.data = .ok d ∧ t = s.completed d) ∨ ∃ k, f s.data = .error k ∧ t = raiseCommand k s := by
  rcases runCommand_cases f s with ⟨d, hd, hr⟩ | ⟨k, hk, hr⟩ <;> rw [hr] at h <;> cases h
  · exact .inl ⟨d, hd, rfl⟩
  · exact .inr ⟨k, hk, rfl⟩

@[simp] theorem completed_busy (s : State) (d : Data) : (s.completed d).busy = false := rfl
@[simp] theorem completed_data (s : State) (d : Data) : (s.completed d).data = d := rfl
@[simp] theorem completed_fault (s : State) (d : Data) : (s.completed d).fault = s.fault := rfl
@[simp] theorem completed_faultCode (s : State) (d : Data) : (s.completed d).faultCode = s.faultCode := rfl
@[simp] theorem completed_faultSrc (s : State) (d : Data) : (s.completed d).faultSrc = s.faultSrc := rfl
@[simp] theorem completed_faultInfo (s : State) (d : Data) : (s.completed d).faultInfo = s.faultInfo := rfl
@[simp] theorem completed_script (s : State) (d : Data) : (s.completed d).script = s.script := rfl
@[simp] theorem completed_reads (s : State) (d : Data) : (s.completed d).reads = s.reads := rfl
@[simp] theorem completed_free (s : State) (d : Data) : (s.completed d).free = s.free := rfl

/-- The step of a state with a turn to come is that turn. -/
theorem step_cons {s : State} {t : Turn} {ts : List Turn} (h : s.script = t :: ts) :
    step s = takeTurn t s.inTurn := by
  simp [step, h, State.inTurn]

/-- Where the engine's turn is next, the step is the engine's turn. -/
theorem step_engineNext {s : State} (h : s.engineNext) : step s = engineTurn s.inTurn := by
  rcases h with h | ⟨ts, h⟩
  · simp only [step, h, State.inTurn, List.tail_nil]
    rw [← h]
  · exact step_cons h

/-- `withFetchWord` makes the engine's turn the next one. -/
theorem withFetchWord_engineNext (s : State) (nbits w : Nat) : (s.withFetchWord nbits w).engineNext := by
  unfold State.engineNext State.withFetchWord
  cases s.script with
  | nil => exact .inl rfl
  | cons t ts => exact .inr ⟨_, rfl⟩

end Sys2Proof.Machine
end

