-- ==== Sys2Proof/Laws/PerInstr.lean ====
section
/-! SUPPORT. The family of statements about each constructor of `Instr` as syntax: its command word carries its
opcode in w[7:0], its immediate in w[31:16], and no reserved bit of its format (R81, R82). -/

namespace Sys2Proof.Laws.EncodeLegal

/-- The word of a command has its opcode and immediate in place and no reserved bit of its format set. -/
def Statement (i : Instr) : Prop :=
  opField (encode i) = i.opcode ∧ immField (encode i) = i.imm ∧ encode i &&& i.format.reservedMask = 0

/-- A command with no immediate: what is left to check is a closed fact about its select byte. -/
theorem of_mask (i : Instr) (h : encode i &&& i.format.reservedMask = 0) : Statement i :=
  ⟨opField_parts _ _ _, immField_parts _ _ _, h⟩

/-- A command with an immediate: the mask tests only the select byte. -/
theorem of_selectByte (i : Instr) (m : BitVec 8) (hm : i.format.reservedMask = 0#16 ++ m ++ 0#8)
    (h : i.selectByte &&& m = 0) : Statement i := by
  refine of_mask i ?_
  rw [hm, encode, and_parts, h, BitVec.and_zero, BitVec.and_zero]
  exact parts_zero

theorem nop : Statement .nop := of_mask _ (by decide)
theorem softReset : Statement .softReset := of_mask _ (by decide)
theorem baAppend (a : AccSel) (n : BitVec 16) : Statement (.baAppend a n) :=
  of_selectByte _ 0xFE rfl (by simp only [Instr.selectByte]; cases a <;> decide)
theorem baDrain (a : AccSel) : Statement (.baDrain a) := of_mask _ (by cases a <;> decide)
theorem baExtend : Statement .baExtend := of_mask _ (by decide)
theorem baFlush (a : AccSel) : Statement (.baFlush a) := of_mask _ (by cases a <;> decide)
theorem baClear (a : AccSel) : Statement (.baClear a) := of_mask _ (by cases a <;> decide)
theorem mfReset : Statement .mfReset := of_mask _ (by decide)
theorem mfRegister : Statement .mfRegister := of_mask _ (by decide)
theorem mfLocate : Statement .mfLocate := of_mask _ (by decide)
theorem inClear : Statement .inClear := of_mask _ (by decide)
theorem symRun : Statement .symRun := of_mask _ (by decide)
theorem symRead : Statement .symRead := of_mask _ (by decide)
theorem hlAssign (t : TableSel) : Statement (.hlAssign t) := of_mask _ (by cases t <;> decide)
theorem ccBuild (t : TableSel) : Statement (.ccBuild t) := of_mask _ (by cases t <;> decide)
theorem ctRle : Statement .ctRle := of_mask _ (by decide)
theorem clsRead : Statement .clsRead := of_mask _ (by decide)
theorem blkHeader (a : AccSel) (f : Bool) : Statement (.blkHeader a f) := of_mask _ (by cases a <;> cases f <;> decide)
theorem blkBody (a : AccSel) : Statement (.blkBody a) := of_mask _ (by cases a <;> decide)
theorem blkEncode (f : Bool) : Statement (.blkEncode f) := of_mask _ (by cases f <;> decide)
theorem tblRead (t : TableSel) (kd : TableKind) (idx : BitVec 16) : Statement (.tblRead t kd idx) :=
  of_selectByte _ 0xCC rfl (by simp only [Instr.selectByte]; cases t <;> cases kd <;> decide)
theorem tblWrite (t : TableSel) (kd : TableKind) (idx : BitVec 16) : Statement (.tblWrite t kd idx) :=
  of_selectByte _ 0xCC rfl (by simp only [Instr.selectByte]; cases t <;> cases kd <;> decide)

end Sys2Proof.Laws.EncodeLegal
end

