-- ==== Sys2Proof/Laws/State.lean ====
section
/-! SUPPORT. What each named update of the state leaves in each field, one lemma per field, so that no proof unfolds
a record update: `raise`, `resetBlock` and `State.completed`-shaped updates of the state, and the updates of
the data through a field A or T. -/

namespace Sys2Proof.Machine

/-! ### `raise` (R270) -/
@[simp] theorem raise_busy (k : FaultKind) (src : Bool) (info : Word) (s : State) : (raise k src info s).busy = false := rfl
@[simp] theorem raise_fault (k : FaultKind) (src : Bool) (info : Word) (s : State) : (raise k src info s).fault = true := rfl
@[simp] theorem raise_faultCode (k : FaultKind) (src : Bool) (info : Word) (s : State) : (raise k src info s).faultCode = k.code := rfl
@[simp] theorem raise_faultSrc (k : FaultKind) (src : Bool) (info : Word) (s : State) : (raise k src info s).faultSrc = src := rfl
@[simp] theorem raise_faultInfo (k : FaultKind) (src : Bool) (info : Word) (s : State) : (raise k src info s).faultInfo = info := rfl
@[simp] theorem raise_data (k : FaultKind) (src : Bool) (info : Word) (s : State) : (raise k src info s).data = .unspecified s.free := rfl
@[simp] theorem raise_script (k : FaultKind) (src : Bool) (info : Word) (s : State) : (raise k src info s).script = s.script := rfl
@[simp] theorem raise_reads (k : FaultKind) (src : Bool) (info : Word) (s : State) : (raise k src info s).reads = s.reads := rfl
@[simp] theorem raise_free (k : FaultKind) (src : Bool) (info : Word) (s : State) : (raise k src info s).free = s.free + 1 := rfl

/-! ### `resetBlock` (R252, R300) -/
@[simp] theorem resetBlock_busy (s : State) : (resetBlock s).busy = false := rfl
@[simp] theorem resetBlock_fault (s : State) : (resetBlock s).fault = false := rfl
@[simp] theorem resetBlock_faultCode (s : State) : (resetBlock s).faultCode = 0 := rfl
@[simp] theorem resetBlock_faultSrc (s : State) : (resetBlock s).faultSrc = false := rfl
@[simp] theorem resetBlock_faultInfo (s : State) : (resetBlock s).faultInfo = 0 := rfl
@[simp] theorem resetBlock_data (s : State) : (resetBlock s).data = .reset := rfl
@[simp] theorem resetBlock_script (s : State) : (resetBlock s).script = s.script := rfl
@[simp] theorem resetBlock_reads (s : State) : (resetBlock s).reads = s.reads := rfl
@[simp] theorem resetBlock_free (s : State) : (resetBlock s).free = s.free := rfl

/-! ### The data through field A -/
@[simp] theorem acc_ba0 (d : Data) : d.acc .ba0 = d.ba0 := rfl
@[simp] theorem acc_ba1 (d : Data) : d.acc .ba1 = d.ba1 := rfl
@[simp] theorem acc_setAcc (d : Data) (a : AccSel) (x : Accum) : (d.setAcc a x).acc a = x := by cases a <;> rfl
@[simp] theorem setAcc_arg0 (d : Data) (a : AccSel) (x : Accum) : (d.setAcc a x).arg0 = d.arg0 := by cases a <;> rfl
@[simp] theorem setAcc_arg1 (d : Data) (a : AccSel) (x : Accum) : (d.setAcc a x).arg1 = d.arg1 := by cases a <;> rfl
@[simp] theorem setAcc_result0 (d : Data) (a : AccSel) (x : Accum) : (d.setAcc a x).result0 = d.result0 := by cases a <;> rfl
@[simp] theorem setAcc_result1 (d : Data) (a : AccSel) (x : Accum) : (d.setAcc a x).result1 = d.result1 := by cases a <;> rfl
@[simp] theorem setAcc_pending (d : Data) (a : AccSel) (x : Accum) : (d.setAcc a x).pending = d.pending := by cases a <;> rfl
@[simp] theorem setAcc_window (d : Data) (a : AccSel) (x : Accum) : (d.setAcc a x).window = d.window := by cases a <;> rfl
@[simp] theorem setAcc_keySize (d : Data) (a : AccSel) (x : Accum) : (d.setAcc a x).keySize = d.keySize := by cases a <;> rfl
@[simp] theorem setAcc_lookback (d : Data) (a : AccSel) (x : Accum) : (d.setAcc a x).lookback = d.lookback := by cases a <;> rfl
@[simp] theorem setAcc_input (d : Data) (a : AccSel) (x : Accum) : (d.setAcc a x).input = d.input := by cases a <;> rfl
@[simp] theorem setAcc_symq (d : Data) (a : AccSel) (x : Accum) : (d.setAcc a x).symq = d.symq := by cases a <;> rfl
@[simp] theorem setAcc_freqLL (d : Data) (a : AccSel) (x : Accum) : (d.setAcc a x).freqLL = d.freqLL := by cases a <;> rfl
@[simp] theorem setAcc_freqD (d : Data) (a : AccSel) (x : Accum) : (d.setAcc a x).freqD = d.freqD := by cases a <;> rfl
@[simp] theorem setAcc_freqCL (d : Data) (a : AccSel) (x : Accum) : (d.setAcc a x).freqCL = d.freqCL := by cases a <;> rfl
@[simp] theorem setAcc_lenLL (d : Data) (a : AccSel) (x : Accum) : (d.setAcc a x).lenLL = d.lenLL := by cases a <;> rfl
@[simp] theorem setAcc_lenD (d : Data) (a : AccSel) (x : Accum) : (d.setAcc a x).lenD = d.lenD := by cases a <;> rfl
@[simp] theorem setAcc_lenCL (d : Data) (a : AccSel) (x : Accum) : (d.setAcc a x).lenCL = d.lenCL := by cases a <;> rfl
@[simp] theorem setAcc_codeLL (d : Data) (a : AccSel) (x : Accum) : (d.setAcc a x).codeLL = d.codeLL := by cases a <;> rfl
@[simp] theorem setAcc_codeD (d : Data) (a : AccSel) (x : Accum) : (d.setAcc a x).codeD = d.codeD := by cases a <;> rfl
@[simp] theorem setAcc_codeCL (d : Data) (a : AccSel) (x : Accum) : (d.setAcc a x).codeCL = d.codeCL := by cases a <;> rfl
@[simp] theorem setAcc_clsq (d : Data) (a : AccSel) (x : Accum) : (d.setAcc a x).clsq = d.clsq := by cases a <;> rfl
@[simp] theorem setAcc_mf (d : Data) (a : AccSel) (x : Accum) : (d.setAcc a x).mf = d.mf := by cases a <;> rfl
@[simp] theorem setAcc_outq (d : Data) (a : AccSel) (x : Accum) : (d.setAcc a x).outq = d.outq := by cases a <;> rfl
@[simp] theorem setAcc_locq (d : Data) (a : AccSel) (x : Accum) : (d.setAcc a x).locq = d.locq := by cases a <;> rfl
@[simp] theorem setAcc_ba0_ba0 (d : Data) (x : Accum) : (d.setAcc .ba0 x).ba0 = x := rfl
@[simp] theorem setAcc_ba0_ba1 (d : Data) (x : Accum) : (d.setAcc .ba0 x).ba1 = d.ba1 := rfl
@[simp] theorem setAcc_ba1_ba1 (d : Data) (x : Accum) : (d.setAcc .ba1 x).ba1 = x := rfl
@[simp] theorem setAcc_ba1_ba0 (d : Data) (x : Accum) : (d.setAcc .ba1 x).ba0 = d.ba0 := rfl

/-! ### The data through field T: `setFreq` -/
@[simp] theorem freqOf_setFreq (d : Data) (t : TableSel) (v : Table Word t.size) : (d.setFreq t v).freqOf t = v := by cases t <;> rfl
@[simp] theorem setFreq_arg0 (d : Data) (t : TableSel) (v : Table Word t.size) : (d.setFreq t v).arg0 = d.arg0 := by cases t <;> rfl
@[simp] theorem setFreq_arg1 (d : Data) (t : TableSel) (v : Table Word t.size) : (d.setFreq t v).arg1 = d.arg1 := by cases t <;> rfl
@[simp] theorem setFreq_result0 (d : Data) (t : TableSel) (v : Table Word t.size) : (d.setFreq t v).result0 = d.result0 := by cases t <;> rfl
@[simp] theorem setFreq_result1 (d : Data) (t : TableSel) (v : Table Word t.size) : (d.setFreq t v).result1 = d.result1 := by cases t <;> rfl
@[simp] theorem setFreq_pending (d : Data) (t : TableSel) (v : Table Word t.size) : (d.setFreq t v).pending = d.pending := by cases t <;> rfl
@[simp] theorem setFreq_window (d : Data) (t : TableSel) (v : Table Word t.size) : (d.setFreq t v).window = d.window := by cases t <;> rfl
@[simp] theorem setFreq_keySize (d : Data) (t : TableSel) (v : Table Word t.size) : (d.setFreq t v).keySize = d.keySize := by cases t <;> rfl
@[simp] theorem setFreq_lookback (d : Data) (t : TableSel) (v : Table Word t.size) : (d.setFreq t v).lookback = d.lookback := by cases t <;> rfl
@[simp] theorem setFreq_input (d : Data) (t : TableSel) (v : Table Word t.size) : (d.setFreq t v).input = d.input := by cases t <;> rfl
@[simp] theorem setFreq_symq (d : Data) (t : TableSel) (v : Table Word t.size) : (d.setFreq t v).symq = d.symq := by cases t <;> rfl
@[simp] theorem setFreq_lenLL (d : Data) (t : TableSel) (v : Table Word t.size) : (d.setFreq t v).lenLL = d.lenLL := by cases t <;> rfl
@[simp] theorem setFreq_lenD (d : Data) (t : TableSel) (v : Table Word t.size) : (d.setFreq t v).lenD = d.lenD := by cases t <;> rfl
@[simp] theorem setFreq_lenCL (d : Data) (t : TableSel) (v : Table Word t.size) : (d.setFreq t v).lenCL = d.lenCL := by cases t <;> rfl
@[simp] theorem setFreq_codeLL (d : Data) (t : TableSel) (v : Table Word t.size) : (d.setFreq t v).codeLL = d.codeLL := by cases t <;> rfl
@[simp] theorem setFreq_codeD (d : Data) (t : TableSel) (v : Table Word t.size) : (d.setFreq t v).codeD = d.codeD := by cases t <;> rfl
@[simp] theorem setFreq_codeCL (d : Data) (t : TableSel) (v : Table Word t.size) : (d.setFreq t v).codeCL = d.codeCL := by cases t <;> rfl
@[simp] theorem setFreq_clsq (d : Data) (t : TableSel) (v : Table Word t.size) : (d.setFreq t v).clsq = d.clsq := by cases t <;> rfl
@[simp] theorem setFreq_mf (d : Data) (t : TableSel) (v : Table Word t.size) : (d.setFreq t v).mf = d.mf := by cases t <;> rfl
@[simp] theorem setFreq_ba0 (d : Data) (t : TableSel) (v : Table Word t.size) : (d.setFreq t v).ba0 = d.ba0 := by cases t <;> rfl
@[simp] theorem setFreq_ba1 (d : Data) (t : TableSel) (v : Table Word t.size) : (d.setFreq t v).ba1 = d.ba1 := by cases t <;> rfl
@[simp] theorem setFreq_outq (d : Data) (t : TableSel) (v : Table Word t.size) : (d.setFreq t v).outq = d.outq := by cases t <;> rfl
@[simp] theorem setFreq_locq (d : Data) (t : TableSel) (v : Table Word t.size) : (d.setFreq t v).locq = d.locq := by cases t <;> rfl

/-! ### The data through field T: `setLen` -/
@[simp] theorem lenOf_setLen (d : Data) (t : TableSel) (v : Table (BitVec 4) t.size) : (d.setLen t v).lenOf t = v := by cases t <;> rfl
@[simp] theorem setLen_arg0 (d : Data) (t : TableSel) (v : Table (BitVec 4) t.size) : (d.setLen t v).arg0 = d.arg0 := by cases t <;> rfl
@[simp] theorem setLen_arg1 (d : Data) (t : TableSel) (v : Table (BitVec 4) t.size) : (d.setLen t v).arg1 = d.arg1 := by cases t <;> rfl
@[simp] theorem setLen_result0 (d : Data) (t : TableSel) (v : Table (BitVec 4) t.size) : (d.setLen t v).result0 = d.result0 := by cases t <;> rfl
@[simp] theorem setLen_result1 (d : Data) (t : TableSel) (v : Table (BitVec 4) t.size) : (d.setLen t v).result1 = d.result1 := by cases t <;> rfl
@[simp] theorem setLen_pending (d : Data) (t : TableSel) (v : Table (BitVec 4) t.size) : (d.setLen t v).pending = d.pending := by cases t <;> rfl
@[simp] theorem setLen_window (d : Data) (t : TableSel) (v : Table (BitVec 4) t.size) : (d.setLen t v).window = d.window := by cases t <;> rfl
@[simp] theorem setLen_keySize (d : Data) (t : TableSel) (v : Table (BitVec 4) t.size) : (d.setLen t v).keySize = d.keySize := by cases t <;> rfl
@[simp] theorem setLen_lookback (d : Data) (t : TableSel) (v : Table (BitVec 4) t.size) : (d.setLen t v).lookback = d.lookback := by cases t <;> rfl
@[simp] theorem setLen_input (d : Data) (t : TableSel) (v : Table (BitVec 4) t.size) : (d.setLen t v).input = d.input := by cases t <;> rfl
@[simp] theorem setLen_symq (d : Data) (t : TableSel) (v : Table (BitVec 4) t.size) : (d.setLen t v).symq = d.symq := by cases t <;> rfl
@[simp] theorem setLen_freqLL (d : Data) (t : TableSel) (v : Table (BitVec 4) t.size) : (d.setLen t v).freqLL = d.freqLL := by cases t <;> rfl
@[simp] theorem setLen_freqD (d : Data) (t : TableSel) (v : Table (BitVec 4) t.size) : (d.setLen t v).freqD = d.freqD := by cases t <;> rfl
@[simp] theorem setLen_freqCL (d : Data) (t : TableSel) (v : Table (BitVec 4) t.size) : (d.setLen t v).freqCL = d.freqCL := by cases t <;> rfl
@[simp] theorem setLen_codeLL (d : Data) (t : TableSel) (v : Table (BitVec 4) t.size) : (d.setLen t v).codeLL = d.codeLL := by cases t <;> rfl
@[simp] theorem setLen_codeD (d : Data) (t : TableSel) (v : Table (BitVec 4) t.size) : (d.setLen t v).codeD = d.codeD := by cases t <;> rfl
@[simp] theorem setLen_codeCL (d : Data) (t : TableSel) (v : Table (BitVec 4) t.size) : (d.setLen t v).codeCL = d.codeCL := by cases t <;> rfl
@[simp] theorem setLen_clsq (d : Data) (t : TableSel) (v : Table (BitVec 4) t.size) : (d.setLen t v).clsq = d.clsq := by cases t <;> rfl
@[simp] theorem setLen_mf (d : Data) (t : TableSel) (v : Table (BitVec 4) t.size) : (d.setLen t v).mf = d.mf := by cases t <;> rfl
@[simp] theorem setLen_ba0 (d : Data) (t : TableSel) (v : Table (BitVec 4) t.size) : (d.setLen t v).ba0 = d.ba0 := by cases t <;> rfl
@[simp] theorem setLen_ba1 (d : Data) (t : TableSel) (v : Table (BitVec 4) t.size) : (d.setLen t v).ba1 = d.ba1 := by cases t <;> rfl
@[simp] theorem setLen_outq (d : Data) (t : TableSel) (v : Table (BitVec 4) t.size) : (d.setLen t v).outq = d.outq := by cases t <;> rfl
@[simp] theorem setLen_locq (d : Data) (t : TableSel) (v : Table (BitVec 4) t.size) : (d.setLen t v).locq = d.locq := by cases t <;> rfl

/-! ### The data through field T: `setCode` -/
@[simp] theorem codeOf_setCode (d : Data) (t : TableSel) (v : Table CodeEntry t.size) : (d.setCode t v).codeOf t = v := by cases t <;> rfl
@[simp] theorem setCode_arg0 (d : Data) (t : TableSel) (v : Table CodeEntry t.size) : (d.setCode t v).arg0 = d.arg0 := by cases t <;> rfl
@[simp] theorem setCode_arg1 (d : Data) (t : TableSel) (v : Table CodeEntry t.size) : (d.setCode t v).arg1 = d.arg1 := by cases t <;> rfl
@[simp] theorem setCode_result0 (d : Data) (t : TableSel) (v : Table CodeEntry t.size) : (d.setCode t v).result0 = d.result0 := by cases t <;> rfl
@[simp] theorem setCode_result1 (d : Data) (t : TableSel) (v : Table CodeEntry t.size) : (d.setCode t v).result1 = d.result1 := by cases t <;> rfl
@[simp] theorem setCode_pending (d : Data) (t : TableSel) (v : Table CodeEntry t.size) : (d.setCode t v).pending = d.pending := by cases t <;> rfl
@[simp] theorem setCode_window (d : Data) (t : TableSel) (v : Table CodeEntry t.size) : (d.setCode t v).window = d.window := by cases t <;> rfl
@[simp] theorem setCode_keySize (d : Data) (t : TableSel) (v : Table CodeEntry t.size) : (d.setCode t v).keySize = d.keySize := by cases t <;> rfl
@[simp] theorem setCode_lookback (d : Data) (t : TableSel) (v : Table CodeEntry t.size) : (d.setCode t v).lookback = d.lookback := by cases t <;> rfl
@[simp] theorem setCode_input (d : Data) (t : TableSel) (v : Table CodeEntry t.size) : (d.setCode t v).input = d.input := by cases t <;> rfl
@[simp] theorem setCode_symq (d : Data) (t : TableSel) (v : Table CodeEntry t.size) : (d.setCode t v).symq = d.symq := by cases t <;> rfl
@[simp] theorem setCode_freqLL (d : Data) (t : TableSel) (v : Table CodeEntry t.size) : (d.setCode t v).freqLL = d.freqLL := by cases t <;> rfl
@[simp] theorem setCode_freqD (d : Data) (t : TableSel) (v : Table CodeEntry t.size) : (d.setCode t v).freqD = d.freqD := by cases t <;> rfl
@[simp] theorem setCode_freqCL (d : Data) (t : TableSel) (v : Table CodeEntry t.size) : (d.setCode t v).freqCL = d.freqCL := by cases t <;> rfl
@[simp] theorem setCode_lenLL (d : Data) (t : TableSel) (v : Table CodeEntry t.size) : (d.setCode t v).lenLL = d.lenLL := by cases t <;> rfl
@[simp] theorem setCode_lenD (d : Data) (t : TableSel) (v : Table CodeEntry t.size) : (d.setCode t v).lenD = d.lenD := by cases t <;> rfl
@[simp] theorem setCode_lenCL (d : Data) (t : TableSel) (v : Table CodeEntry t.size) : (d.setCode t v).lenCL = d.lenCL := by cases t <;> rfl
@[simp] theorem setCode_clsq (d : Data) (t : TableSel) (v : Table CodeEntry t.size) : (d.setCode t v).clsq = d.clsq := by cases t <;> rfl
@[simp] theorem setCode_mf (d : Data) (t : TableSel) (v : Table CodeEntry t.size) : (d.setCode t v).mf = d.mf := by cases t <;> rfl
@[simp] theorem setCode_ba0 (d : Data) (t : TableSel) (v : Table CodeEntry t.size) : (d.setCode t v).ba0 = d.ba0 := by cases t <;> rfl
@[simp] theorem setCode_ba1 (d : Data) (t : TableSel) (v : Table CodeEntry t.size) : (d.setCode t v).ba1 = d.ba1 := by cases t <;> rfl
@[simp] theorem setCode_outq (d : Data) (t : TableSel) (v : Table CodeEntry t.size) : (d.setCode t v).outq = d.outq := by cases t <;> rfl
@[simp] theorem setCode_locq (d : Data) (t : TableSel) (v : Table CodeEntry t.size) : (d.setCode t v).locq = d.locq := by cases t <;> rfl

/-! ### The reset state (R57) -/
@[simp] theorem reset_busy : State.reset.busy = false := rfl
@[simp] theorem reset_fault : State.reset.fault = false := rfl
@[simp] theorem reset_faultCode : State.reset.faultCode = 0 := rfl
@[simp] theorem reset_faultSrc : State.reset.faultSrc = false := rfl
@[simp] theorem reset_faultInfo : State.reset.faultInfo = 0 := rfl
@[simp] theorem reset_data : State.reset.data = .reset := rfl
@[simp] theorem reset_script : State.reset.script = [] := rfl
@[simp] theorem reset_reads : State.reset.reads = [] := rfl
@[simp] theorem reset_free : State.reset.free = 0 := rfl

end Sys2Proof.Machine
end

