-- ==== Sys2Proof/Tests/Slice0.lean ====
section
/-! SUPPORT. The model's own tests. Expected values are those of spec/95_test_vectors.md (each test names its vector) and
words written out bit by bit from spec/30_encoding.md R82 and R83. Then, for every obligation with hypotheses, a
witness: a concrete state and operands that meet all of them together. -/

namespace Sys2Proof.Tests

open Sys2Proof Sys2Proof.Machine

/-- The next state of an outcome. -/
def nextOf : Host.Outcome State Fault Refusal → Option State
  | .next t => some t
  | .fault _ => none
  | .refused _ => none

/-- The data of the next state of an outcome. -/
def dataOf (o : Host.Outcome State Fault Refusal) : Option Data := (nextOf o).map fun t => t.data

/-- (FAULT, FAULT_CODE, FAULT_SRC, FAULT_INFO) of the next state of an outcome. -/
def faultOf (o : Host.Outcome State Fault Refusal) : Option (Bool × BitVec 8 × Bool × Word) :=
  (nextOf o).map fun t => (t.fault, t.faultCode, t.faultSrc, t.faultInfo)

theorem exists_of_nextOf {α : Type} {o : Host.Outcome State Fault Refusal} {f : State → α} {x : α}
    (h : (nextOf o).map f = some x) : ∃ t, o = .next t ∧ f t = x := by
  cases o with
  | next t => exact ⟨t, rfl, Option.some.inj h⟩
  | fault r => cases r
  | refused r => exact nomatch h

/-- The state after reset with these data. -/
def having (d : Data) : State := { State.reset with data := d }

/-- The state after reset with these turns to come. -/
def awaiting (ts : List Turn) : State := { State.reset with script := ts }

/-- The state after reset with the command word w accepted, and these turns to come. -/
def running (w : Word) (ts : List Turn) : State :=
  { State.reset with busy := true, data := { Data.reset with pending := w }, script := ts }

/-- The state after the fault F1 of V-FLT, with these turns to come. -/
def faulted (ts : List Turn) : State :=
  { State.reset with fault := true, faultCode := 1, faultInfo := 2, script := ts }

/-- The weight or length table whose entry i is entry i of a list, 0 beyond it. -/
def words (n : Nat) (l : List Nat) {w : Nat} : Table (BitVec w) n := .build n fun i => BitVec.ofNat w (l.getD i 0)

/-- An accumulator that holds OUT_CAP completed bytes and 7 partial bits. -/
@[irreducible] def fullAccum : Accum := ⟨List.replicate 132096 0, 0, 7⟩

/-- As many bytes 'a' as the input buffer holds. -/
@[irreducible] def fullInput : List Byte := List.replicate 65536 0x61

theorem fullAccum_length : fullAccum.bytes.length = 132096 := by
  rw [fullAccum]
  exact List.length_replicate
theorem fullAccum_pc : fullAccum.pc = 7 := by rw [fullAccum]
theorem fullAccum_pv : fullAccum.pv = 0 := by rw [fullAccum]
theorem fullInput_length : fullInput.length = 65536 := by
  rw [fullInput]
  exact List.length_replicate
theorem fullAccum_ok : fullAccum.ok :=
  ⟨Nat.le_of_eq fullAccum_length, by rw [Accum.clean, fullAccum_pc, fullAccum_pv]; decide⟩
theorem fullAccum_bitCount : fullAccum.bitCount = 1056775 := by
  rw [Accum.bitCount, fullAccum_length, fullAccum_pc]
  rfl

/-! ### WellFormed refuses each ill-formed term (R85) -/

theorem test_wellFormed_refuses_tblRead_kd3 : (Instr.tblRead .ll .reserved 0).wellFormed = false := by decide
theorem test_wellFormed_refuses_tblWrite_kd2 : (Instr.tblWrite .ll .code 0).wellFormed = false := by decide
theorem test_wellFormed_refuses_tblWrite_kd3 : (Instr.tblWrite .ll .reserved 0).wellFormed = false := by decide
theorem test_wellFormed_accepts_tblRead_code : (Instr.tblRead .d .code 4).wellFormed = true := by decide

/-! ### Decoding: every constructor by a word written out from R82 and R83 -/

theorem test_decode_nop : decode 0b00000000000000000000000000000000 = .ok .nop := by decide
theorem test_decode_softReset : decode 0b00000000000000000000000000000001 = .ok .softReset := by decide
theorem test_decode_baAppend : decode 0b00000000000001010000000100010000 = .ok (.baAppend .ba1 5) := by decide
theorem test_decode_baDrain : decode 0b00000000000000000000000100010001 = .ok (.baDrain .ba1) := by decide
theorem test_decode_baExtend : decode 0b00000000000000000000000000010010 = .ok .baExtend := by decide
theorem test_decode_baFlush : decode 0b00000000000000000000000000010011 = .ok (.baFlush .ba0) := by decide
theorem test_decode_baClear : decode 0b00000000000000000000000100010100 = .ok (.baClear .ba1) := by decide
theorem test_decode_mfReset : decode 0b00000000000000000000000000100000 = .ok .mfReset := by decide
theorem test_decode_mfRegister : decode 0b00000000000000000000000000100001 = .ok .mfRegister := by decide
theorem test_decode_mfLocate : decode 0b00000000000000000000000000100010 = .ok .mfLocate := by decide
theorem test_decode_inClear : decode 0b00000000000000000000000000110000 = .ok .inClear := by decide
theorem test_decode_symRun : decode 0b00000000000000000000000001000000 = .ok .symRun := by decide
theorem test_decode_symRead : decode 0b00000000000000000000000001000001 = .ok .symRead := by decide
theorem test_decode_hlAssign : decode 0b00000000000000000000001001010000 = .ok (.hlAssign .cl) := by decide
theorem test_decode_ccBuild : decode 0b00000000000000000000000101010001 = .ok (.ccBuild .d) := by decide
theorem test_decode_ctRle : decode 0b00000000000000000000000001100000 = .ok .ctRle := by decide
theorem test_decode_clsRead : decode 0b00000000000000000000000001100001 = .ok .clsRead := by decide
theorem test_decode_blkHeader : decode 0b00000000000000000000010101110000 = .ok (.blkHeader .ba1 true) := by decide
theorem test_decode_blkBody : decode 0b00000000000000000000000101110001 = .ok (.blkBody .ba1) := by decide
theorem test_decode_blkEncode : decode 0b00000000000000000000010001111000 = .ok (.blkEncode true) := by decide
theorem test_decode_tblRead : decode 0b00000000000001000010000110000000 = .ok (.tblRead .d .code 4) := by decide
theorem test_decode_tblWrite : decode 0b00000000000100100001001010000001 = .ok (.tblWrite .cl .len 18) := by decide
theorem test_decode_rejects_opcode : decode 0b00000000000000000000000000000010 = .error .unknownOpcode := by decide
theorem test_decode_rejects_reserved : decode 0b00000000000000000000000101111000 = .error .reservedBit := by decide
theorem test_decode_rejects_t3 : decode 0b00000000000000000000001101010000 = .error .reservedTable := by decide
theorem test_decodeTableWord : decodeTableWord 32 0x00042180 = some (.tblRead .d .code 4) := by decide
theorem test_fetchWord_runs :
    faultOf (step (State.reset.withFetchWord 32 0x00410010)) = some (true, 2, false, 0x00410010) := by decide

/-! ### System and table access (V-TBL) -/

theorem test_nop : (nextOf (exec .nop (running 0 []))).map (fun t => t.status) = some 0x0000000C := by decide
theorem test_softReset : (dataOf (exec .softReset (having { Data.reset with arg0 := 9 }))).map (fun d => d.arg0) = some 0 := by
  decide
theorem test_tblRead_code :
    (dataOf (exec (.tblRead .d .code 4) (having { Data.reset with codeD := .fill ⟨6, 3⟩ }))).map
      (fun d => (d.result0, d.result1)) = some (6, 3) := by decide
theorem test_tblRead_index : faultOf (exec (.tblRead .ll .freq 286) (running 0x011E0080 [])) = some (true, 2, false, 0x011E0080) := by
  decide
theorem test_tblWrite_len :
    (dataOf (exec (.tblWrite .cl .len 18) (having { Data.reset with arg0 := 7 }))).map (fun d => d.lenCL.get 0 18) = some 7 := by
  decide
theorem test_tblWrite_limit :
    (faultOf (exec (.tblWrite .cl .len 18) (having { Data.reset with arg0 := 8 }))).map (fun f => f.2.1) = some 2 := by decide

/-! ### Bit Accumulator (V-BA) -/

theorem test_baAppend_masks :
    (dataOf (exec (.baAppend .ba0 4) (having { Data.reset with arg0 := 0xAB }))).map (fun d => d.ba0) = some ⟨[], 0x0B, 4⟩ := by
  decide
theorem test_baAppend_byte :
    (dataOf (exec (.baAppend .ba0 9) (having { Data.reset with arg0 := 0x1FF }))).map (fun d => d.ba0)
      = some ⟨[0xFF], 0x01, 1⟩ := by decide
theorem test_baExtend :
    (dataOf (exec .baExtend (having { Data.reset with ba0 := ⟨[], 5, 3⟩, ba1 := ⟨[0xFF], 1, 1⟩ }))).map
      (fun d => (d.ba0, d.ba1)) = some (⟨[0xFD], 0x0F, 4⟩, ⟨[], 0, 0⟩) := by decide
theorem test_baFlush :
    (dataOf (exec (.baFlush .ba0) (having { Data.reset with ba0 := ⟨[], 0x0F, 4⟩ }))).map (fun d => (d.ba0, d.result0))
      = some (⟨[0x0F], 0, 0⟩, 1) := by decide
theorem test_baDrain :
    (dataOf (exec (.baDrain .ba0) (having { Data.reset with ba0 := ⟨[0x12, 0x34], 5, 3⟩ }))).map
      (fun d => (d.ba0, d.outq, d.result0)) = some (⟨[], 5, 3⟩, [0x12, 0x34], 2) := by decide
theorem test_baClear :
    (dataOf (exec (.baClear .ba1) (having { Data.reset with ba1 := ⟨[1], 1, 1⟩ }))).map (fun d => d.ba1)
      = some ⟨[], 0, 0⟩ := by decide

/-! ### Match Finder (V-MF) -/

/-- V-MF's window of capacity 2 before its third registration. -/
def mfBefore : Data :=
  { Data.reset with window := 2, mf := [⟨0x616263, 2⟩, ⟨0x626364, 3⟩], arg0 := 0xFF616263, arg1 := 4 }

theorem test_mfRegister_evicts :
    (dataOf (exec .mfRegister (having mfBefore))).map (fun d => d.mf) = some [⟨0x626364, 3⟩, ⟨0x616263, 4⟩] := by decide
theorem test_mfLocate_masks_and_orders :
    (dataOf (exec .mfLocate (having { Data.reset with mf := [⟨0x616263, 2⟩, ⟨0x616263, 4⟩], arg0 := 0xFF616263 }))).map
      (fun d => (d.locq, d.result0)) = some ([4, 2], 2) := by decide
theorem test_mfReset : (dataOf (exec .mfReset (having mfBefore))).map (fun d => d.mf) = some [] := by decide

/-! ### Symbolizer (V-SYM) -/

theorem test_inClear : (dataOf (exec .inClear (having { Data.reset with input := [1] }))).map (fun d => d.input) = some [] := by
  decide
theorem test_symRun_overlap :
    (dataOf (exec .symRun (having { Data.reset with input := [0x61, 0x61, 0x61, 0x61, 0x61] }))).map (fun d => d.symq)
      = some [.literal 0x61, .reference 4 1, .endOfBlock] := by decide +kernel
/-- "abcdxabcyabcd" with LB = 8: the older candidate is longer. -/
theorem test_symRun_older_is_longer :
    (dataOf (exec .symRun (having { Data.reset with
      input := [0x61, 0x62, 0x63, 0x64, 0x78, 0x61, 0x62, 0x63, 0x79, 0x61, 0x62, 0x63, 0x64] }))).map
      (fun d => d.symq.drop 5) = some [.reference 3 5, .literal 0x79, .reference 4 9, .endOfBlock] := by decide +kernel
theorem test_symRead :
    (dataOf (exec .symRead (having { Data.reset with symq := [.literal 0x61, .reference 4 1, .endOfBlock], arg0 := 1 }))).map
      (fun d => d.result0) = some 0x40040001 := by decide

/-! ### Code lengths and codes (V-HL, V-CC) -/

theorem test_hlAssign_tie :
    (dataOf (exec (.hlAssign .d) (having { Data.reset with freqD := words 30 [1, 1, 1] }))).map
      (fun d => (d.lenD.entries.take 4, d.result0)) = some ([1, 2, 2, 0], 2) := by decide +kernel
/-- The 19 weights 2^18 to 2^0 with L = 7: the capacity forces an early split. -/
theorem test_hlAssign_limit :
    (dataOf (exec (.hlAssign .cl) (having { Data.reset with freqCL := words 19 ((List.range 19).map fun i => 2 ^ (18 - i)) }))).map
      (fun d => (d.lenCL.entries.take 4, d.result0)) = some ([1, 2, 3, 7], 7) := by decide +kernel
theorem test_ccBuild :
    (dataOf (exec (.ccBuild .d) (having { Data.reset with lenD := words 30 [3, 3, 3, 3, 3, 2, 4, 4] }))).map
      (fun d => (d.codeD.entries.drop 3).take 5) = some [⟨5, 3⟩, ⟨6, 3⟩, ⟨0, 2⟩, ⟨14, 4⟩, ⟨15, 4⟩] := by decide +kernel
theorem test_ccBuild_oversubscribed :
    (faultOf (exec (.ccBuild .d) (having { Data.reset with lenD := words 30 [1, 1, 1] }))).map (fun f => f.2.1) = some 7 := by
  decide +kernel

/-! ### Code-length-table encoder (V-RLE) -/

theorem test_ctRle_reset :
    (dataOf (exec .ctRle State.reset)).map (fun d => (d.clsq, d.freqCL.entries.drop 16, d.result0))
      = some ([⟨18, 127, 7⟩, ⟨18, 127, 7⟩, ⟨17, 7, 3⟩, ⟨18, 19, 7⟩], [0, 1, 3], 4) := by decide +kernel
theorem witness_rle_run : (7 : BitVec 4) ≠ 0 ∧ 1 ≤ 2 ∧ ([7, 0] : List (BitVec 4)).getLast? ≠ some 7
    ∧ ([0] : List (BitVec 4)).head? ≠ some 7 := by decide
theorem test_rle_copies : rle [7, 7, 7, 7, 7, 7, 7, 7, 7, 7] = [⟨7, 0, 0⟩, ⟨16, 3, 2⟩, ⟨16, 0, 2⟩] := by decide
theorem test_clsRead :
    (dataOf (exec .clsRead (having { Data.reset with clsq := [⟨18, 127, 7⟩, ⟨18, 107, 7⟩], arg0 := 1 }))).map
      (fun d => d.result0) = some 0x00076B12 := by decide

/-! ### Block Assembler (V-BLK, V-LD, S1) -/

/-- Codes of one bit for 'a' and EndOfBlock, as in the row 'a' of V-BLK. -/
def bodyData : Data :=
  { Data.reset with
    symq := [.literal 0x61, .endOfBlock]
    codeLL := ((Table.fill ⟨0, 0⟩).set 97 ⟨0, 1⟩).set 256 ⟨1, 1⟩ }

/-- CODE_CL with a code of one bit for meta-symbol 18, as in the row 'a' of V-BLK, and one entry in CLSQ. -/
def headerData : Data :=
  { Data.reset with
    clsq := [⟨18, 127, 7⟩]
    codeCL := (Table.fill ⟨0, 0⟩).set 18 ⟨1, 1⟩ }

theorem test_lcode : lcode 226 = .ok ⟨283, 5, 31⟩ ∧ lcode 258 = .ok ⟨285, 0, 0⟩ := by decide
theorem test_dcode : dcode 24576 = .ok ⟨28, 13, 8191⟩ := by decide
theorem test_blkHeader_fixed_bits :
    (dataOf (exec (.blkHeader .ba0 true) (having headerData))).map (fun d => (d.ba0.bytes.take 2, d.result0))
      = some ([0xED, 0xFD], 82) := by decide +kernel
theorem test_blkBody :
    (dataOf (exec (.blkBody .ba0) (having bodyData))).map (fun d => (d.ba0, d.result0)) = some (⟨[], 2, 2⟩, 2) := by
  decide +kernel
/-- S1 and P1: the empty block. -/
theorem test_blkEncode_empty :
    (dataOf (exec (.blkEncode true) State.reset)).map (fun d => (d.outq, d.ba0, d.result0, d.result1))
      = some ([0xED, 0xFD, 0x81, 0x00, 0x00, 0x00, 0x00, 0x00, 0x10, 0xFC, 0x5F, 0x33, 0xC2], ⟨[], 0x08, 7⟩, 111, 13) := by
  decide +kernel

/-! ### Host accesses (V-FLT, V-CFG) -/

theorem test_busyViolation_F3 : faultOf (step (running 0 [rd .arg0])) = some (true, 3, true, 0x0000000C) := by decide
theorem test_busyViolation_F4 : faultOf (step (running 0 [wr .inData 1])) = some (true, 3, true, 0x00000020) := by decide
theorem test_status_while_busy_F5 :
    (nextOf (step (running 0 [rd .status]))).map (fun t => t.reads) = some [(0x08, 0x0000000D)] := by decide
theorem test_soft_reset_while_busy_F17 :
    (nextOf (step (running 0x40 [wr .cmd 1]))).map (fun t => (t.status, t.data.arg0)) = some (0x0000000C, 0) := by decide
theorem test_cfgWindow_32769_ignored :
    (dataOf (step (awaiting [wr .cfgWindow 32769]))).map (fun d => d.window) = some 4096 := by decide
theorem test_writes_ignored_while_faulted_F15 :
    (nextOf (step (faulted [wr .cmd 0]))).map (fun t => (t.busy, t.faultInfo)) = some (false, 2) := by decide

/-- R75: two masters' programs in the order the platform decides. -/
theorem test_mergeMasters : mergeMasters [1, 0, 1, 1] [[rd .id, rd .arg0], [wr .arg0 5, rd .status]]
    = [wr .arg0 5, rd .id, rd .status] := by decide

/-! ### Witnesses: for each obligation with hypotheses, a state and operands that meet all of them -/

/-- The state after reset with these data and one host access to come. -/
def hostAt (d : Data) (t : Turn) : State := { State.reset with data := d, script := [t] }

theorem hostAt_ready (d : Data) (t : Turn) : (hostAt d t).hostReady t := ⟨⟨[], rfl⟩, rfl, rfl⟩

/-- The state after reset with these data and a command word of `op` pending. -/
def busyWith (d : Data) (w : Word) : State := { State.reset with busy := true, data := { d with pending := w } }

theorem witness_SoftReset_write : (running 0x40 [wr .cmd 1]).script = .write 32 0x04 0x00000001 :: [] := rfl
theorem witness_HardReset : (running 0x40 [.hardReset]).script = .hardReset :: [] := rfl
theorem witness_engineReady : (running 0x00050110 []).engineReady
    ∧ decode (running 0x00050110 []).data.pending = .ok (.baAppend .ba1 5) := ⟨⟨.inl rfl, rfl, rfl⟩, rfl⟩
theorem witness_engineReady_turn : (running 0x2 [.engine]).engineReady
    ∧ decode (running 0x2 [.engine]).data.pending = .error .unknownOpcode := ⟨⟨.inr ⟨[], rfl⟩, rfl, rfl⟩, rfl⟩
theorem witness_engine_has_no_step :
    State.reset.engineNext ∧ ¬(State.reset.busy = true ∧ State.reset.fault = false) := ⟨.inl rfl, by decide⟩
theorem witness_engine_has_no_step_faulted : (faulted [.engine]).engineNext
    ∧ ¬((faulted [.engine]).busy = true ∧ (faulted [.engine]).fault = false) := ⟨.inr ⟨[], rfl⟩, by decide⟩
theorem witness_decode_ok : decode 0x00042180 = .ok (.tblRead .d .code 4) := by decide
theorem witness_illegal_opcode : (running 0x2 []).engineReady ∧ illegalWord (running 0x2 []).data.pending :=
  ⟨⟨.inl rfl, rfl, rfl⟩, trivial⟩
theorem witness_illegal_reserved : illegalWord 0x00000178 := by
  show _ ∨ _
  exact .inl (by decide)
theorem witness_illegal_t3 : illegalWord 0x00000350 := by
  show _ ∨ _
  exact .inr (.inl (by decide))
theorem witness_illegal_read_kd3 : illegalWord 0x00003080 := by
  show _ ∨ _
  exact .inr (.inr (.inl (by decide)))
theorem witness_illegal_write_kd2 : illegalWord 0x00002081 := by
  show _ ∨ _
  exact .inr (.inr (.inr (by decide)))
theorem witness_legal_word : ¬ illegalWord 0x00121281 := by
  show ¬(_ ∨ _)
  decide
theorem witness_legal_step : ∃ t, (running 0x00121281 []).engineReady ∧ ¬ illegalWord (running 0x00121281 []).data.pending
    ∧ step (running 0x00121281 []) = .next t := ⟨_, ⟨.inl rfl, rfl, rfl⟩, witness_legal_word, rfl⟩
theorem witness_sticky_engine : (faulted [.engine]).fault = true ∧ (faulted [.engine]).busy = false
    ∧ (faulted [.engine]).engineNext := ⟨rfl, rfl, .inr ⟨[], rfl⟩⟩
theorem witness_sticky_write : (faulted [wr .cmd 0]).fault = true ∧ (faulted [wr .cmd 0]).busy = false
    ∧ (faulted [wr .cmd 0]).script = .write 32 0x04 0 :: [] ∧ (0x04 : BitVec 8).toNat % 4 = 0
    ∧ ¬((0x04 : BitVec 8) = 0x04 ∧ (0 : Word) = 0x00000001) := ⟨rfl, rfl, rfl, by decide, by decide⟩
theorem witness_sticky_read : (faulted [rd .arg0]).fault = true ∧ (faulted [rd .arg0]).busy = false
    ∧ (faulted [rd .arg0]).script = .read 32 0x0C :: [] ∧ (0x0C : BitVec 8).toNat % 4 = 0 := ⟨rfl, rfl, rfl, by decide⟩
theorem witness_sticky_no_reset : ∃ t, (∀ ts, (faulted [rd .arg0]).script ≠ .write 32 0x04 0x00000001 :: ts)
    ∧ (∀ ts, (faulted [rd .arg0]).script ≠ .hardReset :: ts) ∧ step (faulted [rd .arg0]) = .next t :=
  ⟨_, by simp [faulted, rd], by simp [faulted, rd], rfl⟩
theorem witness_sticky_soft_reset : (faulted [wr .cmd 1]).script = .write 32 0x04 0x00000001 :: [] := rfl
theorem witness_BusyViolation_read : (running 0 [rd .arg0]).busy = true ∧ (running 0 [rd .arg0]).fault = false
    ∧ (0x0C : BitVec 8).toNat % 4 = 0 ∧ (running 0 [rd .arg0]).script = .read 32 0x0C :: [] ∧ (0x0C : BitVec 8) ≠ 0x00
    ∧ (0x0C : BitVec 8) ≠ 0x08 := ⟨rfl, rfl, by decide, rfl, by decide, by decide⟩
theorem witness_BusyViolation_write : (running 0 [wr .cmd 0]).script = .write 32 0x04 0 :: []
    ∧ ¬((0x04 : BitVec 8) = 0x04 ∧ (0 : Word) = 0x00000001) := ⟨rfl, by decide⟩
theorem witness_odd_width : (awaiting [.write 8 0x21 5]).script = .write 8 0x21 5 :: [] ∧ (8 : Nat) ≠ 32 := ⟨rfl, by decide⟩
theorem witness_odd_offset : (awaiting [.read 32 0x21]).script = .read 32 0x21 :: [] ∧ (0x21 : BitVec 8).toNat % 4 ≠ 0 :=
  ⟨rfl, by decide⟩
theorem witness_id_read : (running 0 [rd .id]).script = .read 32 0x00 :: [] := rfl
theorem witness_status_read : (faulted [rd .status]).script = .read 32 0x08 :: [] := rfl
theorem witness_faultInfo_read : (faulted [rd .faultInfo]).script = .read 32 0x1C :: [] ∧ (faulted [rd .faultInfo]).busy = false :=
  ⟨rfl, rfl⟩
theorem witness_outData_pops : (hostAt { Data.reset with outq := [7, 8] } (.read 32 0x28)).hostReady (.read 32 0x28)
    ∧ (hostAt { Data.reset with outq := [7, 8] } (.read 32 0x28)).data.outq = 7 :: [8] := ⟨hostAt_ready _ _, rfl⟩
theorem witness_outData_empty : (hostAt .reset (.read 32 0x28)).hostReady (.read 32 0x28)
    ∧ (hostAt .reset (.read 32 0x28)).data.outq = [] := ⟨hostAt_ready _ _, rfl⟩
theorem witness_outData_write : (hostAt .reset (.write 32 0x28 5)).hostReady (.write 32 0x28 5) := hostAt_ready _ _
theorem witness_locData_pops : (hostAt { Data.reset with locq := [4, 2] } (.read 32 0x30)).hostReady (.read 32 0x30)
    ∧ (hostAt { Data.reset with locq := [4, 2] } (.read 32 0x30)).data.locq = 4 :: [2] := ⟨hostAt_ready _ _, rfl⟩
theorem witness_locData_empty : (hostAt .reset (.read 32 0x30)).hostReady (.read 32 0x30)
    ∧ (hostAt .reset (.read 32 0x30)).data.locq = [] := ⟨hostAt_ready _ _, rfl⟩
theorem witness_locData_write : (hostAt .reset (.write 32 0x30 5)).hostReady (.write 32 0x30 5) := hostAt_ready _ _
theorem witness_inData_room : (hostAt .reset (.write 32 0x20 5)).hostReady (.write 32 0x20 5)
    ∧ (hostAt .reset (.write 32 0x20 5)).data.input.length ≠ Config.inCap := ⟨hostAt_ready _ _, by decide⟩
theorem witness_inData_full : (hostAt { Data.reset with input := fullInput } (.write 32 0x20 5)).hostReady (.write 32 0x20 5)
    ∧ (hostAt { Data.reset with input := fullInput } (.write 32 0x20 5)).data.input.length = Config.inCap :=
  ⟨hostAt_ready _ _, by simp only [hostAt, Config.inCap]; exact fullInput_length⟩
theorem witness_inData_read : (hostAt .reset (.read 32 0x20)).hostReady (.read 32 0x20) := hostAt_ready _ _
theorem witness_cfgWindow_write : (hostAt .reset (.write 32 0x38 32768)).hostReady (.write 32 0x38 32768) := hostAt_ready _ _
theorem witness_cfgKey_write : (hostAt .reset (.write 32 0x3C 2)).hostReady (.write 32 0x3C 2) := hostAt_ready _ _
theorem witness_cfgLookback_write : (hostAt .reset (.write 32 0x40 256)).hostReady (.write 32 0x40 256) := hostAt_ready _ _
theorem witness_cfgWindow_read : (hostAt .reset (.read 32 0x38)).hostReady (.read 32 0x38) := hostAt_ready _ _
theorem witness_cfgKey_read : (hostAt .reset (.read 32 0x3C)).hostReady (.read 32 0x3C) := hostAt_ready _ _
theorem witness_cfgLookback_read : (hostAt .reset (.read 32 0x40)).hostReady (.read 32 0x40) := hostAt_ready _ _
theorem witness_cmd_write : (hostAt .reset (.write 32 0x04 0)).hostReady (.write 32 0x04 0) ∧ (0 : Word) ≠ 0x00000001 :=
  ⟨hostAt_ready _ _, by decide⟩
theorem witness_arg0_write : (hostAt .reset (.write 32 0x0C 5)).hostReady (.write 32 0x0C 5) := hostAt_ready _ _
theorem witness_arg1_write : (hostAt .reset (.write 32 0x10 5)).hostReady (.write 32 0x10 5) := hostAt_ready _ _
theorem witness_cmd_read : (hostAt .reset (.read 32 0x04)).hostReady (.read 32 0x04) := hostAt_ready _ _
theorem witness_arg0_read : (hostAt .reset (.read 32 0x0C)).hostReady (.read 32 0x0C) := hostAt_ready _ _
theorem witness_arg1_read : (hostAt .reset (.read 32 0x10)).hostReady (.read 32 0x10) := hostAt_ready _ _
theorem witness_readOnly_baState :
    let s := hostAt { Data.reset with ba0 := ⟨[], 5, 3⟩ } (.read 32 0x44)
    s.hostReady (.read 32 0x44) ∧ (0x503 : Word).extractLsb' 0 4 = BitVec.ofNat 4 s.data.ba0.pc.val
      ∧ (0x503 : Word).extractLsb' 4 4 = 0 ∧ (0x503 : Word).extractLsb' 8 8 = s.data.ba0.pv
      ∧ (0x503 : Word).extractLsb' 16 4 = BitVec.ofNat 4 s.data.ba1.pc.val ∧ (0x503 : Word).extractLsb' 20 4 = 0
      ∧ (0x503 : Word).extractLsb' 24 8 = s.data.ba1.pv := ⟨hostAt_ready _ _, by decide⟩
theorem witness_readOnly_first : (hostAt .reset (.read 32 0x14)).hostReady (.read 32 0x14)
    ∧ (0 : Word) = (hostAt .reset (.read 32 0x14)).data.result0 := ⟨hostAt_ready _ _, rfl⟩
theorem witness_readOnly_last : (hostAt .reset (.read 32 0x54)).hostReady (.read 32 0x54)
    ∧ (0 : Word) = BitVec.ofNat 32 (hostAt .reset (.read 32 0x54)).data.clsq.length := ⟨hostAt_ready _ _, rfl⟩
theorem witness_no_register_first : (hostAt .reset (.read 32 0x58)).hostReady (.read 32 0x58)
    ∧ 0x58 ≤ (0x58 : BitVec 8).toNat ∧ (0x58 : BitVec 8).toNat % 4 = 0 := ⟨hostAt_ready _ _, by decide⟩
theorem witness_no_register_last : (hostAt .reset (.read 32 0xFC)).hostReady (.read 32 0xFC)
    ∧ 0x58 ≤ (0xFC : BitVec 8).toNat ∧ (0xFC : BitVec 8).toNat % 4 = 0 := ⟨hostAt_ready _ _, by decide⟩
theorem witness_readOnly_write : (hostAt .reset (.write 32 0x54 5)).hostReady (.write 32 0x54 5)
    ∧ (0x54 : BitVec 8) ∈ ([0x00, 0x08, 0x14, 0x18, 0x1C, 0x24, 0x2C, 0x34, 0x44, 0x48, 0x4C, 0x50, 0x54] : List (BitVec 8)) :=
  ⟨hostAt_ready _ _, by decide⟩
theorem witness_nop_reserved : (running 0x100 []).engineReady ∧ (running 0x100 []).data.pending.extractLsb' 0 8 = 0
    ∧ (running 0x100 []).data.pending ≠ 0 := ⟨⟨.inl rfl, rfl, rfl⟩, by decide, by decide⟩
theorem witness_tblRead_t3 : (running 0x380 []).engineReady ∧ (running 0x380 []).data.pending.extractLsb' 0 8 = 0x80
    ∧ (running 0x380 []).data.pending.extractLsb' 8 2 = 3 := ⟨⟨.inl rfl, rfl, rfl⟩, by decide, by decide⟩
theorem witness_tblWrite_t3 : (running 0x381 []).engineReady ∧ (running 0x381 []).data.pending.extractLsb' 0 8 = 0x81
    ∧ (running 0x381 []).data.pending.extractLsb' 8 2 = 3 := ⟨⟨.inl rfl, rfl, rfl⟩, by decide, by decide⟩
theorem witness_tbl_index_last : (285 : BitVec 16).toNat < TableSel.ll.size ∧ (29 : BitVec 16).toNat < TableSel.d.size
    ∧ (18 : BitVec 16).toNat < TableSel.cl.size := by decide
theorem witness_tbl_index_beyond : TableKind.code ≠ .reserved ∧ TableSel.ll.size ≤ (286 : BitVec 16).toNat
    ∧ TableSel.d.size ≤ (30 : BitVec 16).toNat ∧ TableSel.cl.size ≤ (19 : BitVec 16).toNat := by decide
theorem witness_tblWrite_limits : (busyWith { Data.reset with arg0 := 7 } 0x00121281).data.arg0.toNat ≤ TableSel.cl.lengthLimit
    ∧ TableSel.cl.lengthLimit < (busyWith { Data.reset with arg0 := 8 } 0x00121281).data.arg0.toNat := by decide
theorem witness_baAppend : (64 : BitVec 16).toNat ≤ 64 ∧ ((having { Data.reset with ba0 := ⟨[], 5, 3⟩ }).data.acc .ba0).ok
    ∧ ((having { Data.reset with ba0 := ⟨[], 5, 3⟩ }).data.acc .ba0).bitCount + (64 : BitVec 16).toNat
      < 8 * (Config.outCap + 1) := ⟨by decide, ⟨by decide, by unfold Accum.clean; decide⟩, by decide⟩
theorem witness_baAppend_room : (0 : BitVec 16).toNat ≤ 64 ∧ fullAccum.ok
    ∧ fullAccum.bitCount + (0 : BitVec 16).toNat < 8 * (Config.outCap + 1) :=
  ⟨by decide, fullAccum_ok, by rw [fullAccum_bitCount]; decide⟩
theorem witness_baAppend_overflow : (1 : BitVec 16).toNat ≤ 64 ∧ fullAccum.ok
    ∧ 8 * (Config.outCap + 1) ≤ fullAccum.bitCount + (1 : BitVec 16).toNat :=
  ⟨by decide, fullAccum_ok, by rw [fullAccum_bitCount]; decide⟩
theorem witness_baAppend_operand : 64 < (65 : BitVec 16).toNat := by decide
theorem baDrain_room_of {x : Accum} (h : x.bytes.length = 132096) :
    (having { Data.reset with ba0 := x }).data.outq.length
      + ((having { Data.reset with ba0 := x }).data.acc .ba0).bytes.length ≤ Config.outCap := by
  show 0 + x.bytes.length ≤ 132096
  omega
theorem witness_baDrain_room : (having { Data.reset with ba0 := fullAccum }).data.outq.length
    + ((having { Data.reset with ba0 := fullAccum }).data.acc .ba0).bytes.length ≤ Config.outCap :=
  baDrain_room_of fullAccum_length
theorem baDrain_overflow_of {x : Accum} (h : x.bytes.length = 132096) :
    Config.outCap < (having { Data.reset with ba0 := x, outq := [1] }).data.outq.length
      + ((having { Data.reset with ba0 := x, outq := [1] }).data.acc .ba0).bytes.length := by
  show 132096 < 1 + x.bytes.length
  omega
theorem witness_baDrain_overflow : Config.outCap < (having { Data.reset with ba0 := fullAccum, outq := [1] }).data.outq.length
    + ((having { Data.reset with ba0 := fullAccum, outq := [1] }).data.acc .ba0).bytes.length :=
  baDrain_overflow_of fullAccum_length
theorem witness_baExtend_joins : State.reset.data.ba0.ok
    ∧ State.reset.data.ba0.bitCount + State.reset.data.ba1.bits.length < 8 * (Config.outCap + 1) :=
  ⟨⟨by decide, by unfold Accum.clean; decide⟩, by decide⟩
theorem baExtend_overflow_of {x : Accum} (hok : x.ok) (h : x.bitCount = 1056775) :
    let s := having { Data.reset with ba0 := x, ba1 := ⟨[], 1, 1⟩ }
    s.data.ba0.ok ∧ 8 * (Config.outCap + 1) ≤ s.data.ba0.bitCount + s.data.ba1.bits.length :=
  ⟨hok, Nat.le_of_eq (congrArg (fun n => n + 1) h.symm)⟩
theorem witness_baExtend_overflow :
    let s := having { Data.reset with ba0 := fullAccum, ba1 := ⟨[], 1, 1⟩ }
    s.data.ba0.ok ∧ 8 * (Config.outCap + 1) ≤ s.data.ba0.bitCount + s.data.ba1.bits.length :=
  baExtend_overflow_of fullAccum_ok fullAccum_bitCount
theorem witness_baFlush_none : (State.reset.data.acc .ba0).clean ∧ (State.reset.data.acc .ba0).pc.val = 0 :=
  ⟨by unfold Accum.clean; decide, rfl⟩
theorem witness_baFlush_partial :
    let x := (having { Data.reset with ba0 := ⟨[], 5, 3⟩ }).data.acc .ba0
    x.clean ∧ 0 < x.pc.val ∧ x.bytes.length ≠ Config.outCap := ⟨by unfold Accum.clean; decide, by decide, by decide⟩
theorem witness_baFlush_overflow : fullAccum.clean ∧ 0 < fullAccum.pc.val ∧ fullAccum.bytes.length = Config.outCap :=
  ⟨fullAccum_ok.2, by rw [fullAccum_pc]; decide, fullAccum_length⟩
theorem witness_drain_completes :
    ∃ t, exec (.baDrain .ba0) State.reset = .next t ∧ State.reset.fault = false ∧ t.fault = false := ⟨_, rfl, rfl, rfl⟩
theorem witness_shortCode : 3 + 61 ≤ 64 ∧ (5 : BitVec 64).toNat < 2 ^ 3 := by decide
theorem witness_mf_not_full : (having { Data.reset with window := 1 }).data.mf.length
    < (having { Data.reset with window := 1 }).data.window.toNat := by decide
theorem witness_mf_full : (having mfBefore).data.window.toNat ≤ (having mfBefore).data.mf.length := by decide
theorem witness_mf_window : 1 ≤ 1 := by decide
theorem witness_keyAt : (3 = 2 ∨ 3 = 3) ∧ 1 + 3 ≤ ([1, 2, 3, 4] : List Byte).length ∧ 0 + 3 ≤ ([1, 2, 3, 4] : List Byte).length := by
  decide
theorem witness_legalConfig_reset : State.reset.data.legalConfig ∧ State.reset.data.input.length ≤ Config.inCap := by
  unfold Data.legalConfig
  decide
/-- The configuration at its limits and a full input buffer. -/
def limitData : Data :=
  { Data.reset with window := 32768, keySize := 2, lookback := 255, input := fullInput }
theorem witness_legalConfig_limits : (having limitData).data.legalConfig
    ∧ (having limitData).data.input.length ≤ Config.inCap :=
  ⟨by unfold Data.legalConfig; decide, Nat.le_of_eq fullInput_length⟩
/-- Four bytes 'a' and a window that holds position 0: the candidate at distance 1 has length 3. -/
theorem witness_bestMatch : 1 + 3 ≤ ([0x61, 0x61, 0x61, 0x61] : List Byte).length
    ∧ (0 + 2 : Word) ∈ (mfLocate (keyAt [0x61, 0x61, 0x61, 0x61] 3 1) [⟨0x616161, 2⟩]).take 8
    ∧ candidateDistance 3 1 (0 + 2) ≤ 32768
    ∧ (bestMatch [0x61, 0x61, 0x61, 0x61] 3 8 1 [⟨0x616161, 2⟩]).1 ≠ 0 := by decide +kernel
/-- Five bytes 'a' with the reset configuration: a Literal and then a Reference come before EndOfBlock. -/
theorem witness_symRun_split :
    let s := having { Data.reset with input := [0x61, 0x61, 0x61, 0x61, 0x61] }
    (s.data.legalConfig ∧ s.data.input.length ≤ Config.inCap) ∧ Symbol.reference 4 1 ≠ .endOfBlock
      ∧ ∃ t, exec .symRun s = .next t ∧ t.data.symq = [.literal 0x61] ++ .reference 4 1 :: [.endOfBlock] :=
  ⟨by unfold Data.legalConfig; decide, by decide, exists_of_nextOf (f := fun t => t.data.symq) (by decide +kernel)⟩
/-- SYMQ and CLSQ with each kind of entry, read at the index x. -/
def queues (x : Word) : State :=
  having { Data.reset with symq := [.literal 0x61, .reference 4 1, .endOfBlock], clsq := [⟨18, 127, 7⟩], arg0 := x }
theorem witness_symRead_literal : (queues 0).data.symq[(queues 0).data.arg0.toNat]? = some (.literal 0x61) := rfl
theorem witness_symRead_reference : (queues 1).data.symq[(queues 1).data.arg0.toNat]? = some (.reference 4 1) := rfl
theorem witness_symRead_end : (queues 2).data.symq[(queues 2).data.arg0.toNat]? = some .endOfBlock := rfl
theorem witness_symRead_beyond : (queues 3).data.symq.length ≤ (queues 3).data.arg0.toNat := by decide
theorem witness_clsRead_entry : (queues 0).data.clsq[(queues 0).data.arg0.toNat]? = some ⟨18, 127, 7⟩ := rfl
theorem witness_clsRead_beyond : (queues 1).data.clsq.length ≤ (queues 1).data.arg0.toNat := by decide
/-- Two used D symbols, 0 and 2, and an unused one, 1. -/
theorem witness_hlAssign_two_used :
    let s := having { Data.reset with freqD := words 30 [5, 0, 5] }
    0 < TableSel.d.size ∧ 2 < TableSel.d.size ∧ (0 : Nat) ≠ 2 ∧ (s.data.freqOf .d).get 0 0 ≠ 0 ∧ (s.data.freqOf .d).get 0 2 ≠ 0
      ∧ 1 < TableSel.d.size ∧ (s.data.freqOf .d).get 0 1 = 0 := by decide +kernel
theorem witness_none_used : ∀ i, i < TableSel.d.size → (State.reset.data.freqOf .d).get 0 i = 0 := by decide +kernel
theorem witness_one_used :
    let s := having { Data.reset with freqCL := words 19 (List.replicate 18 0 ++ [9]) }
    18 < TableSel.cl.size ∧ (s.data.freqOf .cl).get 0 18 ≠ 0
      ∧ (∀ i, i < TableSel.cl.size → i ≠ 18 → (s.data.freqOf .cl).get 0 i = 0)
      ∧ 17 = if 18 + 1 < TableSel.cl.size then 18 + 1 else 18 - 1 := by decide +kernel
theorem witness_split_smallest : 2 ≤ ([⟨0, 1⟩, ⟨1, 1⟩] : List Weighted).length
    ∧ ([⟨0, 1⟩, ⟨1, 1⟩] : List Weighted).length ≤ 2 * 2 ^ 0 := by decide
/-- Five equal weights with room: the split grows past size 1, and its size 1 is not yet balanced. -/
theorem witness_split_grows :
    let g : List Weighted := [⟨0, 1⟩, ⟨1, 1⟩, ⟨2, 1⟩, ⟨3, 1⟩, ⟨4, 1⟩]
    2 ≤ g.length ∧ g.length ≤ 2 * 2 ^ 2 ∧ max 1 (g.length - 2 ^ 2) ≤ 1 ∧ 1 < leftSize (2 ^ 2) g := by decide
theorem witness_split_used :
    2 ≤ (usedSorted (((having { Data.reset with freqD := words 30 [5, 0, 5] }).data.freqOf .d).entries.map BitVec.toNat)).length := by
  decide +kernel
/-- Lengths 1 and 1: the Kraft sum is exactly 1. -/
theorem witness_kraft_one :
    kraft ((having { Data.reset with lenD := words 30 [1, 1] }).data.lenOf .d).entries ≤ 2 ^ 15 := by decide +kernel
/-- Lengths 2, 2 and 1 at the symbols 0 to 2: 0 and 1 are neighbours of one length, 2 is shorter, and 1 is the last. -/
theorem witness_kraft_order :
    let d := (having { Data.reset with lenD := words 30 [2, 2, 1] }).data
    kraft (d.lenOf .d).entries = 2 ^ 15 ∧ (d.lenOf .d).get 0 0 = (d.lenOf .d).get 0 1
      ∧ ((d.lenOf .d).get 0 2).toNat < ((d.lenOf .d).get 0 0).toNat ∧ 0 < ((d.lenOf .d).get 0 2).toNat
      ∧ ∀ m, m < TableSel.d.size → ((d.lenOf .d).get 0 m).toNat < ((d.lenOf .d).get 0 1).toNat
          ∨ (((d.lenOf .d).get 0 m).toNat = ((d.lenOf .d).get 0 1).toNat ∧ m ≤ 1) := by decide +kernel
theorem witness_oversubscribed :
    2 ^ 15 < kraft ((having { Data.reset with lenD := words 30 [1, 1, 1] }).data.lenOf .d).entries := by decide +kernel
theorem witness_lcode_ranges : (⟨284, 5, 227, 257⟩ : CodeRow) ∈ lengthRows ∧ (⟨285, 0, 258, 258⟩ : CodeRow) ∈ lengthRows
    ∧ (2 < 3 ∨ 258 < 2) ∧ (259 < 3 ∨ 258 < 259) := by decide
theorem witness_dcode_ranges : (⟨29, 13, 24577, 32768⟩ : CodeRow) ∈ distanceRows ∧ (0 < 1 ∨ 32768 < 0)
    ∧ (32769 < 1 ∨ 32768 < 32769) := by decide
theorem witness_blkHeader : ((having headerData).data.acc .ba0).ok
    ∧ (∀ e ∈ (having headerData).data.clsq, ((having headerData).data.codeCL.get ⟨0, 0⟩ e.sym.val).width ≠ 0)
    ∧ ((having headerData).data.acc .ba0).bitCount + (74 + ((having headerData).data.clsq.map fun e =>
        ((having headerData).data.codeCL.get ⟨0, 0⟩ e.sym.val).width.toNat + e.xw.toNat).sum) < 8 * (Config.outCap + 1) :=
  ⟨⟨by decide, by unfold Accum.clean; decide⟩, by decide +kernel, by decide +kernel⟩
theorem witness_blkHeader_overflow :
    let s := having { headerData with ba0 := fullAccum }
    (s.data.acc .ba0).ok ∧ (∀ e ∈ s.data.clsq, (s.data.codeCL.get ⟨0, 0⟩ e.sym.val).width ≠ 0)
      ∧ 8 * (Config.outCap + 1) ≤ (s.data.acc .ba0).bitCount + (74 + (s.data.clsq.map fun e =>
        (s.data.codeCL.get ⟨0, 0⟩ e.sym.val).width.toNat + e.xw.toNat).sum) := by
  refine ⟨fullAccum_ok, by show ∀ e ∈ headerData.clsq, _; decide +kernel, ?_⟩
  refine Nat.le_trans ?_ (Nat.add_le_add_left (Nat.le_add_right 74 _) _)
  show 8 * (Config.outCap + 1) ≤ fullAccum.bitCount + 74
  rw [fullAccum_bitCount]
  decide
theorem bodyData_symbols : ∀ x ∈ bodyData.symq, x.inRange ∧ hasCodes bodyData x := by
  simp only [bodyData, List.mem_cons, List.not_mem_nil, or_false, forall_eq_or_imp, forall_eq]
  exact ⟨⟨trivial, by unfold hasCodes; decide +kernel⟩, trivial, by unfold hasCodes; decide +kernel⟩
theorem witness_blkBody : ((having bodyData).data.acc .ba0).ok
    ∧ (∀ x ∈ (having bodyData).data.symq, x.inRange ∧ hasCodes (having bodyData).data x)
    ∧ ((having bodyData).data.acc .ba0).bitCount + (blockBody (having bodyData).data).length < 8 * (Config.outCap + 1) :=
  ⟨⟨by decide, by unfold Accum.clean; decide⟩, bodyData_symbols, by decide +kernel⟩
theorem blkBody_overflow_of {a : Accum} (hok : a.ok) (h : a.bitCount = 1056775) :
    let s := having { bodyData with ba0 := a }
    (s.data.acc .ba0).ok ∧ (∀ x ∈ s.data.symq, x.inRange ∧ hasCodes s.data x)
      ∧ 8 * (Config.outCap + 1) ≤ (s.data.acc .ba0).bitCount + (blockBody s.data).length := by
  refine ⟨hok, fun x hx => ⟨(bodyData_symbols x hx).1, by have hc := (bodyData_symbols x hx).2; cases x <;> exact hc⟩, ?_⟩
  have hb : 1 ≤ (blockBody { bodyData with ba0 := a }).length := by
    show 1 ≤ (blockBody bodyData).length
    decide +kernel
  exact Nat.le_trans (Nat.le_of_eq (congrArg (fun n => n + 1) h.symm)) (Nat.add_le_add_left hb _)
theorem witness_blkBody_overflow :
    let s := having { bodyData with ba0 := fullAccum }
    (s.data.acc .ba0).ok ∧ (∀ x ∈ s.data.symq, x.inRange ∧ hasCodes s.data x)
      ∧ 8 * (Config.outCap + 1) ≤ (s.data.acc .ba0).bitCount + (blockBody s.data).length :=
  blkBody_overflow_of fullAccum_ok fullAccum_bitCount
theorem witness_noCode_header :
    let s := having { headerData with clsq := [⟨18, 127, 7⟩, ⟨17, 0, 3⟩, ⟨18, 0, 7⟩] }
    (s.data.acc .ba0).ok ∧ s.data.clsq = [⟨18, 127, 7⟩] ++ ⟨17, 0, 3⟩ :: [⟨18, 0, 7⟩]
      ∧ (∀ x ∈ ([⟨18, 127, 7⟩] : List ClsEntry), (s.data.codeCL.get ⟨0, 0⟩ x.sym.val).width ≠ 0)
      ∧ (s.data.codeCL.get ⟨0, 0⟩ (⟨17, 0, 3⟩ : ClsEntry).sym.val).width = 0
      ∧ (s.data.acc .ba0).bitCount + (blockHeader { s.data with clsq := [⟨18, 127, 7⟩] } true).length
        < 8 * (Config.outCap + 1) :=
  ⟨⟨by decide, by unfold Accum.clean; decide⟩, rfl, by decide +kernel, by decide +kernel, by decide +kernel⟩
theorem noCode_overflow_of {a : Accum} (hok : a.ok) (h : a.bitCount = 1056775) :
    let s := having { Data.reset with clsq := [⟨18, 127, 7⟩], ba0 := a }
    (s.data.acc .ba0).ok ∧ (s.data.codeCL.get ⟨0, 0⟩ (⟨18, 127, 7⟩ : ClsEntry).sym.val).width = 0
      ∧ ¬ (s.data.acc .ba0).bitCount + (blockHeader { s.data with clsq := [] } true).length < 8 * (Config.outCap + 1) := by
  refine ⟨hok, by show (Data.reset.codeCL.get ⟨0, 0⟩ 18).width = 0; decide +kernel, ?_⟩
  have hb : 1 ≤ (blockHeader { Data.reset with clsq := [], ba0 := a } true).length := by
    show 1 ≤ (blockHeader { Data.reset with clsq := [] } true).length
    decide +kernel
  exact Nat.not_lt.mpr (Nat.le_trans (Nat.le_of_eq (congrArg (fun n => n + 1) h.symm)) (Nat.add_le_add_left hb _))
theorem witness_noCode_header_overflow :
    let s := having { Data.reset with clsq := [⟨18, 127, 7⟩], ba0 := fullAccum }
    (s.data.acc .ba0).ok ∧ (s.data.codeCL.get ⟨0, 0⟩ (⟨18, 127, 7⟩ : ClsEntry).sym.val).width = 0
      ∧ ¬ (s.data.acc .ba0).bitCount + (blockHeader { s.data with clsq := [] } true).length < 8 * (Config.outCap + 1) :=
  noCode_overflow_of fullAccum_ok fullAccum_bitCount
/-- A Literal with a code, a Reference whose length has a code and whose distance has none, and EndOfBlock. -/
def noDistanceCode : Data :=
  { Data.reset with
    symq := [.literal 0x61, .reference 3 1, .endOfBlock]
    codeLL := ((Table.fill ⟨0, 0⟩).set 97 ⟨0, 2⟩).set 257 ⟨1, 2⟩ }
theorem witness_noCode_body :
    let d := (having noDistanceCode).data
    (d.acc .ba0).ok ∧ d.symq = [.literal 0x61] ++ .reference 3 1 :: [.endOfBlock]
      ∧ (∀ y ∈ [Symbol.literal 0x61], y.inRange ∧ hasCodes d y) ∧ (Symbol.reference 3 1).inRange
      ∧ ¬ hasCodes d (.reference 3 1)
      ∧ (d.acc .ba0).bitCount + (blockBody { d with symq := [.literal 0x61] } ++ bitsBeforeMissing d (.reference 3 1)).length
        < 8 * (Config.outCap + 1) :=
  ⟨⟨by decide, by unfold Accum.clean; decide⟩, rfl, fun y hy => by
      obtain rfl := List.mem_singleton.mp hy
      exact ⟨trivial, by unfold hasCodes; decide +kernel⟩,
    by unfold Symbol.inRange; decide, by unfold hasCodes; decide +kernel, by decide +kernel⟩
/-- The code of the Reference's length stands before the missing one: its two bits do not fit a full accumulator. -/
theorem noCode_body_overflow_of {a : Accum} (hok : a.ok) (h : a.bitCount = 1056775) :
    let d := (having { noDistanceCode with symq := [.reference 3 1], ba0 := a }).data
    (d.acc .ba0).ok ∧ d.symq = [] ++ .reference 3 1 :: [] ∧ (Symbol.reference 3 1).inRange ∧ ¬ hasCodes d (.reference 3 1)
      ∧ ¬ (d.acc .ba0).bitCount + (blockBody { d with symq := [] } ++ bitsBeforeMissing d (.reference 3 1)).length
        < 8 * (Config.outCap + 1) := by
  refine ⟨hok, rfl, witness_noCode_body.2.2.2.1, witness_noCode_body.2.2.2.2.1, ?_⟩
  have hb : 1 ≤ (bitsBeforeMissing noDistanceCode (.reference 3 1)).length := by decide +kernel
  exact Nat.not_lt.mpr (Nat.le_trans (Nat.le_of_eq (congrArg (fun n => n + 1) h.symm)) (Nat.add_le_add_left hb _))
theorem witness_noCode_body_overflow :
    let d := (having { noDistanceCode with symq := [.reference 3 1], ba0 := fullAccum }).data
    (d.acc .ba0).ok ∧ d.symq = [] ++ .reference 3 1 :: [] ∧ (Symbol.reference 3 1).inRange ∧ ¬ hasCodes d (.reference 3 1)
      ∧ ¬ (d.acc .ba0).bitCount + (blockBody { d with symq := [] } ++ bitsBeforeMissing d (.reference 3 1)).length
        < 8 * (Config.outCap + 1) :=
  noCode_body_overflow_of fullAccum_ok fullAccum_bitCount
theorem witness_blkEncode_empty : State.reset.data.input = [] ∧ State.reset.data.ba0.ok
    ∧ State.reset.data.outq.length + (State.reset.data.ba0.bitCount + 111) / 8 ≤ Config.outCap :=
  ⟨rfl, ⟨by decide, by unfold Accum.clean; decide⟩, by decide⟩
theorem witness_blkEncode : (having limitData).data.legalConfig ∧ (having limitData).data.input.length ≤ Config.inCap
    ∧ (having limitData).data.ba0.ok
    ∧ (having limitData).data.ba0.bytes.length + (having limitData).data.outq.length
      + 2 * (having limitData).data.input.length + 566 ≤ Config.outCap := by
  refine ⟨witness_legalConfig_limits.1, witness_legalConfig_limits.2, ⟨by decide, by unfold Accum.clean; decide⟩, ?_⟩
  have h : (having limitData).data.input.length = 65536 := fullInput_length
  have hb : (having limitData).data.ba0.bytes.length = 0 := rfl
  have ho : (having limitData).data.outq.length = 0 := rfl
  rw [h, hb, ho]
  decide
theorem bodyData_coded : ∀ i, i < 286 → (bodyData.codeLL.get ⟨0, 0⟩ i).width ≠ 0 → i = 97 ∨ i = 256 := by decide +kernel
theorem noCode_fill : ∀ i, i < 30 → (bodyData.codeD.get ⟨0, 0⟩ i).width = 0 := by decide +kernel
theorem witness_decode_uniquely : prefixFree bodyData.codeLL ∧ prefixFree bodyData.codeD
    ∧ (∀ x ∈ [Symbol.literal 0x61], x ≠ .endOfBlock ∧ x.inRange ∧ hasCodes bodyData x) ∧ hasCodes bodyData .endOfBlock
    ∧ [Symbol.literal 0x61].flatMap (symbolBits bodyData) ++ symbolBits bodyData .endOfBlock ++ [true]
      = [Symbol.literal 0x61].flatMap (symbolBits bodyData) ++ symbolBits bodyData .endOfBlock ++ [true] := by
  refine ⟨fun i j hi hj hne hwi hwj => ?_, fun i j hi _ _ hwi _ => absurd (noCode_fill i hi) hwi, fun x hx => ?_,
    (bodyData_symbols .endOfBlock (by simp [bodyData])).2, rfl⟩
  · obtain rfl | rfl := bodyData_coded i hi hwi <;> obtain rfl | rfl := bodyData_coded j hj hwj
    · exact absurd rfl hne
    · decide +kernel
    · decide +kernel
    · exact absurd rfl hne
  · obtain rfl := List.mem_singleton.mp hx
    exact ⟨by decide, bodyData_symbols _ (by simp [bodyData])⟩
theorem witness_blkEncode_completes : ∃ t, exec (.blkEncode true) State.reset = .next t ∧ t.fault = false :=
  exists_of_nextOf (f := fun t => t.fault) (by decide +kernel)
theorem witness_command_completes :
    ∃ t, Instr.mfRegister ≠ .softReset ∧ (having mfBefore).fault = false ∧ exec .mfRegister (having mfBefore) = .next t
      ∧ t.fault = false := ⟨_, by decide, rfl, rfl, rfl⟩
theorem witness_StateOk_step : ∃ t, State.reset.ok ∧ step State.reset = .next t := by
  refine ⟨_, ⟨by decide, fun _ => by decide, fun _ => ?_, fun h => by cases h⟩, rfl⟩
  constructor
  case legal => unfold Data.legalConfig; decide
  case lenCL => decide +kernel
  case codeLL => unfold CodeEntry.inRange; decide +kernel
  case codeD => unfold CodeEntry.inRange; decide +kernel
  case codeCL => unfold CodeEntry.inRange; decide +kernel
  case ba0 => exact ⟨by decide, by unfold Accum.clean; decide⟩
  case ba1 => exact ⟨by decide, by unfold Accum.clean; decide⟩
  all_goals simp [State.reset, Data.reset]

end Sys2Proof.Tests
end

section
/-! PROOFS. What each command's operation on the data can do when it completes: one inversion lemma per operation that
checks something or can fault. With them every command but SOFT_RESET is `runCommand` of its operation, and a
property that the unit commands keep is kept by BLK_ENCODE, which runs them in turn (R230). -/

namespace Sys2Proof.Machine

/-! ### `Except` -/

theorem bind_eq_ok {ε α β : Type} {x : Except ε α} {f : α → Except ε β} {b : β} :
    (x >>= f) = .ok b ↔ ∃ a, x = .ok a ∧ f a = .ok b := by
  cases x <;> simp [bind, Except.bind]

theorem map_eq_ok {ε α β : Type} {x : Except ε α} {f : α → β} {b : β} :
    x.map f = .ok b ↔ ∃ a, x = .ok a ∧ f a = b := by
  cases x <;> simp [Except.map]

theorem pure_eq_ok {ε α : Type} {a b : α} : (pure a : Except ε α) = .ok b ↔ a = b := by
  simp [pure, Except.pure]

/-! ### The operations -/

theorem baAppendOp_ok {a : AccSel} {n : BitVec 16} {d d' : Data} (h : baAppendOp a n d = .ok d') :
    n.toNat ≤ Config.maxShortCode ∧ ∃ x, (d.acc a).append d.body n.toNat = .ok x ∧ d' = d.setAcc a x := by
  unfold baAppendOp at h
  split at h
  · cases h
  · next hn =>
    obtain ⟨x, hx, rfl⟩ := map_eq_ok.mp h
    exact ⟨Nat.not_lt.mp hn, x, hx, rfl⟩

theorem baDrainOp_ok {a : AccSel} {d d' : Data} (h : baDrainOp a d = .ok d') :
    d.outq.length + (d.acc a).bytes.length ≤ Config.outCap
      ∧ d' = { d.setAcc a { d.acc a with bytes := [] } with
          outq := d.outq ++ (d.acc a).bytes
          result0 := BitVec.ofNat 32 (d.acc a).bytes.length } := by
  simp only [baDrainOp] at h
  split at h
  · cases h
  · next hroom =>
    cases h
    exact ⟨Nat.not_lt.mp hroom, rfl⟩

theorem baExtendOp_ok {d d' : Data} (h : baExtendOp d = .ok d') :
    ∃ x, d.ba0.appendBits d.ba1.bits = .ok x ∧ d' = { d with ba0 := x, ba1 := .empty } := by
  obtain ⟨x, hx, rfl⟩ := map_eq_ok.mp h
  exact ⟨x, hx, rfl⟩

theorem baFlushOp_ok {a : AccSel} {d d' : Data} (h : baFlushOp a d = .ok d') :
    d' = { d with result0 := 0 }
      ∨ (d.acc a).bytes.length ≠ Config.outCap
        ∧ d' = { d.setAcc a ⟨(d.acc a).bytes ++ [(d.acc a).pv], 0, 0⟩ with result0 := 1 } := by
  simp only [baFlushOp] at h
  split at h
  · split at h
    · cases h
    · next hroom =>
      cases h
      exact .inr ⟨hroom, rfl⟩
  · cases h
    exact .inl rfl

theorem symRunOp_ok {d d' : Data} (h : symRunOp d = .ok d') :
    ∃ ll dist, countSymbols (symbolize d).1 (.fill 0, .fill 0) = .ok (ll, dist)
      ∧ d' = { d with
          symq := (symbolize d).1, mf := (symbolize d).2, freqLL := ll, freqD := dist
          result0 := BitVec.ofNat 32 (symbolize d).1.length } := by
  obtain ⟨⟨ll, dist⟩, hc, hr⟩ := bind_eq_ok.mp h
  exact ⟨ll, dist, hc, (pure_eq_ok.mp hr).symm⟩

theorem hlAssignOp_ok {t : TableSel} {d d' : Data} (h : hlAssignOp t d = .ok d') :
    ∃ lens, assignLengths ((d.freqOf t).entries.map BitVec.toNat) t.size t.lengthLimit = .ok lens
      ∧ d' = { d.setLen t (.build t.size fun s => BitVec.ofNat 4 (lens.getD s 0)) with
          result0 := BitVec.ofNat 32 (maxOf lens) } := by
  obtain ⟨lens, hl, hr⟩ := bind_eq_ok.mp h
  exact ⟨lens, hl, (pure_eq_ok.mp hr).symm⟩

theorem ccBuildOp_ok {t : TableSel} {d d' : Data} (h : ccBuildOp t d = .ok d') :
    ∃ pairs, buildPairs ((d.lenOf t).entries.map BitVec.toNat) = .ok pairs
      ∧ d' = { d.setCode t (.build t.size (codeIn pairs)) with
          result0 := BitVec.ofNat 32 (((d.lenOf t).entries.map BitVec.toNat).filter fun l => 0 < l).length } := by
  obtain ⟨pairs, hp, hr⟩ := bind_eq_ok.mp h
  exact ⟨pairs, hp, (pure_eq_ok.mp hr).symm⟩

theorem blkHeaderOp_ok {a : AccSel} {f : Bool} {d d' : Data} (h : blkHeaderOp a f d = .ok d') :
    ∃ x, appendHeader d f (d.acc a) = .ok x
      ∧ d' = { d.setAcc a x with result0 := BitVec.ofNat 32 (x.bitCount - (d.acc a).bitCount) } := by
  obtain ⟨x, hx, hr⟩ := bind_eq_ok.mp h
  exact ⟨x, hx, (pure_eq_ok.mp hr).symm⟩

theorem blkBodyOp_ok {a : AccSel} {d d' : Data} (h : blkBodyOp a d = .ok d') :
    ∃ x, appendSymbols d d.symq (d.acc a) = .ok x
      ∧ d' = { d.setAcc a x with result0 := BitVec.ofNat 32 (x.bitCount - (d.acc a).bitCount) } := by
  obtain ⟨x, hx, hr⟩ := bind_eq_ok.mp h
  exact ⟨x, hx, (pure_eq_ok.mp hr).symm⟩

theorem tblReadOp_ok {t : TableSel} {kd : TableKind} {idx : BitVec 16} {d d' : Data}
    (h : tblReadOp t kd idx d = .ok d') :
    ∃ v w, d' = { d with result0 := v, result1 := w } ∧ (kd ≠ .code → w = d.result1) := by
  unfold tblReadOp at h
  split at h
  · cases h
  · split at h
    · cases h
    · cases kd with
      | freq => cases h; exact ⟨_, _, rfl, fun _ => rfl⟩
      | len => cases h; exact ⟨_, _, rfl, fun _ => rfl⟩
      | code => cases h; exact ⟨_, _, rfl, fun hne => absurd rfl hne⟩
      | reserved => cases h

theorem tblWriteOp_ok {t : TableSel} {kd : TableKind} {idx : BitVec 16} {d d' : Data}
    (h : tblWriteOp t kd idx d = .ok d') :
    d' = d.setFreq t ((d.freqOf t).set idx.toNat d.arg0)
      ∨ d.arg0.toNat ≤ t.lengthLimit
        ∧ d' = d.setLen t ((d.lenOf t).set idx.toNat (d.arg0.extractLsb' 0 4)) := by
  unfold tblWriteOp at h
  split at h
  · cases h
  · split at h
    · cases h
    · cases kd with
      | freq => cases h; exact .inl rfl
      | len =>
        simp only at h
        split at h
        · cases h
        · next hv => cases h; exact .inr ⟨Nat.not_lt.mp hv, rfl⟩
      | code => cases h
      | reserved => cases h

/-! ### A command as `runCommand` of its operation -/

end Sys2Proof.Machine

namespace Sys2Proof

open Machine in
/-- The operation on the block's data that a command runs; for SOFT_RESET, which is no `runCommand`, the data it
leaves. -/
def Instr.op : Instr → Data → Except FaultKind Data
  | .nop => .ok
  | .softReset => fun _ => .ok .reset
  | .baAppend a n => baAppendOp a n
  | .baDrain a => baDrainOp a
  | .baExtend => baExtendOp
  | .baFlush a => baFlushOp a
  | .baClear a => baClearOp a
  | .mfReset => mfResetOp
  | .mfRegister => mfRegisterOp
  | .mfLocate => mfLocateOp
  | .inClear => inClearOp
  | .symRun => symRunOp
  | .symRead => symReadOp
  | .hlAssign t => hlAssignOp t
  | .ccBuild t => ccBuildOp t
  | .ctRle => ctRleOp
  | .clsRead => clsReadOp
  | .blkHeader a f => blkHeaderOp a f
  | .blkBody a => blkBodyOp a
  | .blkEncode f => blkEncodeOp f
  | .tblRead t kd idx => tblReadOp t kd idx
  | .tblWrite t kd idx => tblWriteOp t kd idx

/-- The commands that are one unit's operation: all but SOFT_RESET and BLK_ENCODE, which is made of others (R230). -/
def Instr.isUnit : Instr → Prop
  | .softReset => False
  | .blkEncode _ => False
  | _ => True

end Sys2Proof

namespace Sys2Proof.Machine

theorem exec_eq_runCommand {i : Instr} (h : i ≠ .softReset) (s : State) : exec i s = runCommand i.op s := by
  cases i
  case softReset => exact absurd rfl h
  all_goals rfl

/-- The operation keeps the property P of the data: where it completes, P holds of the data it leaves. -/
def Keeps (P : Data → Prop) (f : Data → Except FaultKind Data) : Prop := ∀ d d', P d → f d = .ok d' → P d'

/-- A property that the unit commands and a write of the result registers keep is kept by BLK_ENCODE (R230). -/
theorem keeps_blkEncodeOp {P : Data → Prop} (hunit : ∀ i : Instr, i.isUnit → Keeps P i.op)
    (hres : ∀ d v w, P d → P { d with result0 := v, result1 := w }) (f : Bool) : Keeps P (blkEncodeOp f) := by
  intro d d' hd h
  simp only [blkEncodeOp, bind_eq_ok, pure_eq_ok] at h
  obtain ⟨d1, h1, d2, h2, d3, h3, d4, h4, d5, h5, d6, h6, d7, h7, d8, h8, d9, h9, d10, h10, d11, h11, d12, h12, d13, h13,
    d14, h14, rfl⟩ := h
  have p1 := hunit .symRun trivial _ _ hd h1
  have p2 := hunit (.hlAssign .ll) trivial _ _ p1 h2
  have p3 := hunit (.hlAssign .d) trivial _ _ p2 h3
  have p4 := hunit (.ccBuild .ll) trivial _ _ p3 h4
  have p5 := hunit (.ccBuild .d) trivial _ _ p4 h5
  have p6 := hunit .ctRle trivial _ _ p5 h6
  have p7 := hunit (.hlAssign .cl) trivial _ _ p6 h7
  have p8 := hunit (.ccBuild .cl) trivial _ _ p7 h8
  have p9 := hunit (.baClear .ba1) trivial _ _ p8 h9
  have p10 := hunit (.blkHeader .ba1 f) trivial _ _ p9 h10
  have p11 := hunit (.blkBody .ba1) trivial _ _ p10 h11
  have p12 := hunit .baExtend trivial _ _ p11 h12
  have p13 := hunit (.baDrain .ba0) trivial _ _ p12 h13
  have p14 := hunit .inClear trivial _ _ p13 h14
  exact hres _ _ _ p14

end Sys2Proof.Machine
end

section
/-! PROOFS. What SYM_RUN makes of the input (R151, R152): the window it has at each position is `windowBefore`, the best
match there is that of one of the candidates examined, and each symbol is the one chosen for it. -/

namespace Sys2Proof.Machine

/-! ### The window at each position (R131, R152) -/

/-- The entry SYM_RUN registers for position p. -/
def positionEntry (bytes : List Byte) (k p : Nat) : MfEntry := ⟨keyAt bytes k p, BitVec.ofNat 32 (p + k - 1)⟩

/-- The entries of the positions below i that have K bytes, in order. -/
def entriesBefore (d : Data) (i : Nat) : List MfEntry :=
  (List.range (min i (d.input.length + 1 - d.keySize.toNat))).map (positionEntry d.input d.keySize.toNat)

theorem windowBefore_eq (d : Data) (i : Nat) :
    windowBefore d i = (entriesBefore d i).drop ((entriesBefore d i).length - d.window.toNat) := rfl

theorem windowBefore_zero (d : Data) : windowBefore d 0 = [] := by
  simp [windowBefore_eq, entriesBefore]

theorem entriesBefore_succ {d : Data} {p : Nat} (h : p + d.keySize.toNat ≤ d.input.length) :
    entriesBefore d (p + 1) = entriesBefore d p ++ [positionEntry d.input d.keySize.toNat p] := by
  unfold entriesBefore
  rw [Nat.min_eq_left (by omega), Nat.min_eq_left (by omega), List.range_succ, List.map_append]
  rfl

theorem entriesBefore_of_le {d : Data} {i j : Nat} (hi : d.input.length + 1 ≤ i + d.keySize.toNat)
    (hj : d.input.length + 1 ≤ j + d.keySize.toNat) : entriesBefore d i = entriesBefore d j := by
  unfold entriesBefore
  rw [Nat.min_eq_right (by omega), Nat.min_eq_right (by omega)]

/-- Registering an entry in the last w of a sequence of entries gives the last w of the longer sequence (R131). -/
theorem mfRegister_drop (w : Nat) (e : MfEntry) (es : List MfEntry) :
    mfRegister w e (es.drop (es.length - w)) = (es ++ [e]).drop ((es ++ [e]).length - w) := by
  have hlen : (es.drop (es.length - w)).length = min es.length w := by simp; omega
  unfold mfRegister
  rw [List.length_append, hlen, List.length_append, List.length_singleton]
  by_cases h : es.length < w
  · rw [if_neg (by omega), Nat.sub_eq_zero_of_le (by omega), Nat.sub_eq_zero_of_le (by omega)]
    rfl
  · rw [if_pos (by omega), ← List.drop_append_of_le_length (by omega), List.drop_drop]
    congr 1
    omega

/-- An advance from position p turns the window there into the window where it ends (R152). -/
theorem registerSpan_windowBefore (d : Data) (adv p : Nat) :
    registerSpan d.input d.window.toNat d.keySize.toNat p adv (windowBefore d p) = windowBefore d (p + adv) := by
  induction adv generalizing p with
  | zero => rfl
  | succ adv ih =>
    have hstep : (if p + d.keySize.toNat ≤ d.input.length then
        mfRegister d.window.toNat (positionEntry d.input d.keySize.toNat p) (windowBefore d p) else windowBefore d p)
          = windowBefore d (p + 1) := by
      split
      · next h => rw [windowBefore_eq, windowBefore_eq, mfRegister_drop, ← entriesBefore_succ h]
      · next h =>
        rw [windowBefore_eq, windowBefore_eq, entriesBefore_of_le (i := p) (j := p + 1) (by omega) (by omega)]
    have hspan := ih (p + 1)
    rw [← hstep] at hspan
    rw [show p + (adv + 1) = p + 1 + adv by omega, ← hspan]
    rfl

/-- At and beyond the end of the input the window is the final one. -/
theorem windowBefore_of_ge {d : Data} {i : Nat} (hk : 1 ≤ d.keySize.toNat) (h : d.input.length ≤ i) :
    windowBefore d i = windowBefore d d.input.length := by
  rw [windowBefore_eq, windowBefore_eq, entriesBefore_of_le (i := i) (j := d.input.length) (by omega) (by omega)]

theorem length_windowBefore_le (d : Data) (i : Nat) : (windowBefore d i).length ≤ d.window.toNat := by
  rw [windowBefore_eq, List.length_drop]
  omega

/-- An entry of the window at i is that of a position below i, and of the last W that have K bytes. -/
theorem mem_windowBefore {d : Data} {i : Nat} {e : MfEntry} (h : e ∈ windowBefore d i) :
    ∃ p, p < i ∧ p + d.keySize.toNat ≤ d.input.length
      ∧ min i (d.input.length + 1 - d.keySize.toNat) ≤ p + d.window.toNat
      ∧ e = positionEntry d.input d.keySize.toNat p := by
  rw [windowBefore_eq] at h
  obtain ⟨j, hj, rfl⟩ := List.mem_drop_iff_getElem.mp h
  simp only [entriesBefore, List.length_map, List.length_range] at hj ⊢
  refine ⟨_, ?_, ?_, ?_, List.getElem_map ..⟩ <;> rw [List.getElem_range] <;> omega

/-! ### The best match (R152, R156) -/

theorem commonPrefix_le_cap (cap : Nat) (xs ys : List Byte) : commonPrefix cap xs ys ≤ cap := by
  induction cap generalizing xs ys with
  | zero => simp [commonPrefix]
  | succ cap ih =>
    cases xs with
    | nil => simp [commonPrefix]
    | cons x xs =>
      cases ys with
      | nil => simp [commonPrefix]
      | cons y ys =>
        rw [commonPrefix]
        split
        · exact Nat.succ_le_succ (ih xs ys)
        · exact Nat.zero_le _

/-- Everything one candidate can do: leave the best match, or replace it when its distance is in the format's range. -/
theorem considerCandidate_cases (bytes : List Byte) (k i : Nat) (best : Nat × Nat) (e : Word) :
    considerCandidate bytes k i best e = best
      ∨ candidateDistance k i e ≤ Config.maxDist
        ∧ considerCandidate bytes k i best e = (candidateLength bytes k i e, candidateDistance k i e) := by
  simp only [considerCandidate]
  split
  · exact .inl rfl
  · next hdist =>
    split
    · exact .inr ⟨Nat.not_lt.mp hdist, rfl⟩
    · exact .inl rfl

/-- The best match after some candidates is the one before them, or that of one of them. -/
theorem foldl_considerCandidate_cases (bytes : List Byte) (k i : Nat) (es : List Word) (best : Nat × Nat) :
    es.foldl (considerCandidate bytes k i) best = best
      ∨ ∃ e ∈ es, candidateDistance k i e ≤ Config.maxDist
        ∧ es.foldl (considerCandidate bytes k i) best = (candidateLength bytes k i e, candidateDistance k i e) := by
  induction es generalizing best with
  | nil => exact .inl rfl
  | cons e es ih =>
    rw [List.foldl_cons]
    rcases ih (considerCandidate bytes k i best e) with h | ⟨e', he', hd, h⟩
    · rcases considerCandidate_cases bytes k i best e with hc | ⟨hd, hc⟩
      · exact .inl (h.trans hc)
      · exact .inr ⟨e, List.mem_cons_self, hd, h.trans hc⟩
    · exact .inr ⟨e', List.mem_cons_of_mem _ he', hd, h⟩

/-- The best match at a position is none, or that of one of the candidates examined there. -/
theorem bestMatch_cases (bytes : List Byte) (k lb i : Nat) (mf : List MfEntry) :
    bestMatch bytes k lb i mf = (0, 0)
      ∨ ∃ e ∈ nearCandidates bytes k lb i mf, candidateDistance k i e ≤ Config.maxDist
        ∧ bestMatch bytes k lb i mf = (candidateLength bytes k i e, candidateDistance k i e) := by
  unfold bestMatch nearCandidates
  split
  · exact foldl_considerCandidate_cases bytes k i _ (0, 0)
  · exact .inl rfl

/-- A candidate examined at position i starts at a position before i, and at most W before it. -/
theorem nearCandidates_distance {d : Data} {i : Nat} {e : Word} (hk : 1 ≤ d.keySize.toNat)
    (hfit : d.input.length ≤ Config.inCap)
    (h : e ∈ nearCandidates d.input d.keySize.toNat d.lookback.toNat i (windowBefore d i)) :
    1 ≤ candidateDistance d.keySize.toNat i e ∧ candidateDistance d.keySize.toNat i e ≤ d.window.toNat := by
  unfold nearCandidates at h
  split at h
  · obtain ⟨x, hx, -, rfl⟩ := mem_mfLocate.mp (List.mem_of_mem_take h)
    obtain ⟨p, hpi, hpn, hpw, rfl⟩ := mem_windowBefore hx
    have hcap : Config.inCap = 65536 := rfl
    have hpos : (positionEntry d.input d.keySize.toNat p).pos.toNat = p + d.keySize.toNat - 1 :=
      Nat.mod_eq_of_lt (by omega)
    rw [candidateDistance, hpos]
    omega
  · exact absurd h List.not_mem_nil

/-! ### The symbols (R43, R151) -/

/-- The symbol SYM_RUN emits when it comes to position i, and how far it advances (R152). -/
def choiceAt (d : Data) (i : Nat) : Symbol × Nat :=
  chooseSymbol d.input i (bestMatch d.input d.keySize.toNat d.lookback.toNat i (windowBefore d i))

theorem choiceAt_advance_pos (d : Data) (i : Nat) : 1 ≤ (choiceAt d i).2 := by
  unfold choiceAt chooseSymbol
  split
  · next h => exact Nat.le_trans (by decide) h
  · exact Nat.le_refl 1

/-- What R43 and R151 say of a symbol before EndOfBlock. -/
def blockSymbol (d : Data) (x : Symbol) : Prop :=
  x ≠ .endOfBlock ∧ x.inRange ∧ x.withinWindow d.window.toNat ∧ ∀ b, x = .literal b → b ∈ d.input

theorem choiceAt_blockSymbol {d : Data} {i : Nat} (hk : 1 ≤ d.keySize.toNat) (hfit : d.input.length ≤ Config.inCap)
    (hi : i < d.input.length) : blockSymbol d (choiceAt d i).1 := by
  unfold choiceAt chooseSymbol
  split
  · next hlen =>
    rcases bestMatch_cases d.input d.keySize.toNat d.lookback.toNat i (windowBefore d i) with h | ⟨e, he, hdist, h⟩
    · rw [h] at hlen
      exact absurd hlen (by decide)
    · obtain ⟨hpos, hwin⟩ := nearCandidates_distance hk hfit he
      rw [h] at hlen ⊢
      exact ⟨nofun, ⟨hlen, commonPrefix_le_cap _ _ _, hpos, hdist⟩, hwin, nofun⟩
  · refine ⟨nofun, trivial, trivial, fun b hb => ?_⟩
    cases hb
    rw [List.getD_eq_getElem _ _ hi]
    exact List.getElem_mem hi

/-- The loop of R152 from position i with enough turns left: each symbol is chosen at a position of the input, and the
window it ends with is the final one. -/
theorem symbolLoop_spec {d : Data} (hk : 1 ≤ d.keySize.toNat) (fuel i : Nat) (hfuel : d.input.length ≤ i + fuel) :
    ∃ xs, symbolLoop d.input d.window.toNat d.keySize.toNat d.lookback.toNat fuel i (windowBefore d i)
        = (xs, windowBefore d d.input.length)
      ∧ xs.length ≤ fuel ∧ ∀ x ∈ xs, ∃ j, j < d.input.length ∧ x = (choiceAt d j).1 := by
  induction fuel generalizing i with
  | zero => exact ⟨[], by rw [symbolLoop, windowBefore_of_ge (i := i) hk hfuel], Nat.le_refl 0, nofun⟩
  | succ fuel ih =>
    rw [symbolLoop]
    split
    · next hi =>
      have hadv := choiceAt_advance_pos d i
      obtain ⟨xs, hxs, hlen, hmem⟩ := ih (i + (choiceAt d i).2) (by omega)
      rw [← registerSpan_windowBefore] at hxs
      refine ⟨(choiceAt d i).1 :: xs, ?_, Nat.succ_le_succ hlen, List.forall_mem_cons.mpr ⟨⟨i, hi, rfl⟩, hmem⟩⟩
      simp only [choiceAt] at hxs ⊢
      rw [hxs]
    · next hi => exact ⟨[], by rw [windowBefore_of_ge hk (by omega)], Nat.zero_le _, nofun⟩

theorem keySize_pos {d : Data} (h : d.legalConfig) : 1 ≤ d.keySize.toNat := by
  obtain ⟨-, hk | hk, -⟩ := h <;> rw [hk] <;> decide

/-- What SYM_RUN makes of an input that fits (R151, R152). -/
theorem symbolize_spec {d : Data} (hl : d.legalConfig) (hfit : d.input.length ≤ Config.inCap) :
    ∃ xs, symbolize d = (xs ++ [.endOfBlock], windowBefore d d.input.length)
      ∧ xs.length ≤ d.input.length ∧ ∀ x ∈ xs, blockSymbol d x := by
  have hk := keySize_pos hl
  obtain ⟨xs, hxs, hlen, hmem⟩ := symbolLoop_spec hk d.input.length 0 (by omega)
  rw [windowBefore_zero] at hxs
  refine ⟨xs, by rw [symbolize, hxs], hlen, fun x hx => ?_⟩
  obtain ⟨j, hj, rfl⟩ := hmem x hx
  exact choiceAt_blockSymbol hk hfit hj

/-- The weight count of symbols in range completes (R153). -/
theorem countSymbols_completes (xs : List Symbol) (hr : ∀ x ∈ xs, x.inRange) (t : Weights) :
    ∃ t', countSymbols xs t = .ok t' := by
  induction xs generalizing t with
  | nil => exact ⟨t, rfl⟩
  | cons x xs ih =>
    have hx : ∃ t', countSymbol t x = .ok t' := by
      cases x with
      | literal b => exact ⟨_, rfl⟩
      | endOfBlock => exact ⟨_, rfl⟩
      | reference l dist =>
        obtain ⟨hl3, hl258, hd1, hdmax⟩ := hr _ List.mem_cons_self
        obtain ⟨le, hle, -⟩ := lcode_ok hl3 hl258
        obtain ⟨de, hde, -⟩ := dcode_ok hd1 hdmax
        exact ⟨_, by rw [countSymbol, hle, hde]; rfl⟩
    obtain ⟨t1, h1⟩ := hx
    obtain ⟨t2, h2⟩ := ih (fun y hy => hr y (List.mem_cons_of_mem _ hy)) t1
    exact ⟨t2, by rw [countSymbols, h1]; exact h2⟩

/-- Every symbol SYM_RUN emits, EndOfBlock too, is in range. -/
theorem inRange_of_blockSymbols {d : Data} {xs : List Symbol} (h : ∀ x ∈ xs, blockSymbol d x) :
    ∀ x ∈ xs ++ [Symbol.endOfBlock], x.inRange := by
  intro x hx
  rcases List.mem_append.mp hx with hx | hx
  · exact (h x hx).2.1
  · rw [List.mem_singleton.mp hx]
    exact trivial

/-- Settles O38: the loop of R152 keeps `windowBefore` as its window, and the candidates it holds bound each symbol. -/
theorem symRunSymbolsAreInRange : Obligations.SymRunSymbolsAreInRange := by
  intro s hl hfit
  obtain ⟨xs, hsym, hlen, hxs⟩ := symbolize_spec hl hfit
  obtain ⟨t, ht⟩ := countSymbols_completes _ (inRange_of_blockSymbols hxs) (.fill 0, .fill 0)
  have hrun : symRunOp s.data = .ok { s.data with
      symq := xs ++ [.endOfBlock], mf := windowBefore s.data s.data.input.length, freqLL := t.1, freqD := t.2
      result0 := BitVec.ofNat 32 (xs ++ [Symbol.endOfBlock]).length } := by
    simp only [symRunOp, hsym, ht]
    rfl
  exact ⟨_, xs, runCommand_ok hrun, rfl, hlen, hxs, rfl⟩

end Sys2Proof.Machine
end

section
/-! PROOFS. What the units write is in the ranges of R42 to R50: accumulators, code lengths, canonical codes, the
code-length symbol queue and the window. -/

namespace Sys2Proof.Machine

/-! ### Accumulators (R49) -/

theorem appendBits_keeps_ok {bs : List Bool} {a x : Accum} (ha : a.ok) (h : a.appendBits bs = .ok x) : x.ok := by
  rcases appendBits_cases bs a ha with ⟨y, hy, hok, -⟩ | ⟨herr, -⟩
  · rw [hy] at h
    cases h
    exact hok
  · rw [herr] at h
    cases h

theorem appendCode_keeps_ok {c : CodeEntry} {a x : Accum} (ha : a.ok) (h : a.appendCode c = .ok x) : x.ok := by
  rw [appendCode_eq] at h
  split at h
  · cases h
  · exact appendBits_keeps_ok ha h

theorem appendSymbol_keeps_ok {d : Data} {s : Symbol} {a x : Accum} (ha : a.ok) (h : appendSymbol d a s = .ok x) :
    x.ok := by
  cases s with
  | literal b => exact appendCode_keeps_ok ha h
  | endOfBlock => exact appendCode_keeps_ok ha h
  | reference l dist =>
    simp only [appendSymbol, bind_eq_ok] at h
    obtain ⟨le, -, a1, h1, a2, h2, de, -, a3, h3, h4⟩ := h
    have ha1 := appendCode_keeps_ok ha h1
    have ha2 := appendBits_keeps_ok ha1 h2
    have ha3 := appendCode_keeps_ok ha2 h3
    exact appendBits_keeps_ok ha3 h4

theorem appendSymbols_keeps_ok {d : Data} {xs : List Symbol} {a x : Accum} (ha : a.ok)
    (h : appendSymbols d xs a = .ok x) : x.ok := by
  induction xs generalizing a with
  | nil => cases h; exact ha
  | cons s xs ih =>
    obtain ⟨a1, h1, h2⟩ := bind_eq_ok.mp h
    exact ih (appendSymbol_keeps_ok ha h1) h2

theorem appendMeta_keeps_ok {d : Data} {e : ClsEntry} {a x : Accum} (ha : a.ok) (h : appendMeta d a e = .ok x) :
    x.ok := by
  obtain ⟨a1, h1, h2⟩ := bind_eq_ok.mp h
  exact appendBits_keeps_ok (appendCode_keeps_ok ha h1) h2

theorem appendMetas_keeps_ok {d : Data} {es : List ClsEntry} {a x : Accum} (ha : a.ok)
    (h : appendMetas d es a = .ok x) : x.ok := by
  induction es generalizing a with
  | nil => cases h; exact ha
  | cons e es ih =>
    obtain ⟨a1, h1, h2⟩ := bind_eq_ok.mp h
    exact ih (appendMeta_keeps_ok ha h1) h2

theorem appendHeader_keeps_ok {d : Data} {f : Bool} {a x : Accum} (ha : a.ok) (h : appendHeader d f a = .ok x) :
    x.ok := by
  simp only [appendHeader, bind_eq_ok] at h
  obtain ⟨a1, h1, a2, h2, a3, h3, a4, h4, a5, h5, a6, h6, h7⟩ := h
  have ha1 := appendBits_keeps_ok ha h1
  have ha2 := appendBits_keeps_ok ha1 h2
  have ha3 := appendBits_keeps_ok ha2 h3
  have ha4 := appendBits_keeps_ok ha3 h4
  have ha5 := appendBits_keeps_ok ha4 h5
  rw [appendClLengths_eq] at h6
  exact appendMetas_keeps_ok (appendBits_keeps_ok ha5 h6) h7

/-- Dropping the completed bytes keeps an accumulator within R49's bounds (R113). -/
theorem ok_drained {a : Accum} (ha : a.ok) : { a with bytes := [] }.ok := ⟨Nat.zero_le _, ha.2⟩

/-- Completing the partial byte where there is room keeps an accumulator within R49's bounds (R116). -/
theorem ok_flushed {a : Accum} (ha : a.ok) (hroom : a.bytes.length ≠ Config.outCap) :
    Accum.ok ⟨a.bytes ++ [a.pv], 0, 0⟩ := by
  have hle := ha.1
  refine ⟨?_, by simp [Accum.clean]⟩
  rw [List.length_append, List.length_singleton]
  omega

/-! ### Code lengths (R172 to R176) -/

/-- `split` gives no length above its depth plus the levels left (R172). -/
theorem splitGroup_le (r d : Nat) (g : List Weighted) : ∀ p ∈ splitGroup r d g, p.2 ≤ d + r := by
  induction r generalizing d g with
  | zero =>
    match g with
    | [] => simp [splitGroup]
    | [x] => simp [splitGroup]
    | x :: y :: g => simp [splitGroup]
  | succ r ih =>
    match g with
    | [] => simp [splitGroup]
    | [x] => simp [splitGroup]
    | x :: y :: g =>
      intro p hp
      simp only [splitGroup] at hp
      rcases List.mem_append.mp hp with hp | hp
      · exact (ih _ _ p hp).trans (by omega)
      · exact (ih _ _ p hp).trans (by omega)

/-- No assigned length is above the limit (R171). -/
theorem assignPairs_le {ws : List Nat} {n limit : Nat} {pairs : List (Nat × Nat)} (hlim : 1 ≤ limit)
    (h : assignPairs ws n limit = .ok pairs) : ∀ p ∈ pairs, p.2 ≤ limit := by
  unfold assignPairs at h
  split at h
  · cases h
    simpa using hlim
  · cases h
    simpa using hlim
  · split at h
    · cases h
    · cases h
      intro p hp
      simpa using splitGroup_le limit 0 _ p hp

theorem lengthIn_le {pairs : List (Nat × Nat)} {m : Nat} (h : ∀ p ∈ pairs, p.2 ≤ m) (s : Nat) :
    lengthIn pairs s ≤ m := by
  induction pairs with
  | nil => exact Nat.zero_le m
  | cons p ps ih =>
    obtain ⟨hp, hps⟩ := List.forall_mem_cons.mp h
    rw [lengthIn]
    split
    · exact hp
    · exact ih hps

theorem assignLengths_le {ws lens : List Nat} {n limit : Nat} (hlim : 1 ≤ limit)
    (h : assignLengths ws n limit = .ok lens) : ∀ l ∈ lens, l ≤ limit := by
  obtain ⟨pairs, hp, rfl⟩ := map_eq_ok.mp h
  intro l hl
  obtain ⟨s, -, rfl⟩ := List.mem_map.mp hl
  exact lengthIn_le (assignPairs_le hlim hp) s

theorem getD_le {ls : List Nat} {m : Nat} (h : ∀ l ∈ ls, l ≤ m) (i : Nat) : ls.getD i 0 ≤ m := by
  rw [List.getD_eq_getElem?_getD]
  cases hi : ls[i]? with
  | none => exact Nat.zero_le m
  | some l => exact h l (List.mem_of_getElem? hi)

theorem toNat_ofNat4_le {v m : Nat} (h : v ≤ m) : (BitVec.ofNat 4 v).toNat ≤ m :=
  (Nat.mod_le v _).trans h

/-! ### Canonical codes (R191, R192) -/

theorem mem_insertLengthed {x y : Lengthed} {ys : List Lengthed} (h : y ∈ insertLengthed x ys) : y = x ∨ y ∈ ys := by
  induction ys with
  | nil => exact .inl (List.mem_singleton.mp h)
  | cons z zs ih =>
    rw [insertLengthed] at h
    split at h
    · exact List.mem_cons.mp h
    · rcases List.mem_cons.mp h with rfl | h
      · exact .inr List.mem_cons_self
      · exact (ih h).imp id (List.mem_cons_of_mem z)

theorem mem_codedFrom {s : Nat} {lens : List Nat} {x : Lengthed} (h : x ∈ codedFrom s lens) : x.len ∈ lens := by
  induction lens generalizing s with
  | nil => cases h
  | cons l ls ih =>
    rw [codedFrom] at h
    split at h
    · rcases List.mem_cons.mp h with rfl | h
      · exact List.mem_cons_self
      · exact List.mem_cons_of_mem l (ih h)
    · exact List.mem_cons_of_mem l (ih h)

theorem mem_codedSorted {lens : List Nat} {x : Lengthed} (h : x ∈ codedSorted lens) : x.len ∈ lens := by
  have hmem : ∀ ys : List Lengthed, x ∈ ys.foldr insertLengthed [] → x ∈ ys := by
    intro ys hx
    induction ys with
    | nil => exact hx
    | cons y ys ih =>
      rcases mem_insertLengthed hx with rfl | hx
      · exact List.mem_cons_self
      · exact List.mem_cons_of_mem y (ih hx)
  exact mem_codedFrom (hmem _ h)

theorem inRange_ofNat {c w : Nat} (hw : w ≤ 15) (h : c < 2 ^ w) :
    CodeEntry.inRange ⟨BitVec.ofNat 15 c, BitVec.ofNat 4 w⟩ := by
  have hw' : (BitVec.ofNat 4 w).toNat = w := Nat.mod_eq_of_lt (by omega)
  rw [CodeEntry.inRange, hw']
  exact (Nat.mod_le c _).trans_lt h

/-- Every code the loop of R191 gives is below two to the power of its width: the check of R192. -/
theorem assignCodes_inRange {xs : List Lengthed} {c width : Nat} {pairs : List (Nat × CodeEntry)} (hw : width ≤ 15)
    (hxs : ∀ x ∈ xs, x.len ≤ 15) (h : assignCodes c width xs = .ok pairs) : ∀ p ∈ pairs, p.2.inRange := by
  induction xs generalizing c width pairs with
  | nil =>
    cases h
    exact nofun
  | cons x xs ih =>
    obtain ⟨hx, hxs⟩ := List.forall_mem_cons.mp hxs
    simp only [assignCodes] at h
    have hw' : (if width < x.len then x.len else width) ≤ 15 := by split <;> assumption
    generalize (if width < x.len then x.len else width) = width' at h hw'
    generalize (if width < x.len then c <<< (x.len - width) else c) = c' at h
    split at h
    · cases h
    · next hroom =>
      obtain ⟨rest, hrest, rfl⟩ := map_eq_ok.mp h
      exact List.forall_mem_cons.mpr ⟨inRange_ofNat hw' (Nat.not_le.mp hroom), ih hw' hxs hrest⟩

theorem codeIn_inRange {pairs : List (Nat × CodeEntry)} (h : ∀ p ∈ pairs, p.2.inRange) (s : Nat) :
    (codeIn pairs s).inRange := by
  induction pairs with
  | nil => simp [codeIn, CodeEntry.inRange]
  | cons p ps ih =>
    obtain ⟨hp, hps⟩ := List.forall_mem_cons.mp h
    rw [codeIn]
    split
    · exact hp
    · exact ih hps

/-- The codes built from a length table are in range (R46). -/
theorem buildPairs_inRange {n : Nat} {t : Table (BitVec 4) n} {pairs : List (Nat × CodeEntry)}
    (h : buildPairs (t.entries.map BitVec.toNat) = .ok pairs) (s : Nat) : (codeIn pairs s).inRange := by
  refine codeIn_inRange (assignCodes_inRange (Nat.zero_le 15) (fun x hx => ?_) h) s
  obtain ⟨l, -, hl⟩ := List.mem_map.mp (mem_codedSorted hx)
  have := l.isLt
  omega

/-! ### The code-length symbol queue (R47, R201) -/

/-- The entries of a part of the queue are as R95 lists them, and there are at most m of them. -/
def clsBounded (m : Nat) (es : List ClsEntry) : Prop := es.length ≤ m ∧ ∀ e ∈ es, e.inRange

theorem clsBounded_cons {m : Nat} {e : ClsEntry} {es : List ClsEntry} (he : e.inRange) (h : clsBounded m es) :
    clsBounded (m + 1) (e :: es) :=
  ⟨Nat.succ_le_succ h.1, List.forall_mem_cons.mpr ⟨he, h.2⟩⟩

theorem clsBounded_append {m n : Nat} {es fs : List ClsEntry} (he : clsBounded m es) (hf : clsBounded n fs) :
    clsBounded (m + n) (es ++ fs) :=
  ⟨by rw [List.length_append]; exact Nat.add_le_add he.1 hf.1, List.forall_mem_append.mpr ⟨he.2, hf.2⟩⟩

theorem clsBounded_mono {m n : Nat} {es : List ClsEntry} (h : m ≤ n) (he : clsBounded m es) : clsBounded n es :=
  ⟨he.1.trans h, he.2⟩

theorem clsLiteral_inRange (v : BitVec 4) : (clsLiteral v).inRange := by
  have := v.isLt
  exact .inl ⟨by simp only [clsLiteral]; omega, rfl, rfl⟩

theorem clsBounded_literals (m : Nat) (v : BitVec 4) : clsBounded m (List.replicate m (clsLiteral v)) := by
  refine ⟨Nat.le_of_eq List.length_replicate, fun e he => ?_⟩
  rw [List.eq_of_mem_replicate he]
  exact clsLiteral_inRange v

theorem clsBounded_zeroEntries (fuel rem : Nat) : clsBounded rem (zeroEntries fuel rem) := by
  induction fuel generalizing rem with
  | zero => exact ⟨Nat.zero_le rem, nofun⟩
  | succ fuel ih =>
    rw [zeroEntries]
    split
    · have he : ClsEntry.inRange ⟨18, BitVec.ofNat 8 (min rem 138 - 11), 7⟩ :=
        .inr (.inr (.inr ⟨rfl, rfl, (Nat.mod_le _ _).trans (by omega)⟩))
      exact clsBounded_mono (by omega) (clsBounded_cons he (ih (rem - min rem 138)))
    · split
      · have he : ClsEntry.inRange ⟨17, BitVec.ofNat 8 (rem - 3), 3⟩ :=
          .inr (.inr (.inl ⟨rfl, rfl, (Nat.mod_le _ _).trans (by omega)⟩))
        exact clsBounded_mono (by omega) (clsBounded_cons he (m := 0) ⟨Nat.le_refl 0, nofun⟩)
      · exact clsBounded_literals rem 0

theorem clsBounded_copyEntries (v : BitVec 4) (fuel rem : Nat) : clsBounded rem (copyEntries v fuel rem) := by
  induction fuel generalizing rem with
  | zero => exact ⟨Nat.zero_le rem, nofun⟩
  | succ fuel ih =>
    rw [copyEntries]
    split
    · have he : ClsEntry.inRange ⟨16, BitVec.ofNat 8 (min rem 6 - 3), 2⟩ :=
        .inr (.inl ⟨rfl, rfl, (Nat.mod_le _ _).trans (by omega)⟩)
      exact clsBounded_mono (by omega) (clsBounded_cons he (ih (rem - min rem 6)))
    · exact clsBounded_literals rem v

theorem clsBounded_runEntries {run : BitVec 4 × Nat} (h : 1 ≤ run.2) : clsBounded run.2 (runEntries run) := by
  unfold runEntries
  split
  · exact clsBounded_zeroEntries _ _
  · exact clsBounded_mono (by omega) (clsBounded_cons (clsLiteral_inRange _) (clsBounded_copyEntries _ _ _))

/-- The maximal runs are nonempty, and together as long as the sequence (R201). -/
theorem runsOf_counts (lens : List (BitVec 4)) :
    (∀ run ∈ runsOf lens, 1 ≤ run.2) ∧ ((runsOf lens).map Prod.snd).sum = lens.length := by
  induction lens with
  | nil => exact ⟨nofun, rfl⟩
  | cons v vs ih =>
    rw [runsOf]
    split
    · next hruns =>
      rw [hruns] at ih
      obtain ⟨-, hsum⟩ := ih
      have hnil : vs.length = 0 := hsum.symm
      exact ⟨List.forall_mem_singleton.mpr (Nat.le_refl 1), by rw [List.length_cons, hnil]; rfl⟩
    · next u r more hruns =>
      rw [hruns] at ih
      obtain ⟨hpos, hsum⟩ := ih
      obtain ⟨hr, hmore⟩ := List.forall_mem_cons.mp hpos
      simp only [List.map_cons, List.sum_cons] at hsum
      split
      · refine ⟨List.forall_mem_cons.mpr ⟨by simp, hmore⟩, ?_⟩
        simp only [List.map_cons, List.sum_cons, List.length_cons]
        omega
      · refine ⟨List.forall_mem_cons.mpr ⟨Nat.le_refl 1, hpos⟩, ?_⟩
        simp only [List.map_cons, List.sum_cons, List.length_cons]
        omega

theorem clsBounded_flatMap_runEntries {runs : List (BitVec 4 × Nat)} (h : ∀ run ∈ runs, 1 ≤ run.2) :
    clsBounded (runs.map Prod.snd).sum (runs.flatMap runEntries) := by
  induction runs with
  | nil => exact ⟨Nat.le_refl 0, nofun⟩
  | cons run runs ih =>
    obtain ⟨hrun, hruns⟩ := List.forall_mem_cons.mp h
    rw [List.flatMap_cons, List.map_cons, List.sum_cons]
    exact clsBounded_append (clsBounded_runEntries hrun) (ih hruns)

/-- rle(lens) has at most one entry per length, each as R95 lists them (R47, R201). -/
theorem clsBounded_rle (lens : List (BitVec 4)) : clsBounded lens.length (rle lens) := by
  obtain ⟨hpos, hsum⟩ := runsOf_counts lens
  rw [← hsum]
  exact clsBounded_flatMap_runEntries hpos

/-! ### Keys (R100) -/

/-- One turn of the fold of R100. -/
def keyTurn (k : Nat) (h : Word) (b : Byte) : Word := ((h <<< 8) ^^^ b.zeroExtend 32) &&& keyMask k

theorem keyAt_eq_foldl (bytes : List Byte) (k p : Nat) :
    keyAt bytes k p = ((bytes.drop p).take k).foldl (keyTurn k) 0 := rfl

theorem foldl_keyTurn_masked {k : Nat} {h : Word} (bs : List Byte) (hh : h &&& keyMask k = h) :
    bs.foldl (keyTurn k) h &&& keyMask k = bs.foldl (keyTurn k) h := by
  induction bs generalizing h with
  | nil => exact hh
  | cons b bs ih => exact ih (by rw [keyTurn, BitVec.and_assoc, BitVec.and_self])

/-- A key has no bit above its K bytes (R48, R100). -/
theorem keyAt_masked (bytes : List Byte) (k p : Nat) : keyAt bytes k p &&& keyMask k = keyAt bytes k p := by
  rw [keyAt_eq_foldl]
  exact foldl_keyTurn_masked _ BitVec.zero_and

end Sys2Proof.Machine
end

section
/-! PROOFS. The machine's invariant (R42 to R50): it holds at reset, every command's operation keeps the data in range,
and every turn keeps the whole invariant. -/

namespace Sys2Proof.Machine

/-! ### The configuration (R36 to R38) -/

theorem Data.legalConfig.window {d : Data} (h : d.legalConfig) :
    1 ≤ d.window.toNat ∧ d.window.toNat ≤ Config.maxWindow := h.1

theorem Data.legalConfig.keySize {d : Data} (h : d.legalConfig) : d.keySize = 2 ∨ d.keySize = 3 := h.2.1

theorem Data.legalConfig.lookback {d : Data} (h : d.legalConfig) :
    1 ≤ d.lookback.toNat ∧ d.lookback.toNat ≤ Config.maxLookback := h.2.2

/-! ### Updates that keep the data in range -/

theorem dataOk_acc {d : Data} (hd : d.ok) (a : AccSel) : (d.acc a).ok := by
  cases a
  · exact hd.ba0
  · exact hd.ba1

theorem dataOk_setAcc {d : Data} (hd : d.ok) (a : AccSel) {x : Accum} (hx : x.ok) : (d.setAcc a x).ok := by
  cases a
  · exact { hd with ba0 := hx }
  · exact { hd with ba1 := hx }

theorem dataOk_setFreq {d : Data} (hd : d.ok) (t : TableSel) (v : Table Word t.size) : (d.setFreq t v).ok := by
  cases t <;> exact { hd with }

theorem dataOk_setLen {d : Data} (hd : d.ok) (t : TableSel) {v : Table (BitVec 4) t.size}
    (hv : ∀ l ∈ v.entries, l.toNat ≤ t.lengthLimit) : (d.setLen t v).ok := by
  cases t
  · exact { hd with }
  · exact { hd with }
  · exact { hd with lenCL := hv }

theorem dataOk_setCode {d : Data} (hd : d.ok) (t : TableSel) {v : Table CodeEntry t.size}
    (hv : ∀ c ∈ v.entries, c.inRange) : (d.setCode t v).ok := by
  cases t
  · exact { hd with codeLL := hv }
  · exact { hd with codeD := hv }
  · exact { hd with codeCL := hv }

theorem dataOk_results {d : Data} (hd : d.ok) (v w : Word) : { d with result0 := v, result1 := w }.ok := { hd with }

/-- Emptying the window makes any legal configuration consistent with it (R36, R37). -/
theorem dataOk_configured {d : Data} (hd : d.ok) {w k : Word} (hw : 1 ≤ w.toNat ∧ w.toNat ≤ Config.maxWindow)
    (hk : k = 2 ∨ k = 3) : { d with window := w, keySize := k, mf := [] }.ok :=
  { hd with
    legal := ⟨hw, hk, hd.legal.lookback⟩
    mfLength := Nat.zero_le _
    mfKeys := nofun }

theorem forall_mem_fill {α : Type} {n : Nat} {x : α} {p : α → Prop} (h : p x) :
    ∀ y ∈ (Table.fill x : Table α n).entries, p y := by
  intro y hy
  rwa [List.eq_of_mem_replicate hy]

theorem forall_mem_build {α : Type} {n : Nat} {f : Nat → α} {p : α → Prop} (h : ∀ i, p (f i)) :
    ∀ y ∈ (Table.build n f).entries, p y := by
  intro y hy
  obtain ⟨i, -, rfl⟩ := List.mem_map.mp hy
  exact h i

theorem dataOk_reset : Data.reset.ok where
  legal := by unfold Data.legalConfig; decide
  input := Nat.zero_le _
  symqLength := Nat.zero_le _
  symqRange := nofun
  symqEnds := .inl rfl
  lenCL := forall_mem_fill (Nat.zero_le _)
  codeLL := forall_mem_fill Nat.zero_lt_one
  codeD := forall_mem_fill Nat.zero_lt_one
  codeCL := forall_mem_fill Nat.zero_lt_one
  clsqLength := Nat.zero_le _
  clsqRange := nofun
  mfLength := Nat.zero_le _
  mfKeys := nofun
  ba0 := ok_empty
  ba1 := ok_empty
  outq := Nat.zero_le _
  locq := Nat.zero_le _

/-! ### Every command's operation keeps the data in range -/

theorem lengthLimit_pos (t : TableSel) : 1 ≤ t.lengthLimit := by cases t <;> decide

theorem baDrainOp_keeps_ok (a : AccSel) : Keeps Data.ok (baDrainOp a) := by
  intro d d' hd h
  obtain ⟨hroom, rfl⟩ := baDrainOp_ok h
  have hset := dataOk_setAcc hd a (ok_drained (dataOk_acc hd a))
  exact { hset with outq := by simpa using hroom }

theorem baFlushOp_keeps_ok (a : AccSel) : Keeps Data.ok (baFlushOp a) := by
  intro d d' hd h
  rcases baFlushOp_ok h with rfl | ⟨hroom, rfl⟩
  · exact dataOk_results hd 0 _
  · exact dataOk_results (dataOk_setAcc hd a (ok_flushed (dataOk_acc hd a) hroom)) 1 _

theorem mfRegisterOp_keeps_ok : Keeps Data.ok mfRegisterOp := by
  intro d d' hd h
  cases h
  refine { hd with mfLength := length_mfRegister_le _ hd.mfLength hd.legal.window.1, mfKeys := fun e he => ?_ }
  rcases mem_mfRegister he with he | rfl
  · exact hd.mfKeys e he
  · simp only [Data.keyArg, BitVec.and_assoc, BitVec.and_self]

theorem mfLocateOp_keeps_ok : Keeps Data.ok mfLocateOp := by
  intro d d' hd h
  cases h
  exact { hd with locq := (length_mfLocate_le _ _).trans (hd.mfLength.trans hd.legal.window.2) }

theorem windowBefore_keys (d : Data) (i : Nat) :
    ∀ e ∈ windowBefore d i, e.key &&& keyMask d.keySize.toNat = e.key := by
  intro e he
  obtain ⟨p, -, -, -, rfl⟩ := mem_windowBefore he
  exact keyAt_masked _ _ _

theorem symRunOp_keeps_ok : Keeps Data.ok symRunOp := by
  intro d d' hd h
  obtain ⟨ll, dist, -, rfl⟩ := symRunOp_ok h
  obtain ⟨xs, hsym, hlen, hxs⟩ := symbolize_spec hd.legal hd.input
  rw [hsym]
  exact { hd with
    symqLength := by simpa using hlen.trans hd.input
    symqRange := inRange_of_blockSymbols hxs
    symqEnds := .inr List.getLast?_concat
    mfLength := length_windowBefore_le _ _
    mfKeys := windowBefore_keys _ _ }

theorem hlAssignOp_keeps_ok (t : TableSel) : Keeps Data.ok (hlAssignOp t) := by
  intro d d' hd h
  obtain ⟨lens, hl, rfl⟩ := hlAssignOp_ok h
  have hlens := assignLengths_le (lengthLimit_pos t) hl
  exact dataOk_results (dataOk_setLen hd t (forall_mem_build fun s => toNat_ofNat4_le (getD_le hlens s))) _ _

theorem ccBuildOp_keeps_ok (t : TableSel) : Keeps Data.ok (ccBuildOp t) := by
  intro d d' hd h
  obtain ⟨pairs, hp, rfl⟩ := ccBuildOp_ok h
  exact dataOk_results (dataOk_setCode hd t (forall_mem_build (buildPairs_inRange hp))) _ _

theorem ctRleOp_keeps_ok : Keeps Data.ok ctRleOp := by
  intro d d' hd h
  cases h
  have hcls := clsBounded_append (clsBounded_rle d.lenLL.entries) (clsBounded_rle d.lenD.entries)
  rw [d.lenLL.size, d.lenD.size] at hcls
  exact { hd with clsqLength := hcls.1, clsqRange := hcls.2 }

theorem tblWriteOp_keeps_ok (t : TableSel) (kd : TableKind) (idx : BitVec 16) :
    Keeps Data.ok (tblWriteOp t kd idx) := by
  intro d d' hd h
  rcases tblWriteOp_ok h with rfl | ⟨hv, rfl⟩
  · exact dataOk_setFreq hd t _
  · cases t
    · exact { hd with }
    · exact { hd with }
    · refine dataOk_setLen hd .cl fun l hl => ?_
      rcases List.mem_or_eq_of_mem_set hl with hl | rfl
      · exact hd.lenCL l hl
      · rw [BitVec.extractLsb'_toNat]
        exact (Nat.mod_le _ _).trans hv

/-- Every unit command keeps the data in range. -/
theorem unit_keeps_ok (i : Instr) (hi : i.isUnit) : Keeps Data.ok i.op := by
  intro d d' hd h
  cases i with
  | nop => cases h; exact hd
  | softReset => exact hi.elim
  | baAppend a n =>
    obtain ⟨-, x, hx, rfl⟩ := baAppendOp_ok h
    exact dataOk_setAcc hd a (appendBits_keeps_ok (dataOk_acc hd a) hx)
  | baDrain a => exact baDrainOp_keeps_ok a d d' hd h
  | baExtend =>
    obtain ⟨x, hx, rfl⟩ := baExtendOp_ok h
    exact { hd with ba0 := appendBits_keeps_ok hd.ba0 hx, ba1 := ok_empty }
  | baFlush a => exact baFlushOp_keeps_ok a d d' hd h
  | baClear a => cases h; exact dataOk_setAcc hd a ok_empty
  | mfReset => cases h; exact dataOk_configured hd hd.legal.window hd.legal.keySize
  | mfRegister => exact mfRegisterOp_keeps_ok d d' hd h
  | mfLocate => exact mfLocateOp_keeps_ok d d' hd h
  | inClear => cases h; exact { hd with input := Nat.zero_le _ }
  | symRun => exact symRunOp_keeps_ok d d' hd h
  | symRead => cases h; exact dataOk_results hd _ _
  | hlAssign t => exact hlAssignOp_keeps_ok t d d' hd h
  | ccBuild t => exact ccBuildOp_keeps_ok t d d' hd h
  | ctRle => exact ctRleOp_keeps_ok d d' hd h
  | clsRead => cases h; exact dataOk_results hd _ _
  | blkHeader a f =>
    obtain ⟨x, hx, rfl⟩ := blkHeaderOp_ok h
    exact dataOk_results (dataOk_setAcc hd a (appendHeader_keeps_ok (dataOk_acc hd a) hx)) _ _
  | blkBody a =>
    obtain ⟨x, hx, rfl⟩ := blkBodyOp_ok h
    exact dataOk_results (dataOk_setAcc hd a (appendSymbols_keeps_ok (dataOk_acc hd a) hx)) _ _
  | blkEncode f => exact hi.elim
  | tblRead t kd idx =>
    obtain ⟨v, w, rfl, -⟩ := tblReadOp_ok h
    exact dataOk_results hd v w
  | tblWrite t kd idx => exact tblWriteOp_keeps_ok t kd idx d d' hd h

/-- Every command's operation keeps the data in range. -/
theorem op_keeps_ok (i : Instr) : Keeps Data.ok i.op := by
  cases i
  case softReset =>
    intro d d' _ h
    cases h
    exact dataOk_reset
  case blkEncode f => exact keeps_blkEncodeOp unit_keeps_ok (fun _ v w hd => dataOk_results hd v w) f
  all_goals exact unit_keeps_ok _ trivial

/-! ### Every turn keeps the invariant -/

theorem stateOk_reset : State.reset.ok := ⟨nofun, fun _ => ⟨rfl, rfl, rfl⟩, fun _ => dataOk_reset, nofun⟩

theorem stateOk_resetBlock (s : State) : (resetBlock s).ok := ⟨nofun, fun _ => ⟨rfl, rfl, rfl⟩, fun _ => dataOk_reset, nofun⟩

theorem stateOk_raise (k : FaultKind) (src : Bool) (info : Word) (s : State) : (raise k src info s).ok :=
  ⟨nofun, nofun, nofun, fun _ => ⟨k, rfl⟩⟩

/-- The invariant says nothing of the model's own bookkeeping (logs 2, 3 and 4). -/
theorem stateOk_bookkeeping {s : State} (hs : s.ok) (script : List Turn) (reads : List (BitVec 8 × Word)) (free : Nat) :
    { s with script := script, reads := reads, free := free }.ok := ⟨hs.notBoth, hs.quiet, hs.data, hs.code⟩

theorem stateOk_data {s : State} (hs : s.ok) {d : Data} (hd : s.fault = false → d.ok) : { s with data := d }.ok :=
  ⟨hs.notBoth, hs.quiet, hd, hs.code⟩

theorem stateOk_completed {s : State} (hs : s.ok) {d : Data} (hd : s.fault = false → d.ok) : (s.completed d).ok :=
  ⟨nofun, hs.quiet, hd, hs.code⟩

theorem stateOk_runCommand {f : Data → Except FaultKind Data} (hf : Keeps Data.ok f) {s t : State} (hs : s.ok)
    (h : runCommand f s = .next t) : t.ok := by
  rcases runCommand_next h with ⟨d, hd, rfl⟩ | ⟨k, -, rfl⟩
  · exact stateOk_completed hs fun hq => hf _ _ (hs.data hq) hd
  · exact stateOk_raise _ _ _ _

theorem stateOk_exec {i : Instr} {s t : State} (hs : s.ok) (h : exec i s = .next t) : t.ok := by
  by_cases hi : i = .softReset
  · subst hi
    cases h
    exact stateOk_resetBlock s
  · rw [exec_eq_runCommand hi] at h
    exact stateOk_runCommand (op_keeps_ok i) hs h

theorem stateOk_engineTurn {s t : State} (hs : s.ok) (h : engineTurn s = .next t) : t.ok := by
  unfold engineTurn at h
  split at h
  · split at h
    · exact stateOk_exec hs h
    · cases h
      exact stateOk_raise _ _ _ _
  · cases h
    exact hs

theorem stateOk_afterRead {s : State} (hs : s.ok) (r : Reg) : (afterRead s r).ok := by
  cases r
  case outData =>
    refine stateOk_data hs fun hq => { hs.data hq with outq := ?_ }
    exact (List.drop_sublist 1 s.data.outq).length_le.trans (hs.data hq).outq
  case locData =>
    refine stateOk_data hs fun hq => { hs.data hq with locq := ?_ }
    exact (List.drop_sublist 1 s.data.locq).length_le.trans (hs.data hq).locq
  all_goals exact hs

theorem stateOk_hostRead {s : State} (hs : s.ok) (off : BitVec 8) : (hostRead off s).1.ok := by
  unfold hostRead
  split
  · exact stateOk_raise _ _ _ _
  · split
    · exact stateOk_bookkeeping hs _ _ _
    · split
      · exact stateOk_afterRead hs _
      · exact hs

theorem stateOk_acceptWrite {s : State} (hs : s.ok) (hq : s.fault = false) (off : BitVec 8) (v : Word) :
    (acceptWrite off v s).ok := by
  have hd := hs.data hq
  unfold acceptWrite
  split
  case h_1 => exact ⟨fun h => Bool.false_ne_true (hq.symm.trans h.2), hs.quiet, fun _ => { hd with }, hs.code⟩
  case h_2 => exact stateOk_data hs fun _ => { hd with }
  case h_3 => exact stateOk_data hs fun _ => { hd with }
  case h_4 =>
    split
    · exact stateOk_raise _ _ _ _
    · next hroom =>
      have hin := hd.input
      exact stateOk_data hs fun _ => { hd with
        input := by rw [List.length_append, List.length_singleton]; omega }
  case h_5 =>
    split
    · next hv => exact stateOk_data hs fun _ => dataOk_configured hd hv hd.legal.keySize
    · exact hs
  case h_6 =>
    split
    · next hv => exact stateOk_data hs fun _ => dataOk_configured hd hd.legal.window hv
    · exact hs
  case h_7 =>
    split
    · next hv => exact stateOk_data hs fun _ => { hd with legal := ⟨hd.legal.window, hd.legal.keySize, hv⟩ }
    · exact hs
  case h_8 => exact hs

theorem stateOk_hostWrite {s : State} (hs : s.ok) (off : BitVec 8) (v : Word) : (hostWrite off v s).ok := by
  unfold hostWrite
  split
  · exact stateOk_resetBlock s
  · split
    · exact hs
    · next hq =>
      split
      · exact stateOk_raise _ _ _ _
      · exact stateOk_acceptWrite hs (Bool.eq_false_of_not_eq_true hq) off v

theorem stateOk_takeTurn {turn : Turn} {s t : State} (hs : s.ok) (h : takeTurn turn s = .next t) : t.ok := by
  cases turn with
  | engine => exact stateOk_engineTurn hs h
  | read width off =>
    simp only [takeTurn] at h
    split at h
    · cases h
    · split at h
      · cases h
      · cases h
        exact stateOk_bookkeeping (stateOk_hostRead hs off) _ _ _
  | write width off v =>
    simp only [takeTurn] at h
    split at h
    · cases h
    · split at h
      · cases h
      · cases h
        exact stateOk_hostWrite hs off v
  | hardReset =>
    cases h
    exact stateOk_resetBlock s

/-- Settles O60: a turn is an engine step, a host access or a reset, and each keeps the invariant. -/
theorem stepKeepsTheStateOk : Obligations.StepKeepsTheStateOk := by
  intro s t hs h
  unfold step at h
  split at h
  · exact stateOk_engineTurn hs h
  · exact stateOk_takeTurn (stateOk_bookkeeping hs _ _ _) h

/-- Settles O2: with empty queues, zero tables and the legal reset configuration the invariant holds. -/
theorem resetStateIsOk : Obligations.ResetStateIsOk := stateOk_reset

end Sys2Proof.Machine
end

section
/-! PROOFS. What a command that completes leaves unchanged (R27, R28, R84). -/

namespace Sys2Proof.Machine

/-- The registers only the host writes: the operands and the configuration (R27, R36 to R38). -/
def Data.setup (d : Data) : Word × Word × Word × Word × Word := (d.arg0, d.arg1, d.window, d.keySize, d.lookback)

theorem setup_setAcc (d : Data) (a : AccSel) (x : Accum) : (d.setAcc a x).setup = d.setup := by cases a <;> rfl

theorem setup_setFreq (d : Data) (t : TableSel) (v : Table Word t.size) : (d.setFreq t v).setup = d.setup := by
  cases t <;> rfl

theorem setup_setLen (d : Data) (t : TableSel) (v : Table (BitVec 4) t.size) : (d.setLen t v).setup = d.setup := by
  cases t <;> rfl

theorem setup_setCode (d : Data) (t : TableSel) (v : Table CodeEntry t.size) : (d.setCode t v).setup = d.setup := by
  cases t <;> rfl

/-- No unit command changes the operands or the configuration, and only TBL_READ of a CODE table writes RESULT1. -/
theorem unit_frame {i : Instr} (hi : i.isUnit) {d d' : Data} (h : i.op d = .ok d') :
    d'.setup = d.setup ∧ ((∀ tb idx, i ≠ .tblRead tb .code idx) → d'.result1 = d.result1) := by
  cases i with
  | softReset => exact hi.elim
  | blkEncode f => exact hi.elim
  | baAppend a n =>
    obtain ⟨-, x, -, rfl⟩ := baAppendOp_ok h
    exact ⟨setup_setAcc d a x, fun _ => setAcc_result1 d a x⟩
  | baDrain a =>
    obtain ⟨-, rfl⟩ := baDrainOp_ok h
    exact ⟨setup_setAcc d a _, fun _ => setAcc_result1 d a _⟩
  | baExtend =>
    obtain ⟨x, -, rfl⟩ := baExtendOp_ok h
    exact ⟨rfl, fun _ => rfl⟩
  | baFlush a =>
    rcases baFlushOp_ok h with rfl | ⟨-, rfl⟩
    · exact ⟨rfl, fun _ => rfl⟩
    · exact ⟨setup_setAcc d a _, fun _ => setAcc_result1 d a _⟩
  | baClear a => cases h; exact ⟨setup_setAcc d a _, fun _ => setAcc_result1 d a _⟩
  | symRun =>
    obtain ⟨ll, dist, -, rfl⟩ := symRunOp_ok h
    exact ⟨rfl, fun _ => rfl⟩
  | hlAssign t =>
    obtain ⟨lens, -, rfl⟩ := hlAssignOp_ok h
    exact ⟨setup_setLen d t _, fun _ => setLen_result1 d t _⟩
  | ccBuild t =>
    obtain ⟨pairs, -, rfl⟩ := ccBuildOp_ok h
    exact ⟨setup_setCode d t _, fun _ => setCode_result1 d t _⟩
  | blkHeader a f =>
    obtain ⟨x, -, rfl⟩ := blkHeaderOp_ok h
    exact ⟨setup_setAcc d a x, fun _ => setAcc_result1 d a x⟩
  | blkBody a =>
    obtain ⟨x, -, rfl⟩ := blkBodyOp_ok h
    exact ⟨setup_setAcc d a x, fun _ => setAcc_result1 d a x⟩
  | tblRead t kd idx =>
    obtain ⟨v, w, rfl, hw⟩ := tblReadOp_ok h
    exact ⟨rfl, fun hne => hw fun hkd => hne t idx (by rw [hkd])⟩
  | tblWrite t kd idx =>
    rcases tblWriteOp_ok h with rfl | ⟨-, rfl⟩
    · exact ⟨setup_setFreq d t _, fun _ => setFreq_result1 d t _⟩
    · exact ⟨setup_setLen d t _, fun _ => setLen_result1 d t _⟩
  | _ => cases h; exact ⟨rfl, fun _ => rfl⟩

theorem unit_or_blkEncode {i : Instr} (h : i ≠ .softReset) : i.isUnit ∨ ∃ f, i = .blkEncode f := by
  cases i
  case softReset => exact absurd rfl h
  case blkEncode f => exact .inr ⟨f, rfl⟩
  all_goals exact .inl trivial

/-- No command but SOFT_RESET changes the operands or the configuration (R27, R84). -/
theorem op_setup {i : Instr} (hi : i ≠ .softReset) {d d' : Data} (h : i.op d = .ok d') : d'.setup = d.setup := by
  rcases unit_or_blkEncode hi with hu | ⟨f, rfl⟩
  · exact (unit_frame hu h).1
  · exact keeps_blkEncodeOp (P := fun x => x.setup = d.setup) (fun j hj x x' hx hx' => (unit_frame hj hx').1.trans hx)
      (fun _ _ _ hx => hx) f d d' rfl h

/-- The commands that name no result (R84). -/
def namesNoResult (i : Instr) : Prop :=
  i = .nop ∨ (∃ a n, i = .baAppend a n) ∨ i = .baExtend ∨ (∃ a, i = .baClear a) ∨ i = .mfReset
    ∨ i = .mfRegister ∨ i = .inClear ∨ ∃ tb kd idx, i = .tblWrite tb kd idx

theorem op_result0 {i : Instr} (hi : namesNoResult i) {d d' : Data} (h : i.op d = .ok d') :
    d'.result0 = d.result0 := by
  rcases hi with rfl | ⟨a, n, rfl⟩ | rfl | ⟨a, rfl⟩ | rfl | rfl | rfl | ⟨t, kd, idx, rfl⟩
  · cases h; rfl
  · obtain ⟨-, x, -, rfl⟩ := baAppendOp_ok h
    exact setAcc_result0 d a x
  · obtain ⟨x, -, rfl⟩ := baExtendOp_ok h
    rfl
  · cases h; exact setAcc_result0 d a _
  · cases h; rfl
  · cases h; rfl
  · cases h; rfl
  · rcases tblWriteOp_ok h with rfl | ⟨-, rfl⟩
    · exact setFreq_result0 d t _
    · exact setLen_result0 d t _

/-- A command that leaves no fault recorded has completed its operation (R251). -/
theorem exec_completed {i : Instr} {s t : State} (hi : i ≠ .softReset) (h : exec i s = .next t) (ht : t.fault = false) :
    ∃ d, i.op s.data = .ok d ∧ t = s.completed d := by
  rw [exec_eq_runCommand hi] at h
  rcases runCommand_next h with hd | ⟨k, -, rfl⟩
  · exact hd
  · cases ht

/-- Settles O59: a completed command changes what its operation does, and that names neither operands nor
configuration. -/
theorem commandsKeepOperandsAndConfiguration : Obligations.CommandsKeepOperandsAndConfiguration := by
  intro i s t hi _ h ht
  obtain ⟨d, hd, rfl⟩ := exec_completed hi h ht
  have hsetup := op_setup hi hd
  simp only [Data.setup, Prod.mk.injEq] at hsetup
  obtain ⟨harg0, harg1, hwindow, hkey, hlookback⟩ := hsetup
  refine ⟨rfl, harg0, harg1, hwindow, hkey, hlookback, fun hblk hread => ?_, fun hnone => op_result0 hnone hd⟩
  rcases unit_or_blkEncode hi with hu | ⟨f, rfl⟩
  · exact (unit_frame hu hd).2 hread
  · exact absurd rfl (hblk f)

end Sys2Proof.Machine
end

section
/-! PROOFS. What a host access of an idle block does, once for all registers (R54 to R56), the fields of STATUS and
BA_STATE (R26, R39), and from these the statements about each register. -/

namespace Sys2Proof.Machine

/-! ### The turns of the host and of the idle engine -/

theorem engineTurn_idle {s : State} (h : ¬(s.busy = true ∧ s.fault = false)) : engineTurn s = .next s := by
  unfold engineTurn engineEnabled
  rw [if_neg (by simpa using h)]

/-- Settles O5: without its step the engine's turn changes nothing, and the turn is all that is taken. -/
theorem engineHasNoOtherStep : Obligations.EngineHasNoOtherStep := by
  intro s hn hidle
  rw [step_engineNext hn]
  exact engineTurn_idle hidle

theorem takeTurn_read {off : BitVec 8} (h : off.toNat % 4 = 0) (s : State) :
    takeTurn (.read 32 off) s = .next { (hostRead off s).1 with reads := s.reads ++ [(off, (hostRead off s).2)] } := by
  simp [takeTurn, h]

theorem takeTurn_write {off : BitVec 8} (h : off.toNat % 4 = 0) (v : Word) (s : State) :
    takeTurn (.write 32 off v) s = .next (hostWrite off v s) := by
  simp [takeTurn, h]

/-- Settles O13: the width is checked first, then the offset, for reads and writes alike. -/
theorem oddAccessesAreRefused : Obligations.OddAccessesAreRefused := by
  intro s w off v ts h
  rcases h with h | h
  all_goals
    rw [step_cons h]
    exact ⟨fun hw => by simp [takeTurn, hw], fun hw hoff => by simp [takeTurn, hw, hoff]⟩

/-! ### The register map (R23) -/

@[simp] theorem ofOffset_offset (r : Reg) : Reg.ofOffset r.offset = some r := by cases r <;> rfl

theorem offset_aligned (r : Reg) : r.offset.toNat % 4 = 0 := by cases r <;> rfl

/-- The offsets from 0x58 on hold no register (R22). -/
theorem ofOffset_of_ge {off : BitVec 8} (h : 0x58 ≤ off.toNat) : Reg.ofOffset off = none := by
  unfold Reg.ofOffset
  split
  case h_23 => rfl
  all_goals omega

/-- An access that pops nothing changes nothing. -/
theorem afterRead_of_ne {r : Reg} (hout : r ≠ .outData) (hloc : r ≠ .locData) (s : State) : afterRead s r = s := by
  cases r
  case outData => exact absurd rfl hout
  case locData => exact absurd rfl hloc
  all_goals rfl

/-! ### Reads (R54) -/

/-- A read of a register that the state lets through returns its value, and pops if the register pops. -/
theorem hostRead_reg {s : State} {r : Reg} (hb : s.busy = true → r = .id ∨ r = .status)
    (hf : s.fault = true → r = .id ∨ r = .status ∨ r = .faultInfo) :
    hostRead r.offset s = (afterRead s r, readReg s r) := by
  simp only [hostRead, ofOffset_offset]
  rw [if_neg, if_neg]
  · simpa [← or_iff_not_imp_left] using hf
  · simpa [← or_iff_not_imp_left] using hb

/-- A step that reads a register: the value goes to the record, and only the queue that is popped changes. -/
theorem step_read_reg {s : State} {r : Reg} {ts : List Turn} (h : s.script = .read 32 r.offset :: ts)
    (hb : s.busy = true → r = .id ∨ r = .status) (hf : s.fault = true → r = .id ∨ r = .status ∨ r = .faultInfo) :
    step s = .next (s.afterReadOf r.offset (readReg s r) (afterRead s r).data) := by
  rw [step_cons h, takeTurn_read (offset_aligned r), hostRead_reg (s := s.inTurn) hb hf]
  cases r <;> rfl

theorem step_read_ready {s : State} {r : Reg} (h : s.hostReady (.read 32 r.offset)) :
    step s = .next (s.afterReadOf r.offset (readReg s r) (afterRead s r).data) := by
  obtain ⟨⟨ts, hts⟩, hb, hf⟩ := h
  exact step_read_reg hts (fun h => by simp [hb] at h) (fun h => by simp [hf] at h)

/-- A read of a register that does not pop has no effect but the value returned. -/
theorem step_read_same {s : State} (r : Reg) (h : s.hostReady (.read 32 r.offset)) (hout : r ≠ .outData)
    (hloc : r ≠ .locData) : step s = .next (s.afterReadOf r.offset (readReg s r) s.data) := by
  rw [step_read_ready h, afterRead_of_ne hout hloc]

/-- A read where there is no register returns 0 (R54). -/
theorem step_read_none {s : State} {off : BitVec 8} (h : s.hostReady (.read 32 off)) (hge : 0x58 ≤ off.toNat)
    (hal : off.toNat % 4 = 0) : step s = .next (s.afterReadOf off 0 s.data) := by
  obtain ⟨⟨ts, hts⟩, hb, hf⟩ := h
  rw [step_cons hts, takeTurn_read hal]
  simp [hostRead, ofOffset_of_ge hge, State.inTurn, State.afterReadOf, hb, hf]

/-! ### Writes (R55) -/

/-- An accepted write: the block is idle and the word is not SOFT_RESET's. -/
theorem step_write {s : State} {off : BitVec 8} {v : Word} (h : s.hostReady (.write 32 off v))
    (hal : off.toNat % 4 = 0) (hsoft : ¬(Reg.ofOffset off = some .cmd ∧ v = softResetWord)) :
    step s = .next (acceptWrite off v s.inTurn) := by
  obtain ⟨⟨ts, hts⟩, hb, hf⟩ := h
  rw [step_cons hts, takeTurn_write hal, hostWrite, if_neg hsoft, if_neg, if_neg]
  · simp [State.inTurn, hb]
  · simp [State.inTurn, hf]

theorem step_write_reg {s : State} (r : Reg) {v : Word} (h : s.hostReady (.write 32 r.offset v)) (hcmd : r ≠ .cmd) :
    step s = .next (acceptWrite r.offset v s.inTurn) :=
  step_write h (offset_aligned r) fun hsoft => hcmd (by simpa using hsoft.1)

/-- The registers a write can change (R55). -/
def writable : List Reg := [.cmd, .arg0, .arg1, .inData, .cfgWindow, .cfgKey, .cfgLookback]

/-- A write to a register that no write changes has no effect (R55). -/
theorem step_write_readOnly {s : State} {r : Reg} {v : Word} (hr : r ∉ writable)
    (h : s.hostReady (.write 32 r.offset v)) : step s = .next s.inTurn := by
  rw [step_write_reg r h fun hcmd => hr (by simp [writable, hcmd])]
  cases r
  case cmd | arg0 | arg1 | inData | cfgWindow | cfgKey | cfgLookback => exact absurd (by decide) hr
  all_goals rfl

/-- A write where there is no register has no effect (R55). -/
theorem step_write_none {s : State} {off : BitVec 8} {v : Word} (h : s.hostReady (.write 32 off v))
    (hge : 0x58 ≤ off.toNat) (hal : off.toNat % 4 = 0) : step s = .next s.inTurn := by
  have hoff := ofOffset_of_ge hge
  rw [step_write h hal (by simp [hoff])]
  simp [acceptWrite, hoff]

/-! ### The registers readable in every state (R24, R26, R29) -/

/-- Settles O15: these reads pass the checks of R54 and pop nothing. -/
theorem idStatusAndFaultInfoReadAlways : Obligations.IdStatusAndFaultInfoReadAlways := by
  intro s ts
  refine ⟨fun h => ?_, fun h => ?_, fun h hb => ?_⟩
  · exact step_read_reg (r := .id) h (fun _ => .inl rfl) (fun _ => .inl rfl)
  · exact step_read_reg (r := .status) h (fun _ => .inr rfl) (fun _ => .inr (.inl rfl))
  · exact step_read_reg (r := .faultInfo) h (fun h => by simp [hb] at h) (fun _ => .inr (.inr rfl))

/-! ### The queues at the port (R30 to R34) -/

/-- Settles O16: the read pops the front of OUTQ, and OUT_DATA is read-only. -/
theorem outDataPopsTheOldestByte : Obligations.OutDataPopsTheOldestByte := by
  intro s
  refine ⟨fun h => ⟨fun b bs hq => ?_, fun hq => ?_⟩, fun v h => ?_⟩
  · rw [step_read_ready (r := .outData) h]
    simp [readReg, afterRead, hq, Reg.offset]
  · have hkeep : { s.data with outq := [] } = s.data := by rw [← hq]
    rw [step_read_ready (r := .outData) h]
    simp only [readReg, afterRead, hq, List.drop_nil, hkeep]
    rfl
  · exact step_write_readOnly (r := .outData) (by decide) h

/-- Settles O17: the read pops the front of LOCQ, and LOC_DATA is read-only. -/
theorem locDataPopsTheFirstPosition : Obligations.LocDataPopsTheFirstPosition := by
  intro s
  refine ⟨fun h => ⟨fun p ps hq => ?_, fun hq => ?_⟩, fun v h => ?_⟩
  · rw [step_read_ready (r := .locData) h]
    simp [readReg, afterRead, hq, Reg.offset]
  · have hkeep : { s.data with locq := [] } = s.data := by rw [← hq]
    rw [step_read_ready (r := .locData) h]
    simp only [readReg, afterRead, hq, List.drop_nil, hkeep]
    rfl
  · exact step_write_readOnly (r := .locData) (by decide) h

/-- Settles O18: the accepted write is split at a full buffer. -/
theorem inDataPushesOrOverflows : Obligations.InDataPushesOrOverflows := by
  intro s
  refine ⟨fun v h => ⟨fun hroom => ?_, fun hfull => ?_⟩, fun h => ?_⟩
  · rw [step_write_reg .inData h (by decide)]
    exact congrArg Host.Outcome.next (if_neg hroom)
  · rw [step_write_reg .inData h (by decide)]
    refine ⟨_, rfl, ?_⟩
    rw [show acceptWrite Reg.inData.offset v s.inTurn = raiseAccess .inOverflow 0x20 s.inTurn from if_pos hfull]
    exact raiseAccess_recorded _ _ _
  · exact step_read_same .inData h (by decide) (by decide)

/-! ### The registers the host writes (R25, R27, R36 to R38) -/

/-- Settles O19: each configuration register's write is its legality check, and none of their reads pops. -/
theorem configurationKeepsOnlyLegalValues : Obligations.ConfigurationKeepsOnlyLegalValues := by
  refine ⟨fun s v => ⟨fun h => ?_, fun h => ?_, fun h => ?_, fun h => ?_, fun h => ?_, fun h => ?_⟩, rfl, rfl, rfl⟩
  · exact step_write_reg .cfgWindow h (by decide)
  · exact step_write_reg .cfgKey h (by decide)
  · exact step_write_reg .cfgLookback h (by decide)
  · exact step_read_same .cfgWindow h (by decide) (by decide)
  · exact step_read_same .cfgKey h (by decide) (by decide)
  · exact step_read_same .cfgLookback h (by decide) (by decide)

/-- Settles O20: a CMD word other than SOFT_RESET's is an accepted write, as is every write to ARG0 and ARG1. -/
theorem cmdAndArgWrites : Obligations.CmdAndArgWrites := by
  intro s v
  refine ⟨fun h hv => ?_, fun h => ?_, fun h => ?_, fun h => ?_, fun h => ?_, fun h => ?_⟩
  · exact step_write h (offset_aligned .cmd) fun hsoft => hv hsoft.2
  · exact step_write_reg .arg0 h (by decide)
  · exact step_write_reg .arg1 h (by decide)
  · exact step_read_same .cmd h (by decide) (by decide)
  · exact step_read_same .arg0 h (by decide) (by decide)
  · exact step_read_same .arg1 h (by decide) (by decide)

/-! ### Packed views (R26, R39) -/

/-- Settles O14: STATUS is the concatenation of its fields, and each is read back at its place. -/
theorem statusFieldsAreTheFlags : Obligations.StatusFieldsAreTheFlags := by
  intro s
  refine ⟨?busy, ?fault, ?outEmpty, ?locEmpty, ?inFull, ?src, ?gap, ?code, ?top⟩
  case gap =>
    unfold State.status
    iterate 6 rw [BitVec.extractLsb'_append_eq_of_le (by decide)]
    rw [BitVec.extractLsb'_append_eq_of_add_le (by decide)]
    exact BitVec.extractLsb'_eq_self
  case code =>
    unfold State.status
    iterate 7 rw [BitVec.extractLsb'_append_eq_of_le (by decide)]
    rw [BitVec.extractLsb'_append_eq_of_add_le (by decide)]
    exact BitVec.extractLsb'_eq_self
  case top =>
    unfold State.status
    iterate 8 rw [BitVec.extractLsb'_append_eq_of_le (by decide)]
    exact BitVec.extractLsb'_eq_self
  case outEmpty =>
    simp only [State.status, BitVec.getLsbD_append]
    cases h : s.data.outq <;> simp [Data.outEmpty, h]
  case locEmpty =>
    simp only [State.status, BitVec.getLsbD_append]
    cases h : s.data.locq <;> simp [Data.locEmpty, h]
  all_goals
    simp only [State.status, BitVec.getLsbD_append]
    simp [Data.inFull]

/-- A word is the concatenation of the fields R39 cuts BA_STATE into. -/
theorem word_eq_fields (v : Word) :
    v = v.extractLsb' 24 8 ++ v.extractLsb' 20 4 ++ v.extractLsb' 16 4 ++ v.extractLsb' 8 8 ++ v.extractLsb' 4 4
      ++ v.extractLsb' 0 4 := by
  rw [BitVec.extractLsb'_append_extractLsb'_eq_extractLsb' (show 24 = 20 + 4 from rfl),
    BitVec.extractLsb'_append_extractLsb'_eq_extractLsb' (show 20 = 16 + 4 from rfl),
    BitVec.extractLsb'_append_extractLsb'_eq_extractLsb' (show 16 = 8 + 8 from rfl),
    BitVec.extractLsb'_append_extractLsb'_eq_extractLsb' (show 8 = 4 + 4 from rfl),
    BitVec.extractLsb'_append_extractLsb'_eq_extractLsb' (show 4 = 0 + 4 from rfl)]
  exact BitVec.extractLsb'_eq_self.symm

/-- A word is BA_STATE when its six fields are those of R39. -/
theorem eq_baState {d : Data} {v : Word} (h0 : v.extractLsb' 0 4 = BitVec.ofNat 4 d.ba0.pc.val)
    (h4 : v.extractLsb' 4 4 = 0) (h8 : v.extractLsb' 8 8 = d.ba0.pv)
    (h16 : v.extractLsb' 16 4 = BitVec.ofNat 4 d.ba1.pc.val) (h20 : v.extractLsb' 20 4 = 0)
    (h24 : v.extractLsb' 24 8 = d.ba1.pv) : v = d.baState := by
  rw [word_eq_fields v, h0, h4, h8, h16, h20, h24]
  rfl

/-- The read-only registers whose writes R55 lets pass without effect, but the popping ones. -/
def readOnly : List Reg :=
  [.id, .status, .result0, .result1, .faultInfo, .inCount, .outCount, .locCount, .baState, .ba0Count, .ba1Count,
    .symCount, .clsCount]

theorem readOnly_not_writable : ∀ r ∈ readOnly, r ∉ writable := by decide

/-- Settles O21: each read-only register by its own clause, then the offsets that hold none. -/
theorem readOnlyRegistersReadTheirValues : Obligations.ReadOnlyRegistersReadTheirValues := by
  intro s off
  refine ⟨fun h v hv => ?_, fun v h hoff => ?_⟩
  · rcases hv with ⟨rfl, rfl⟩ | ⟨rfl, rfl⟩ | ⟨rfl, rfl⟩ | ⟨rfl, rfl⟩ | ⟨rfl, rfl⟩
      | ⟨rfl, h0, h4, h8, h16, h20, h24⟩ | ⟨rfl, rfl⟩ | ⟨rfl, rfl⟩ | ⟨rfl, rfl⟩ | ⟨rfl, rfl⟩ | ⟨hge, hal, rfl⟩
    · exact step_read_same .result0 h (by decide) (by decide)
    · exact step_read_same .result1 h (by decide) (by decide)
    · exact step_read_same .inCount h (by decide) (by decide)
    · exact step_read_same .outCount h (by decide) (by decide)
    · exact step_read_same .locCount h (by decide) (by decide)
    · rw [eq_baState h0 h4 h8 h16 h20 h24]
      exact step_read_same .baState h (by decide) (by decide)
    · exact step_read_same .ba0Count h (by decide) (by decide)
    · exact step_read_same .ba1Count h (by decide) (by decide)
    · exact step_read_same .symCount h (by decide) (by decide)
    · exact step_read_same .clsCount h (by decide) (by decide)
    · exact step_read_none h hge hal
  · rcases hoff with hoff | ⟨hge, hal⟩
    · obtain ⟨r, hr, rfl⟩ := List.mem_map.mp (show off ∈ readOnly.map Reg.offset from hoff)
      exact step_write_readOnly (readOnly_not_writable r hr) h
    · exact step_write_none h hge hal

/-! ### Reset (R57) -/

/-- Settles O1: every piece of state is a literal of the reset state, and a table's entry is its fill value. -/
theorem resetLeavesResetValues : Obligations.ResetLeavesResetValues := by
  refine ⟨⟨rfl, rfl, rfl, rfl, rfl, rfl⟩, by decide, rfl, rfl, rfl, rfl, rfl, rfl, rfl, rfl, rfl, rfl, rfl, rfl, rfl,
    fun t i hi => ?_, rfl, rfl⟩
  cases t <;> exact ⟨Table.get_fill _ _ hi, Table.get_fill _ _ hi, Table.get_fill _ _ hi⟩

end Sys2Proof.Machine
end

section
/-! PROOFS. The decoder and the encoder (R80 to R85): `decode_eq_ok` says once which words decode to a command, and
from it each direction of the round trip is read off the word's three parts, IMM, the select byte and the opcode. -/

namespace Sys2Proof

/-! ### A word and its parts (R81) -/

/-- The select byte w[15:8], which holds the fields A, T, F and KD (R81). -/
def selField (w : Word) : BitVec 8 := w.extractLsb' 8 8

/-- The word with this select byte and every other bit 0. -/
def selWord (sel : BitVec 8) : Word := 0#16 ++ sel ++ 0#8

theorem parts_fields (w : Word) : immField w ++ selField w ++ opField w = w := by
  rw [immField, selField, opField, BitVec.extractLsb'_append_extractLsb'_eq_extractLsb' (show 16 = 8 + 8 from rfl),
    BitVec.extractLsb'_append_extractLsb'_eq_extractLsb' (show 8 = 0 + 8 from rfl)]
  exact BitVec.extractLsb'_eq_self

theorem selField_parts (imm : BitVec 16) (sel op : BitVec 8) : selField (imm ++ sel ++ op) = sel :=
  (extract_sel imm sel op (lo := 0) (len := 8) (by decide)).trans BitVec.extractLsb'_eq_self

theorem getLsbD_selWord (w : Word) {j : Nat} (h : j < 8) : w.getLsbD (8 + j) = (selWord (selField w)).getLsbD (8 + j) := by
  rw [selWord, getLsbD_sel _ _ _ h, ← getLsbD_sel (immField w) _ (opField w) h, parts_fields]

theorem extract_selWord (w : Word) {lo len : Nat} (h : lo + len ≤ 8) :
    w.extractLsb' (8 + lo) len = (selWord (selField w)).extractLsb' (8 + lo) len := by
  rw [selWord, extract_sel _ _ _ h, ← extract_sel (immField w) _ (opField w) h, parts_fields]

/-! The fields A, T, F and KD are those of the select byte alone. -/

theorem aField_selWord (w : Word) : aField w = aField (selWord (selField w)) := by
  rw [aField, getLsbD_selWord w (j := 0) (by decide)]
  rfl

theorem fField_selWord (w : Word) : fField w = fField (selWord (selField w)) :=
  getLsbD_selWord w (j := 2) (by decide)

theorem tField_selWord (w : Word) : tField w = tField (selWord (selField w)) := by
  rw [tField, extract_selWord w (lo := 0) (len := 2) (by decide)]
  rfl

theorem kdField_selWord (w : Word) : kdField w = kdField (selWord (selField w)) := by
  rw [kdField, extract_selWord w (lo := 4) (len := 2) (by decide)]
  rfl

/-! ### Which words decode to a command (R80, R83) -/

theorem checkReserved_eq_ok {fmt : Format} {w : Word} {i j : Instr} :
    checkReserved fmt w i = .ok j ↔ w &&& fmt.reservedMask = 0 ∧ i = j := by
  unfold checkReserved
  split <;> simp_all

theorem checkTable_eq_ok {fmt : Format} {w : Word} {k : TableSel → Instr} {j : Instr} :
    checkTable fmt w k = .ok j ↔ w &&& fmt.reservedMask = 0 ∧ ∃ t, tField w = some t ∧ k t = j := by
  unfold checkTable
  cases tField w <;> split <;> simp_all

/-- The operands of a command stand in their fields of the word (R81, R82). -/
def Instr.operandsIn (w : Word) : Instr → Prop
  | .baAppend a n => aField w = a ∧ immField w = n
  | .baDrain a => aField w = a
  | .baFlush a => aField w = a
  | .baClear a => aField w = a
  | .hlAssign t => tField w = some t
  | .ccBuild t => tField w = some t
  | .blkHeader a f => aField w = a ∧ fField w = f
  | .blkBody a => aField w = a
  | .blkEncode f => fField w = f
  | .tblRead t kd idx => tField w = some t ∧ kdField w = kd ∧ immField w = idx
  | .tblWrite t kd idx => tField w = some t ∧ kdField w = kd ∧ immField w = idx
  | _ => True

/-- The words that decode to a command: its opcode, no reserved bit of its format, and its operands in their fields. -/
theorem decode_eq_ok {w : Word} {i : Instr} :
    decode w = .ok i ↔ opField w = i.opcode ∧ w &&& i.format.reservedMask = 0 ∧ i.operandsIn w := by
  constructor
  · intro h
    unfold decode at h
    split at h
    case h_23 => cases h
    case h_14 hop | h_15 hop =>
      obtain ⟨hmask, t, ht, rfl⟩ := checkTable_eq_ok.mp h
      exact ⟨BitVec.eq_of_toNat_eq hop, hmask, ht⟩
    case h_21 hop | h_22 hop =>
      obtain ⟨hmask, t, ht, rfl⟩ := checkTable_eq_ok.mp h
      exact ⟨BitVec.eq_of_toNat_eq hop, hmask, ht, rfl, rfl⟩
    case h_3 hop | h_18 hop =>
      obtain ⟨hmask, rfl⟩ := checkReserved_eq_ok.mp h
      exact ⟨BitVec.eq_of_toNat_eq hop, hmask, rfl, rfl⟩
    case h_4 hop | h_6 hop | h_7 hop | h_19 hop | h_20 hop =>
      obtain ⟨hmask, rfl⟩ := checkReserved_eq_ok.mp h
      exact ⟨BitVec.eq_of_toNat_eq hop, hmask, rfl⟩
    all_goals
      next hop =>
      obtain ⟨hmask, rfl⟩ := checkReserved_eq_ok.mp h
      exact ⟨BitVec.eq_of_toNat_eq hop, hmask, trivial⟩
  · rintro ⟨hop, hmask, hargs⟩
    rw [decode, hop]
    cases i
    case hlAssign | ccBuild => exact checkTable_eq_ok.mpr ⟨hmask, _, hargs, rfl⟩
    case tblRead | tblWrite =>
      obtain ⟨ht, rfl, rfl⟩ := hargs
      exact checkTable_eq_ok.mpr ⟨hmask, _, ht, rfl⟩
    case baAppend | blkHeader =>
      obtain ⟨rfl, rfl⟩ := hargs
      exact checkReserved_eq_ok.mpr ⟨hmask, rfl⟩
    case baDrain | baFlush | baClear | blkBody | blkEncode =>
      obtain rfl := hargs
      exact checkReserved_eq_ok.mpr ⟨hmask, rfl⟩
    all_goals exact checkReserved_eq_ok.mpr ⟨hmask, rfl⟩

/-! ### Decoding an encoded command (R82, R83) -/

theorem aField_encode (i : Instr) : aField (encode i) = aField (selWord i.selectByte) := by
  rw [aField_selWord, encode, selField_parts]

theorem tField_encode (i : Instr) : tField (encode i) = tField (selWord i.selectByte) := by
  rw [tField_selWord, encode, selField_parts]

theorem kdField_encode (i : Instr) : kdField (encode i) = kdField (selWord i.selectByte) := by
  rw [kdField_selWord, encode, selField_parts]

theorem opField_encode (i : Instr) : opField (encode i) = i.opcode := opField_parts _ _ _

theorem immField_encode (i : Instr) : immField (encode i) = i.imm := immField_parts _ _ _

/-- An encoded command sets no reserved bit of its format. -/
theorem encode_and_reservedMask (i : Instr) : encode i &&& i.format.reservedMask = 0 := by
  suffices h : Laws.EncodeLegal.Statement i from h.2.2
  cases i with
  | nop => exact Laws.EncodeLegal.nop
  | softReset => exact Laws.EncodeLegal.softReset
  | baAppend a n => exact Laws.EncodeLegal.baAppend a n
  | baDrain a => exact Laws.EncodeLegal.baDrain a
  | baExtend => exact Laws.EncodeLegal.baExtend
  | baFlush a => exact Laws.EncodeLegal.baFlush a
  | baClear a => exact Laws.EncodeLegal.baClear a
  | mfReset => exact Laws.EncodeLegal.mfReset
  | mfRegister => exact Laws.EncodeLegal.mfRegister
  | mfLocate => exact Laws.EncodeLegal.mfLocate
  | inClear => exact Laws.EncodeLegal.inClear
  | symRun => exact Laws.EncodeLegal.symRun
  | symRead => exact Laws.EncodeLegal.symRead
  | hlAssign t => exact Laws.EncodeLegal.hlAssign t
  | ccBuild t => exact Laws.EncodeLegal.ccBuild t
  | ctRle => exact Laws.EncodeLegal.ctRle
  | clsRead => exact Laws.EncodeLegal.clsRead
  | blkHeader a f => exact Laws.EncodeLegal.blkHeader a f
  | blkBody a => exact Laws.EncodeLegal.blkBody a
  | blkEncode f => exact Laws.EncodeLegal.blkEncode f
  | tblRead t kd idx => exact Laws.EncodeLegal.tblRead t kd idx
  | tblWrite t kd idx => exact Laws.EncodeLegal.tblWrite t kd idx

/-! The fields A, T and KD of a select byte that is put together from them (R82). -/

theorem aField_formatA (a : AccSel) : aField (selWord (0#7 ++ a.bit)) = a := by cases a <;> rfl

theorem tField_formatX (t : TableSel) (kd : TableKind) :
    tField (selWord (0#2 ++ kd.bits ++ 0#2 ++ t.bits)) = some t := by cases t <;> cases kd <;> rfl

theorem kdField_formatX (t : TableSel) (kd : TableKind) :
    kdField (selWord (0#2 ++ kd.bits ++ 0#2 ++ t.bits)) = kd := by cases t <;> cases kd <;> rfl

/-- The encoder puts every operand in its field: the select byte of each format reads back, and IMM is a part. -/
theorem operandsIn_encode (i : Instr) : i.operandsIn (encode i) := by
  cases i with
  | baAppend a n => exact ⟨(aField_encode _).trans (aField_formatA a), immField_encode _⟩
  | baDrain a | baFlush a | baClear a | blkBody a => exact (aField_encode _).trans (aField_formatA a)
  | hlAssign t | ccBuild t => cases t <;> rfl
  | blkHeader a f => cases a <;> cases f <;> exact ⟨rfl, rfl⟩
  | blkEncode f => cases f <;> rfl
  | tblRead t kd idx | tblWrite t kd idx =>
    exact ⟨(tField_encode _).trans (tField_formatX t kd), (kdField_encode _).trans (kdField_formatX t kd),
      immField_encode _⟩
  | _ => trivial

/-- Settles O7: the encoded word meets the three conditions of `decode_eq_ok`. -/
theorem decodeOfEncodeIsTheCommand : Obligations.DecodeOfEncodeIsTheCommand := fun i =>
  decode_eq_ok.mpr ⟨opField_encode i, encode_and_reservedMask i, operandsIn_encode i⟩

/-- Settles O10: the legal words are encodings of their commands, and the three others fail one check each. -/
theorem workedEncodingsDecode : Obligations.WorkedEncodingsDecode :=
  have hdecode := decodeOfEncodeIsTheCommand
  ⟨hdecode .nop, hdecode (.baAppend .ba1 5), hdecode (.blkHeader .ba1 true), hdecode (.blkEncode true),
    hdecode (.blkEncode false), hdecode (.hlAssign .cl), hdecode (.tblRead .d .code 4), hdecode (.tblWrite .cl .len 18),
    by decide, by decide, by decide⟩

/-! ### Encoding a decoded command (R85, R86) -/

theorem immField_and_mask {w m : Word} (h : w &&& m = 0) : immField w &&& immField m = 0 := by
  rw [immField, immField, ← BitVec.extractLsb'_and, h]
  rfl

theorem selField_and_mask {w m : Word} (h : w &&& m = 0) : selField w &&& selField m = 0 := by
  rw [selField, selField, ← BitVec.extractLsb'_and, h]
  rfl

/-- Where the format has no IMM, all of it is reserved (R82). -/
theorem immField_eq_zero {w : Word} {fmt : Format} (h : w &&& fmt.reservedMask = 0) (han : fmt ≠ .an)
    (hx : fmt ≠ .x) : immField w = 0 := by
  have hall : immField fmt.reservedMask = BitVec.allOnes 16 := by
    cases fmt
    case an => exact absurd rfl han
    case x => exact absurd rfl hx
    all_goals rfl
  rw [← BitVec.and_allOnes (x := immField w), ← hall, immField_and_mask h]

/-- IMM of a word is that of the command whose operands it holds. -/
theorem imm_of_operandsIn {w : Word} {i : Instr} (hmask : w &&& i.format.reservedMask = 0) (h : i.operandsIn w) :
    i.imm = immField w := by
  cases i
  case baAppend => exact h.2.symm
  case tblRead | tblWrite => exact h.2.2.symm
  all_goals exact (immField_eq_zero hmask nofun nofun).symm

/-! The select byte of each format is its fields, where the bits reserved in it are 0 (R82). -/

theorem selField_formatA {w : Word} (h : selField w &&& 0xFE = 0) : selField w = 0#7 ++ (aField w).bit := by
  have hbyte : ∀ sel : BitVec 8, sel &&& 0xFE = 0 → sel = 0#7 ++ (aField (selWord sel)).bit := by decide
  rw [aField_selWord]
  exact hbyte _ h

theorem selField_formatT {w : Word} {t : TableSel} (h : selField w &&& 0xFC = 0) (ht : tField w = some t) :
    selField w = 0#6 ++ t.bits := by
  have hbyte : ∀ sel : BitVec 8, sel &&& 0xFC = 0 → tField (selWord sel) = some t → sel = 0#6 ++ t.bits := by
    cases t <;> decide
  exact hbyte _ h (tField_selWord w ▸ ht)

theorem selField_formatF {w : Word} (h : selField w &&& 0xFB = 0) :
    selField w = 0#5 ++ BitVec.ofBool (fField w) ++ 0#2 := by
  have hbyte : ∀ sel : BitVec 8, sel &&& 0xFB = 0 → sel = 0#5 ++ BitVec.ofBool (fField (selWord sel)) ++ 0#2 := by
    decide
  rw [fField_selWord]
  exact hbyte _ h

theorem selField_formatFA {w : Word} (h : selField w &&& 0xFA = 0) :
    selField w = 0#5 ++ BitVec.ofBool (fField w) ++ 0#1 ++ (aField w).bit := by
  have hbyte : ∀ sel : BitVec 8, sel &&& 0xFA = 0 →
      sel = 0#5 ++ BitVec.ofBool (fField (selWord sel)) ++ 0#1 ++ (aField (selWord sel)).bit := by decide
  rw [fField_selWord, aField_selWord]
  exact hbyte _ h

theorem selField_formatX {w : Word} {t : TableSel} (h : selField w &&& 0xCC = 0) (ht : tField w = some t) :
    selField w = 0#2 ++ (kdField w).bits ++ 0#2 ++ t.bits := by
  have hbyte : ∀ sel : BitVec 8, sel &&& 0xCC = 0 → tField (selWord sel) = some t →
      sel = 0#2 ++ (kdField (selWord sel)).bits ++ 0#2 ++ t.bits := by
    cases t <;> decide
  rw [kdField_selWord]
  exact hbyte _ h (tField_selWord w ▸ ht)

theorem selField_formatZ {w : Word} (h : selField w &&& 0xFF = 0) : selField w = 0 :=
  BitVec.and_allOnes.symm.trans h

/-- The select byte of a word is that of the command whose operands it holds. -/
theorem selectByte_of_operandsIn {w : Word} {i : Instr} (hmask : w &&& i.format.reservedMask = 0)
    (h : i.operandsIn w) : i.selectByte = selField w := by
  cases i
  case baAppend =>
    obtain ⟨rfl, -⟩ := h
    exact (selField_formatA (selField_and_mask (m := Format.an.reservedMask) hmask)).symm
  case baDrain | baFlush | baClear | blkBody =>
    obtain rfl := h
    exact (selField_formatA (selField_and_mask (m := Format.a.reservedMask) hmask)).symm
  case hlAssign | ccBuild =>
    exact (selField_formatT (selField_and_mask (m := Format.t.reservedMask) hmask) h).symm
  case blkHeader =>
    obtain ⟨rfl, rfl⟩ := h
    exact (selField_formatFA (selField_and_mask (m := Format.fa.reservedMask) hmask)).symm
  case blkEncode =>
    obtain rfl := h
    exact (selField_formatF (selField_and_mask (m := Format.f.reservedMask) hmask)).symm
  case tblRead | tblWrite =>
    obtain ⟨ht, rfl, -⟩ := h
    exact (selField_formatX (selField_and_mask (m := Format.x.reservedMask) hmask) ht).symm
  all_goals exact (selField_formatZ (selField_and_mask (m := Format.z.reservedMask) hmask)).symm

/-- Settles O8: opcode, select byte and IMM of the word are those of the command, and they are the whole word. -/
theorem encodeOfDecodeIsTheWord : Obligations.EncodeOfDecodeIsTheWord := by
  intro w i h
  obtain ⟨hop, hmask, hargs⟩ := decode_eq_ok.mp h
  rw [encode, imm_of_operandsIn hmask hargs, selectByte_of_operandsIn hmask hargs, ← hop, parts_fields]

end Sys2Proof
end

section
/-! PROOFS. The engine's step on a word that decodes and on one that does not (R80, R310), and the illegal words of R85:
they are the words that do not decode, and those whose command has a bad KD. -/

namespace Sys2Proof.Machine

/-! ### The engine's step (R80, R310) -/

theorem engineEnabled_inTurn {s : State} (h : s.engineReady) : engineEnabled s.inTurn = true := by
  obtain ⟨-, hb, hf⟩ := h
  simp [engineEnabled, State.inTurn, hb, hf]

theorem step_of_decode_ok {s : State} {i : Instr} (h : s.engineReady) (hi : decode s.data.pending = .ok i) :
    step s = exec i s.inTurn := by
  rw [step_engineNext h.1, engineTurn, if_pos (engineEnabled_inTurn h),
    show decode s.inTurn.data.pending = .ok i from hi]

theorem step_of_decode_error {s : State} {e : DecodeError} (h : s.engineReady)
    (he : decode s.data.pending = .error e) : step s = .next (raiseCommand .illegalCommand s.inTurn) := by
  rw [step_engineNext h.1, engineTurn, if_pos (engineEnabled_inTurn h),
    show decode s.inTurn.data.pending = .error e from he]

/-- Settles O4: the engine's turn is the decoder's two answers. -/
theorem stepRunsTheDecodedCommand : Obligations.StepRunsTheDecodedCommand := fun s h =>
  ⟨fun _ hi => step_of_decode_ok h hi, fun _ he => ⟨_, step_of_decode_error h he, raiseCommand_recorded _ s.inTurn⟩⟩

/-- Settles O23: the command is the reset of the block, which keeps the world outside it. -/
theorem softResetCommandResets : Obligations.SoftResetCommandResets := fun s =>
  ⟨resetBlock s, rfl, ⟨rfl, rfl, rfl, rfl, rfl, rfl⟩, rfl, rfl⟩

/-! ### The fields T and KD as raw bits (R81) -/

theorem tField_eq_none {w : Word} : tField w = none ↔ w.extractLsb' 8 2 = 3 := by
  unfold tField
  generalize w.extractLsb' 8 2 = v
  revert v
  decide

theorem readable_kdField {w : Word} : (kdField w).readable = false ↔ w.extractLsb' 12 2 = 3 := by
  unfold kdField
  generalize w.extractLsb' 12 2 = v
  revert v
  decide

theorem writable_kdField {w : Word} : (kdField w).writable = false ↔ 2 ≤ (w.extractLsb' 12 2).toNat := by
  unfold kdField
  generalize w.extractLsb' 12 2 = v
  revert v
  decide

/-! ### The illegal words (R85) -/

/-- The opcode map lists every command with its format (R83). -/
theorem lookup_opcode (i : Instr) : opcodeMap.lookup i.opcode.toNat = some i.format := by cases i <;> rfl

/-- A word whose command has field T does not hold T = 3. -/
theorem tField_of_operandsIn {w : Word} {i : Instr} (h : i.operandsIn w) (hfmt : i.format = .t ∨ i.format = .x) :
    w.extractLsb' 8 2 ≠ 3 := by
  suffices ht : ∃ t, tField w = some t by
    obtain ⟨t, ht⟩ := ht
    exact fun h3 => nomatch ht.symm.trans (tField_eq_none.mpr h3)
  cases i
  case hlAssign | ccBuild => exact ⟨_, h⟩
  case tblRead | tblWrite => exact ⟨_, h.1⟩
  all_goals simp [Instr.format] at hfmt

/-- The KD of a word is illegal exactly where its command is not well formed. -/
theorem badKd_iff {w : Word} {i : Instr} (h : i.operandsIn w) :
    (i.opcode = 0x80 ∧ w.extractLsb' 12 2 = 3 ∨ i.opcode = 0x81 ∧ 2 ≤ (w.extractLsb' 12 2).toNat)
      ↔ i.wellFormed = false := by
  cases i
  case tblRead =>
    obtain ⟨-, rfl, -⟩ := h
    simp [Instr.opcode, Instr.wellFormed, readable_kdField]
  case tblWrite =>
    obtain ⟨-, rfl, -⟩ := h
    simp [Instr.opcode, Instr.wellFormed, writable_kdField]
  all_goals simp [Instr.opcode, Instr.wellFormed]

/-- Of the words that decode, the illegal ones are those whose command has a bad KD. -/
theorem illegalWord_of_decode_ok {w : Word} {i : Instr} (h : decode w = .ok i) :
    illegalWord w ↔ i.wellFormed = false := by
  obtain ⟨hop, hmask, hargs⟩ := decode_eq_ok.mp h
  rw [opField] at hop
  rw [illegalWord, hop, lookup_opcode, ← badKd_iff hargs]
  constructor
  · rintro (hres | ⟨hfmt, ht⟩ | hkd)
    · exact absurd hmask hres
    · exact absurd ht (tField_of_operandsIn hargs hfmt)
    · exact hkd
  · exact fun hkd => .inr (.inr hkd)

theorem illegalWord_of_checkReserved {w : Word} {fmt : Format} {i : Instr} {e : DecodeError}
    (hop : opcodeMap.lookup (opField w).toNat = some fmt) (h : checkReserved fmt w i = .error e) : illegalWord w := by
  rw [opField] at hop
  rw [illegalWord, hop]
  refine .inl fun hmask => ?_
  rw [checkReserved, if_pos hmask] at h
  cases h

theorem illegalWord_of_checkTable {w : Word} {fmt : Format} {k : TableSel → Instr} {e : DecodeError}
    (hop : opcodeMap.lookup (opField w).toNat = some fmt) (hfmt : fmt = .t ∨ fmt = .x)
    (h : checkTable fmt w k = .error e) : illegalWord w := by
  rw [opField] at hop
  rw [illegalWord, hop]
  by_cases hmask : w &&& fmt.reservedMask = 0
  · refine .inr (.inl ⟨hfmt, tField_eq_none.mp ?_⟩)
    cases ht : tField w with
    | none => rfl
    | some t =>
      rw [checkTable, if_pos hmask, ht] at h
      cases h
  · exact .inl hmask

/-- Every word that does not decode is illegal. -/
theorem illegalWord_of_decode_error {w : Word} {e : DecodeError} (h : decode w = .error e) : illegalWord w := by
  unfold decode at h
  split at h
  case h_14 hop | h_15 hop => exact illegalWord_of_checkTable (by rw [hop]; rfl) (.inl rfl) h
  case h_21 hop | h_22 hop => exact illegalWord_of_checkTable (by rw [hop]; rfl) (.inr rfl) h
  case h_23 =>
    have hnone : opcodeMap.lookup (opField w).toNat = none := List.lookup_eq_none_iff.mpr (by simp_all [opcodeMap])
    rw [opField] at hnone
    rw [illegalWord, hnone]
    trivial
  all_goals
    next hop => exact illegalWord_of_checkReserved (by rw [hop]; rfl) h

end Sys2Proof.Machine
end

section
/-! PROOFS. No command but a TBL_READ or TBL_WRITE with a bad KD raises ILLEGAL_COMMAND (R85, R254, R256, R271): what
each operation is made of raises other faults only. -/

namespace Sys2Proof.Machine

/-- The computation does not raise ILLEGAL_COMMAND. -/
def neverIllegal {α : Type} (x : Except FaultKind α) : Prop := x ≠ .error .illegalCommand

theorem neverIllegal_ok {α : Type} (a : α) : neverIllegal (.ok a : Except FaultKind α) := nofun

theorem neverIllegal_error {α : Type} {k : FaultKind} (h : k ≠ .illegalCommand) :
    neverIllegal (.error k : Except FaultKind α) := fun he => h (Except.error.inj he)

theorem neverIllegal_bind {α β : Type} {x : Except FaultKind α} {f : α → Except FaultKind β} (hx : neverIllegal x)
    (hf : ∀ a, neverIllegal (f a)) : neverIllegal (x >>= f) := by
  cases x with
  | ok a => exact hf a
  | error k => exact neverIllegal_error fun hk => hx (congrArg Except.error hk)

theorem neverIllegal_map {α β : Type} {x : Except FaultKind α} {f : α → β} (hx : neverIllegal x) :
    neverIllegal (x.map f) := by
  cases x with
  | ok a => exact neverIllegal_ok _
  | error k => exact neverIllegal_error fun hk => hx (congrArg Except.error hk)

/-- A check that raises another fault, and what comes after it. -/
theorem neverIllegal_check {α : Type} {c : Prop} [Decidable c] {k : FaultKind} {x : Except FaultKind α}
    (hk : k ≠ .illegalCommand) (hx : neverIllegal x) : neverIllegal (if c then .error k else x) := by
  split
  · exact neverIllegal_error hk
  · exact hx

/-! ### The bit accumulator (R110, R220) -/

theorem neverIllegal_appendBit (a : Accum) (bit : Bool) : neverIllegal (a.appendBit bit) := by
  unfold Accum.appendBit
  split
  · exact neverIllegal_ok _
  · exact neverIllegal_check (by decide) (neverIllegal_ok _)

theorem neverIllegal_appendBits (bs : List Bool) (a : Accum) : neverIllegal (a.appendBits bs) := by
  induction bs generalizing a with
  | nil => exact neverIllegal_ok _
  | cons b bs ih => exact neverIllegal_bind (neverIllegal_appendBit a b) ih

theorem neverIllegal_appendNum (a : Accum) (v n : Nat) : neverIllegal (a.appendNum v n) := neverIllegal_appendBits _ a

theorem neverIllegal_appendCode (a : Accum) (c : CodeEntry) : neverIllegal (a.appendCode c) := by
  rw [appendCode_eq]
  exact neverIllegal_check (by decide) (neverIllegal_appendBits _ a)

/-! ### Symbols and code tables (R98, R99, R153, R171, R191) -/

theorem neverIllegal_lcode (l : Nat) : neverIllegal (lcode l) := by
  refine neverIllegal_check (by decide) ?_
  split
  · exact neverIllegal_ok _
  · split <;> exact neverIllegal_ok _

theorem neverIllegal_dcode (d : Nat) : neverIllegal (dcode d) := by
  refine neverIllegal_check (by decide) ?_
  split <;> exact neverIllegal_ok _

theorem neverIllegal_countSymbol (t : Weights) (x : Symbol) : neverIllegal (countSymbol t x) := by
  cases x with
  | literal b => exact neverIllegal_ok _
  | reference l d =>
    exact neverIllegal_bind (neverIllegal_lcode l) fun _ =>
      neverIllegal_bind (neverIllegal_dcode d) fun _ => neverIllegal_ok _
  | endOfBlock => exact neverIllegal_ok _

theorem neverIllegal_countSymbols (xs : List Symbol) (t : Weights) : neverIllegal (countSymbols xs t) := by
  induction xs generalizing t with
  | nil => exact neverIllegal_ok _
  | cons x xs ih => exact neverIllegal_bind (neverIllegal_countSymbol t x) ih

theorem neverIllegal_assignPairs (ws : List Nat) (n limit : Nat) : neverIllegal (assignPairs ws n limit) := by
  unfold assignPairs
  split
  · exact neverIllegal_ok _
  · exact neverIllegal_ok _
  · exact neverIllegal_check (by decide) (neverIllegal_ok _)

theorem neverIllegal_assignCodes (xs : List Lengthed) (c width : Nat) : neverIllegal (assignCodes c width xs) := by
  induction xs generalizing c width with
  | nil => exact neverIllegal_ok _
  | cons x xs ih => exact neverIllegal_check (by decide) (neverIllegal_map (ih _ _))

/-! ### The block's header and body (R221, R222, R224) -/

theorem neverIllegal_appendSymbol (d : Data) (a : Accum) (x : Symbol) : neverIllegal (appendSymbol d a x) := by
  cases x with
  | literal b => exact neverIllegal_appendCode _ _
  | endOfBlock => exact neverIllegal_appendCode _ _
  | reference l dist =>
    exact neverIllegal_bind (neverIllegal_lcode l) fun _ =>
      neverIllegal_bind (neverIllegal_appendCode _ _) fun _ =>
      neverIllegal_bind (neverIllegal_appendNum _ _ _) fun _ =>
      neverIllegal_bind (neverIllegal_dcode dist) fun _ =>
      neverIllegal_bind (neverIllegal_appendCode _ _) fun _ => neverIllegal_appendNum _ _ _

theorem neverIllegal_appendSymbols (d : Data) (xs : List Symbol) (a : Accum) : neverIllegal (appendSymbols d xs a) := by
  induction xs generalizing a with
  | nil => exact neverIllegal_ok _
  | cons x xs ih => exact neverIllegal_bind (neverIllegal_appendSymbol d a x) ih

theorem neverIllegal_appendMetas (d : Data) (es : List ClsEntry) (a : Accum) : neverIllegal (appendMetas d es a) := by
  induction es generalizing a with
  | nil => exact neverIllegal_ok _
  | cons e es ih =>
    exact neverIllegal_bind (neverIllegal_bind (neverIllegal_appendCode _ _) fun _ => neverIllegal_appendNum _ _ _) ih

theorem neverIllegal_appendClLengths (d : Data) (ss : List Nat) (a : Accum) :
    neverIllegal (appendClLengths d ss a) := by
  induction ss generalizing a with
  | nil => exact neverIllegal_ok _
  | cons s ss ih => exact neverIllegal_bind (neverIllegal_appendNum _ _ _) ih

theorem neverIllegal_appendHeader (d : Data) (f : Bool) (a : Accum) : neverIllegal (appendHeader d f a) :=
  neverIllegal_bind (neverIllegal_appendNum _ _ _) fun _ =>
  neverIllegal_bind (neverIllegal_appendNum _ _ _) fun _ =>
  neverIllegal_bind (neverIllegal_appendNum _ _ _) fun _ =>
  neverIllegal_bind (neverIllegal_appendNum _ _ _) fun _ =>
  neverIllegal_bind (neverIllegal_appendNum _ _ _) fun _ =>
  neverIllegal_bind (neverIllegal_appendClLengths _ _ _) fun _ => neverIllegal_appendMetas _ _ _

/-! ### The commands -/

theorem neverIllegal_baAppendOp (a : AccSel) (n : BitVec 16) (d : Data) : neverIllegal (baAppendOp a n d) :=
  neverIllegal_check (by decide) (neverIllegal_map (neverIllegal_appendBits _ _))

theorem neverIllegal_baDrainOp (a : AccSel) (d : Data) : neverIllegal (baDrainOp a d) :=
  neverIllegal_check (by decide) (neverIllegal_ok _)

theorem neverIllegal_baFlushOp (a : AccSel) (d : Data) : neverIllegal (baFlushOp a d) := by
  simp only [baFlushOp]
  split
  · exact neverIllegal_check (by decide) (neverIllegal_ok _)
  · exact neverIllegal_ok _

theorem neverIllegal_tblReadOp {kd : TableKind} (h : kd.readable = true) (t : TableSel) (idx : BitVec 16) (d : Data) :
    neverIllegal (tblReadOp t kd idx d) := by
  unfold tblReadOp
  rw [if_neg (by simp [h])]
  refine neverIllegal_check (by decide) ?_
  cases kd with
  | freq | len | code => exact neverIllegal_ok _
  | reserved => cases h

theorem neverIllegal_tblWriteOp {kd : TableKind} (h : kd.writable = true) (t : TableSel) (idx : BitVec 16) (d : Data) :
    neverIllegal (tblWriteOp t kd idx d) := by
  unfold tblWriteOp
  rw [if_neg (by simp [h])]
  refine neverIllegal_check (by decide) ?_
  cases kd with
  | freq => exact neverIllegal_ok _
  | len => exact neverIllegal_check (by decide) (neverIllegal_ok _)
  | code | reserved => cases h

/-- No unit command with a legal encoding raises ILLEGAL_COMMAND. -/
theorem neverIllegal_unit {i : Instr} (hi : i.isUnit) (hwf : i.wellFormed = true) (d : Data) :
    neverIllegal (i.op d) := by
  cases i with
  | softReset | blkEncode => exact hi.elim
  | baAppend a n => exact neverIllegal_baAppendOp a n d
  | baDrain a => exact neverIllegal_baDrainOp a d
  | baExtend => exact neverIllegal_map (neverIllegal_appendBits _ _)
  | baFlush a => exact neverIllegal_baFlushOp a d
  | symRun => exact neverIllegal_bind (neverIllegal_countSymbols _ _) fun _ => neverIllegal_ok _
  | hlAssign t => exact neverIllegal_bind (neverIllegal_map (neverIllegal_assignPairs _ _ _)) fun _ => neverIllegal_ok _
  | ccBuild t => exact neverIllegal_bind (neverIllegal_assignCodes _ _ _) fun _ => neverIllegal_ok _
  | blkHeader a f => exact neverIllegal_bind (neverIllegal_appendHeader _ _ _) fun _ => neverIllegal_ok _
  | blkBody a => exact neverIllegal_bind (neverIllegal_appendSymbols _ _ _) fun _ => neverIllegal_ok _
  | tblRead t kd idx => exact neverIllegal_tblReadOp hwf t idx d
  | tblWrite t kd idx => exact neverIllegal_tblWriteOp hwf t idx d
  | _ => exact neverIllegal_ok _

/-- BLK_ENCODE runs unit commands with legal encodings only (R230). -/
theorem neverIllegal_blkEncodeOp (f : Bool) (d : Data) : neverIllegal (blkEncodeOp f d) :=
  neverIllegal_bind (neverIllegal_unit (i := .symRun) trivial rfl _) fun _ =>
  neverIllegal_bind (neverIllegal_unit (i := .hlAssign .ll) trivial rfl _) fun _ =>
  neverIllegal_bind (neverIllegal_unit (i := .hlAssign .d) trivial rfl _) fun _ =>
  neverIllegal_bind (neverIllegal_unit (i := .ccBuild .ll) trivial rfl _) fun _ =>
  neverIllegal_bind (neverIllegal_unit (i := .ccBuild .d) trivial rfl _) fun _ =>
  neverIllegal_bind (neverIllegal_unit (i := .ctRle) trivial rfl _) fun _ =>
  neverIllegal_bind (neverIllegal_unit (i := .hlAssign .cl) trivial rfl _) fun _ =>
  neverIllegal_bind (neverIllegal_unit (i := .ccBuild .cl) trivial rfl _) fun _ =>
  neverIllegal_bind (neverIllegal_unit (i := .baClear .ba1) trivial rfl _) fun _ =>
  neverIllegal_bind (neverIllegal_unit (i := .blkHeader .ba1 f) trivial rfl _) fun _ =>
  neverIllegal_bind (neverIllegal_unit (i := .blkBody .ba1) trivial rfl _) fun _ =>
  neverIllegal_bind (neverIllegal_unit (i := .baExtend) trivial rfl _) fun _ =>
  neverIllegal_bind (neverIllegal_unit (i := .baDrain .ba0) trivial rfl _) fun _ =>
  neverIllegal_bind (neverIllegal_unit (i := .inClear) trivial rfl _) fun _ => neverIllegal_ok _

/-- No command with a legal encoding raises ILLEGAL_COMMAND. -/
theorem neverIllegal_op {i : Instr} (hi : i ≠ .softReset) (hwf : i.wellFormed = true) (d : Data) :
    neverIllegal (i.op d) := by
  rcases unit_or_blkEncode hi with hu | ⟨f, rfl⟩
  · exact neverIllegal_unit hu hwf d
  · exact neverIllegal_blkEncodeOp f d

/-! ### The step of every word (R85) -/

theorem code_eq_illegalCommand {k : FaultKind} (h : k.code = FaultKind.illegalCommand.code) : k = .illegalCommand := by
  revert h
  cases k <;> decide

/-- A command with a bad KD raises ILLEGAL_COMMAND (R254, R256). -/
theorem exec_of_not_wellFormed {i : Instr} (h : i.wellFormed = false) (s : State) :
    exec i s = .next (raiseCommand .illegalCommand s) := by
  cases i
  case tblRead => exact runCommand_error (if_pos h)
  case tblWrite => exact runCommand_error (if_pos h)
  all_goals cases h

/-- A command with a legal encoding, run with no fault recorded, records no ILLEGAL_COMMAND. -/
theorem exec_of_wellFormed {i : Instr} {s t : State} (hwf : i.wellFormed = true) (hf : s.fault = false)
    (h : exec i s = .next t) (src : Bool) (info : Word) : ¬ t.recorded .illegalCommand src info := by
  rintro ⟨-, hfault, hcode, -, -⟩
  by_cases hi : i = .softReset
  · subst hi
    cases h
    cases hfault
  · rw [exec_eq_runCommand hi] at h
    rcases runCommand_next h with ⟨d, -, rfl⟩ | ⟨k, hk, rfl⟩
    · exact Bool.false_ne_true (hf.symm.trans hfault)
    · exact neverIllegal_op hi hwf _ (hk.trans (congrArg _ (code_eq_illegalCommand hcode)))

/-- A word that is not illegal decodes to a legal command. -/
theorem decode_of_not_illegalWord {w : Word} (h : ¬ illegalWord w) : ∃ i, decode w = .ok i ∧ i.wellFormed = true := by
  cases hd : decode w with
  | error e => exact absurd (illegalWord_of_decode_error hd) h
  | ok i =>
    refine ⟨i, rfl, ?_⟩
    rwa [illegalWord_of_decode_ok hd, Bool.not_eq_false] at h

/-- Settles O9: an illegal word does not decode or is not well formed, and a well-formed command never raises
ILLEGAL_COMMAND. -/
theorem everyWordIsACommandOrIllegal : Obligations.EveryWordIsACommandOrIllegal := by
  refine ⟨fun s hs hill => ⟨raiseCommand .illegalCommand s.inTurn, ?_, raiseCommand_recorded _ s.inTurn⟩,
    fun w => decode_of_not_illegalWord, fun s t hs hlegal hstep src info => ?_⟩
  · cases hd : decode s.data.pending with
    | error e => exact step_of_decode_error hs hd
    | ok i =>
      rw [step_of_decode_ok hs hd]
      exact exec_of_not_wellFormed ((illegalWord_of_decode_ok hd).mp hill) _
  · obtain ⟨i, hd, hwf⟩ := decode_of_not_illegalWord hlegal
    rw [step_of_decode_ok hs hd] at hstep
    obtain ⟨-, -, hquiet⟩ := hs
    exact exec_of_wellFormed (s := s.inTurn) hwf hquiet hstep src info

end Sys2Proof.Machine
end

section
/-! PROOFS. The key of K bytes is the number they spell in base 256, first byte most significant (R100), so it is
injective on K-byte strings. -/

namespace Sys2Proof.Machine

/-- Shifting a byte in from below. -/
theorem shiftLeft_xor_byte (h : Nat) (b : Byte) : h <<< 8 ^^^ b.toNat = b.toNat + 256 * h := by
  have hb : b.toNat < 2 ^ 8 := b.isLt
  rw [Nat.add_comm, show 256 = 2 ^ 8 from rfl]
  apply Nat.eq_of_testBit_eq
  intro j
  rw [Nat.testBit_two_pow_mul_add _ hb, Nat.testBit_xor, Nat.testBit_shiftLeft]
  by_cases hj : j < 8
  · simp [hj, Nat.not_le.mpr hj]
  · have hz : b.toNat.testBit j = false :=
      Nat.testBit_lt_two_pow (hb.trans_le (Nat.pow_le_pow_right (by decide) (Nat.not_lt.mp hj)))
    simp [hj, hz, Nat.not_lt.mp hj]

/-- A turn of the fold that stays within K bytes, as a number. -/
theorem toNat_keyTurn {k n : Nat} {h : Word} (b : Byte) (hk : k ≤ 4) (hn : n + 1 ≤ k) (hh : h.toNat < 256 ^ n) :
    (keyTurn k h b).toNat = b.toNat + 256 * h.toNat := by
  have hfit : b.toNat + 256 * h.toNat < 256 ^ k :=
    calc b.toNat + 256 * h.toNat < 256 ^ (n + 1) := by have := b.isLt; rw [Nat.pow_succ]; omega
      _ ≤ 256 ^ k := Nat.pow_le_pow_right (by decide) hn
  have hpow : 256 ^ k = 2 ^ (8 * k) := by rw [Nat.pow_mul]
  have hword : 2 ^ (8 * k) ≤ 2 ^ 32 := Nat.pow_le_pow_right (by decide) (by omega)
  have hshift : h.toNat <<< 8 < 2 ^ 32 := by rw [Nat.shiftLeft_eq]; omega
  have hmask : (keyMask k).toNat = 2 ^ (8 * k) - 1 := by
    rw [keyMask, BitVec.toNat_ofNat]
    exact Nat.mod_eq_of_lt (by have := Nat.two_pow_pos (8 * k); omega)
  have hbyte : (b.zeroExtend 32).toNat = b.toNat := by
    rw [BitVec.zeroExtend, BitVec.toNat_setWidth]
    exact Nat.mod_eq_of_lt (by have := b.isLt; omega)
  rw [keyTurn, BitVec.toNat_and, hmask, Nat.and_two_pow_sub_one_eq_mod, BitVec.toNat_xor, BitVec.toNat_shiftLeft,
    Nat.mod_eq_of_lt hshift, hbyte, shiftLeft_xor_byte]
  exact Nat.mod_eq_of_lt (hpow ▸ hfit)

/-- The digits of a byte string in base 256, last byte first. -/
def byteDigits (bs : List Byte) : List Nat := bs.reverse.map BitVec.toNat

theorem length_byteDigits (bs : List Byte) : (byteDigits bs).length = bs.length := by simp [byteDigits]

theorem byteDigits_lt (bs : List Byte) : ∀ x ∈ byteDigits bs, x < 256 := by
  intro x hx
  obtain ⟨b, -, rfl⟩ := List.mem_map.mp hx
  exact b.isLt

theorem byteDigits_injective : Function.Injective byteDigits := fun _ _ h =>
  List.reverse_injective (List.map_injective_iff.mpr (fun _ _ => BitVec.eq_of_toNat_eq) h)

/-- The fold over at most K bytes is the number of their digits. -/
theorem toNat_foldl_keyTurn {k : Nat} (hk : k ≤ 4) (bs : List Byte) (hlen : bs.length ≤ k) :
    (bs.foldl (keyTurn k) 0).toNat = Nat.ofDigits 256 (byteDigits bs) := by
  induction bs using List.reverseRecOn with
  | nil => rfl
  | append_singleton bs b ih =>
    rw [List.length_append, List.length_singleton] at hlen
    have ih := ih (by omega)
    have hlt := Nat.ofDigits_lt_base_pow_length (by decide) (byteDigits_lt bs)
    rw [← ih, length_byteDigits] at hlt
    have hdigits : byteDigits (bs ++ [b]) = b.toNat :: byteDigits bs := by simp [byteDigits]
    rw [List.foldl_append, List.foldl_cons, List.foldl_nil, toNat_keyTurn b hk hlen hlt, ih, hdigits, Nat.ofDigits_cons]

/-- Keys of K-byte strings are equal only when the strings are. -/
theorem foldl_keyTurn_inj {k : Nat} (hk : k ≤ 4) {bs cs : List Byte} (hb : bs.length = k) (hc : cs.length = k)
    (h : bs.foldl (keyTurn k) 0 = cs.foldl (keyTurn k) 0) : bs = cs := by
  have hdigits := congrArg BitVec.toNat h
  rw [toNat_foldl_keyTurn hk bs hb.le, toNat_foldl_keyTurn hk cs hc.le] at hdigits
  refine byteDigits_injective (Nat.ofDigits_inj_of_len_eq (by decide) ?_ (byteDigits_lt bs) (byteDigits_lt cs) hdigits)
  rw [length_byteDigits, length_byteDigits, hb, hc]

/-- Settles O36: the key is the fold of the K bytes, and the fold is injective on strings of K bytes. -/
theorem keysAreEqualExactlyWhenTheirBytesAre : Obligations.KeysAreEqualExactlyWhenTheirBytesAre := by
  intro bytes k p q hk hp hq
  have hlen : ∀ {i}, i + k ≤ bytes.length → ((bytes.drop i).take k).length = k := fun hi => by
    rw [List.length_take, List.length_drop]
    omega
  rw [keyAt_eq_foldl, keyAt_eq_foldl]
  exact ⟨foldl_keyTurn_inj (by omega) (hlen hp) (hlen hq), fun h => by rw [h]⟩

end Sys2Proof.Machine
end

section
/-! PROOFS. The closed forms of R98 and R99 on the rows of R96 and R97: a value above the first rows is, less its offset,
a leading part of 3 or 2 bits followed by the row's extra bits. -/

namespace Sys2Proof.Machine

/-- A number of `m + 1` leading and `e` extra bits: its bit length and its two parts. -/
theorem split_extra {m h e x : Nat} (hh : h < 2 ^ m) (hx : x < 2 ^ e) :
    bitLength ((2 ^ m + h) * 2 ^ e + x) = m + e + 1
      ∧ ((2 ^ m + h) * 2 ^ e + x) >>> e % 2 ^ m = h ∧ ((2 ^ m + h) * 2 ^ e + x) % 2 ^ e = x := by
  have hpos := Nat.two_pow_pos e
  have hlo : 2 ^ (m + e) ≤ (2 ^ m + h) * 2 ^ e + x := by rw [Nat.pow_add, Nat.add_mul]; omega
  have hhi : (2 ^ m + h) * 2 ^ e + x < 2 ^ (m + e + 1) :=
    calc (2 ^ m + h) * 2 ^ e + x < (2 ^ m + h + 1) * 2 ^ e := by rw [Nat.add_mul _ 1]; omega
      _ ≤ (2 ^ (m + 1)) * 2 ^ e := Nat.mul_le_mul_right _ (by rw [Nat.pow_succ]; omega)
      _ = 2 ^ (m + e + 1) := by rw [← Nat.pow_add]; congr 1; omega
  have hne : (2 ^ m + h) * 2 ^ e + x ≠ 0 := by have := Nat.two_pow_pos (m + e); omega
  refine ⟨?_, ?_, ?_⟩
  · rw [bitLength, if_neg hne, (Nat.log2_eq_iff hne).mpr ⟨hlo, hhi⟩]
  · rw [Nat.shiftRight_eq_div_pow, Nat.mul_comm, Nat.mul_add_div hpos, Nat.div_eq_of_lt hx, Nat.add_zero,
      Nat.add_mod_left, Nat.mod_eq_of_lt hh]
  · rw [Nat.mul_comm, Nat.mul_add_mod, Nat.mod_eq_of_lt hx]

/-- R98 on a row with extra bits: of l - 3 the three leading bits are 1 and `h`, and the others `x`. -/
theorem lcode_split {h e x : Nat} (hh : h < 4) (he : 1 ≤ e) (hx : x < 2 ^ e) (hmax : (4 + h) * 2 ^ e + x + 3 ≤ 257) :
    lcode ((4 + h) * 2 ^ e + x + 3) = .ok ⟨257 + 4 * (e + 1) + h, e, x⟩ := by
  obtain ⟨hlen, hlead, hlow⟩ := split_extra (m := 2) hh hx
  have hbig : 8 ≤ (4 + h) * 2 ^ e :=
    Nat.mul_le_mul (show 4 ≤ 4 + h by omega) (Nat.pow_le_pow_right (show 0 < 2 by decide) he)
  have hrange : ¬((4 + h) * 2 ^ e + x + 3 < Config.minMatch ∨ Config.maxMatch < (4 + h) * 2 ^ e + x + 3) := by
    simp only [Config.minMatch, Config.maxMatch]
    omega
  simp only [lcode]
  rw [if_neg hrange, if_neg (by omega), if_neg (by omega), Nat.add_sub_cancel]
  simp only [Nat.reducePow] at hlen hlead hlow
  rw [hlen, show 2 + e + 1 - 3 = e by omega, show 2 + e + 1 - 2 = e + 1 by omega, hlead, hlow]

/-- R99 on a row with extra bits: of d - 1 the two leading bits are 1 and `h`, and the others `x`. -/
theorem dcode_split {h e x : Nat} (hh : h < 2) (he : 1 ≤ e) (hx : x < 2 ^ e)
    (hmax : (2 + h) * 2 ^ e + x + 1 ≤ 32768) : dcode ((2 + h) * 2 ^ e + x + 1) = .ok ⟨2 * (e + 1) + h, e, x⟩ := by
  obtain ⟨hlen, hlead, hlow⟩ := split_extra (m := 1) hh hx
  have hbig : 4 ≤ (2 + h) * 2 ^ e :=
    Nat.mul_le_mul (show 2 ≤ 2 + h by omega) (Nat.pow_le_pow_right (show 0 < 2 by decide) he)
  have hrange : ¬((2 + h) * 2 ^ e + x + 1 < 1 ∨ Config.maxDist < (2 + h) * 2 ^ e + x + 1) := by
    simp only [Config.maxDist]
    omega
  simp only [dcode]
  rw [if_neg hrange, if_neg (by omega), Nat.add_sub_cancel]
  simp only [Nat.pow_one] at hlen hlead hlow
  rw [hlen, show 1 + e + 1 - 2 = e by omega, show 1 + e + 1 - 1 = e + 1 by omega, hlead, hlow]

/-- The rows of R96: those of one value, and those of a leading part and extra bits. -/
theorem lengthRows_cases : ∀ r ∈ lengthRows,
    (r.first = r.last ∧ lcode r.first = .ok ⟨r.symbol, r.extra, 0⟩)
      ∨ ∃ h < 4, r.symbol = 257 + 4 * (r.extra + 1) + h ∧ r.first = (4 + h) * 2 ^ r.extra + 3 ∧ 1 ≤ r.extra
        ∧ r.last < r.first + 2 ^ r.extra ∧ r.last ≤ 257 := by decide

/-- The rows of R97: those of one value, and those of a leading part and extra bits. -/
theorem distanceRows_cases : ∀ r ∈ distanceRows,
    (r.first = r.last ∧ dcode r.first = .ok ⟨r.symbol, r.extra, 0⟩)
      ∨ ∃ h < 2, r.symbol = 2 * (r.extra + 1) + h ∧ r.first = (2 + h) * 2 ^ r.extra + 1 ∧ 1 ≤ r.extra
        ∧ r.last < r.first + 2 ^ r.extra ∧ r.last ≤ 32768 := by decide

theorem lcode_row {r : CodeRow} (hr : r ∈ lengthRows) {l : Nat} (hlo : r.first ≤ l) (hhi : l ≤ r.last) :
    lcode l = .ok ⟨r.symbol, r.extra, l - r.first⟩ := by
  rcases lengthRows_cases r hr with ⟨hone, hcode⟩ | ⟨h, hh, hsym, hfirst, he, hlast, hmax⟩
  · obtain rfl : l = r.first := by omega
    rw [hcode, Nat.sub_self]
  · obtain ⟨x, rfl⟩ := Nat.exists_eq_add_of_le hlo
    have hcode := lcode_split hh he (show x < 2 ^ r.extra by omega) (by omega)
    rw [hsym, Nat.add_sub_cancel_left, ← hcode]
    congr 1
    omega

theorem dcode_row {r : CodeRow} (hr : r ∈ distanceRows) {d : Nat} (hlo : r.first ≤ d) (hhi : d ≤ r.last) :
    dcode d = .ok ⟨r.symbol, r.extra, d - r.first⟩ := by
  rcases distanceRows_cases r hr with ⟨hone, hcode⟩ | ⟨h, hh, hsym, hfirst, he, hlast, hmax⟩
  · obtain rfl : d = r.first := by omega
    rw [hcode, Nat.sub_self]
  · obtain ⟨x, rfl⟩ := Nat.exists_eq_add_of_le hlo
    have hcode := dcode_split hh he (show x < 2 ^ r.extra by omega) (by omega)
    rw [hsym, Nat.add_sub_cancel_left, ← hcode]
    congr 1
    omega

/-- Settles O50: each row by its leading part and extra bits; outside the tables the range check comes first. -/
theorem lengthAndDistanceCodesAreTheTables : Obligations.LengthAndDistanceCodesAreTheTables :=
  ⟨fun _ hr _ => lcode_row hr, fun _ hr _ => dcode_row hr, fun _ hl => if_pos hl, fun _ hd => if_pos hd⟩

end Sys2Proof.Machine
end

section
/-! PROOFS. The Bit Accumulator commands (R110 to R119): an append overflows exactly where its last byte would exceed
OUT_CAP, and each command completes with its operation's data or records its fault. -/

namespace Sys2Proof.Machine

/-! ### A command that completes and one that faults (R251, R270) -/

theorem exec_of_op_ok {i : Instr} {s : State} {d : Data} (hi : i ≠ .softReset) (h : i.op s.data = .ok d) :
    exec i s = .next (s.completed d) := by
  rw [exec_eq_runCommand hi, runCommand_ok h]

theorem exec_of_op_error {i : Instr} {s : State} {k : FaultKind} (hi : i ≠ .softReset)
    (h : i.op s.data = .error k) : ∃ t, exec i s = .next t ∧ t.recorded k false s.data.pending := by
  rw [exec_eq_runCommand hi, runCommand_error h]
  exact ⟨_, rfl, raiseCommand_recorded k s⟩

/-! ### Where an append overflows (R119) -/

theorem bitCount_lt_of_ok {a : Accum} (ha : a.ok) : a.bitCount < 8 * (Config.outCap + 1) := by
  have hbytes := ha.1
  have hpc := a.pc.isLt
  rw [Accum.bitCount]
  omega

/-- An append that completed would leave an accumulator of more bits than R49's bounds allow. -/
theorem appendBits_of_overflow {bs : List Bool} {a : Accum} (ha : a.ok)
    (h : 8 * (Config.outCap + 1) ≤ a.bitCount + bs.length) : a.appendBits bs = .error .outOverflow := by
  rcases appendBits_cases bs a ha with ⟨x, -, hok, hbits⟩ | ⟨herr, -⟩
  · have hcount : x.bitCount = a.bitCount + bs.length := by
      rw [← length_bits, hbits, List.length_append, length_bits]
    have hlt := bitCount_lt_of_ok hok
    omega
  · exact herr

/-! ### The operations by case (R111, R113, R116) -/

theorem baAppendOp_of_le {a : AccSel} {n : BitVec 16} {d : Data} (hn : n.toNat ≤ 64) :
    baAppendOp a n d = ((d.acc a).appendBits (bodyBits d.body n.toNat)).map fun x => d.setAcc a x :=
  if_neg (Nat.not_lt.mpr hn)

theorem baAppendOp_of_gt {a : AccSel} {n : BitVec 16} {d : Data} (hn : 64 < n.toNat) :
    baAppendOp a n d = .error .illegalOperand := if_pos hn

theorem baDrainOp_of_room {a : AccSel} {d : Data} (h : d.outq.length + (d.acc a).bytes.length ≤ Config.outCap) :
    baDrainOp a d = .ok { d.setAcc a { d.acc a with bytes := [] } with
      outq := d.outq ++ (d.acc a).bytes
      result0 := BitVec.ofNat 32 (d.acc a).bytes.length } := if_neg (Nat.not_lt.mpr h)

theorem baDrainOp_of_overflow {a : AccSel} {d : Data} (h : Config.outCap < d.outq.length + (d.acc a).bytes.length) :
    baDrainOp a d = .error .outOverflow := if_pos h

theorem baFlushOp_of_aligned {a : AccSel} {d : Data} (h : (d.acc a).pc.val = 0) :
    baFlushOp a d = .ok { d with result0 := 0 } := if_neg (by omega)

theorem baFlushOp_of_partial {a : AccSel} {d : Data} (h : 0 < (d.acc a).pc.val) :
    baFlushOp a d = if (d.acc a).bytes.length = Config.outCap then .error .outOverflow
      else .ok { d.setAcc a ⟨(d.acc a).bytes ++ [(d.acc a).pv], 0, 0⟩ with result0 := 1 } := if_pos h

/-! ### Appending (R111, R112) -/

/-- Settles O26: the room condition rules the overflow out. -/
theorem baAppendAddsTheLowBits : Obligations.BaAppendAddsTheLowBits := by
  intro s a n hn hok hroom
  obtain ⟨x, hx, hxok, hbits⟩ :=
    appendBits_of_room (bodyBits s.data.body n.toNat) (s.data.acc a) hok (by rw [length_bodyBits]; omega)
  refine ⟨x, exec_of_op_ok nofun ?_, hxok, hbits⟩
  rw [Instr.op, baAppendOp_of_le hn, hx, Except.map]

/-- Settles O27: the operand check comes first, then the bound on the bits. -/
theorem baAppendFaults : Obligations.BaAppendFaults := by
  refine fun s a n => ⟨fun hn => exec_of_op_error nofun (baAppendOp_of_gt hn), fun hn hok hfull => ?_⟩
  have herr : (s.data.acc a).appendBits (bodyBits s.data.body n.toNat) = .error .outOverflow :=
    appendBits_of_overflow hok (by rwa [length_bodyBits])
  refine exec_of_op_error nofun ?_
  rw [Instr.op, baAppendOp_of_le hn, herr, Except.map]

/-- A word below 2^k has no bit at or above k. -/
theorem getLsbD_add_of_lt {w k : Nat} {v : BitVec w} (h : v.toNat < 2 ^ k) (j : Nat) : v.getLsbD (k + j) = false :=
  Nat.testBit_lt_two_pow (Nat.lt_of_lt_of_le h (Nat.pow_le_pow_right (by decide) (Nat.le_add_right k j)))

/-- The bits of two joined ShortCodes: those of the first, then those of the second. -/
theorem bodyBits_join {b1 b2 : BitVec 64} {n1 n2 : Nat} (hn : n1 + n2 ≤ 64) (h1 : b1.toNat < 2 ^ n1) :
    bodyBits (b1 ||| (b2 <<< n1)) (n1 + n2) = bodyBits b1 n1 ++ bodyBits b2 n2 := by
  simp only [bodyBits, List.range_add, List.map_append, List.map_map]
  refine congrArg₂ (· ++ ·) (List.map_congr_left fun j hj => ?_) (List.map_congr_left fun j hj => ?_)
  · simp [List.mem_range.mp hj]
  · have hwidth : n1 + j < 64 := by
      have hlt := List.mem_range.mp hj
      omega
    rw [Function.comp_apply, BitVec.getLsbD_or, getLsbD_add_of_lt h1, BitVec.getLsbD_shiftLeft]
    simp [hwidth]

/-- Settles O33, by the bits of the joined body. -/
theorem shortCodeConcatenation : Obligations.ShortCodeConcatenation := by
  intro a b1 b2 n1 n2 hn h1
  rw [Accum.append, bodyBits_join hn h1, appendBits_append]
  rfl

/-- Settles O29: BA1's bits are appended to BA0 as one sequence. -/
theorem baExtendJoinsTheStreams : Obligations.BaExtendJoinsTheStreams := by
  intro s hok
  refine ⟨fun hroom => ?_, fun hfull => exec_of_op_error nofun ?_⟩
  · obtain ⟨x, hx, hxok, hbits⟩ := appendBits_of_room s.data.ba1.bits s.data.ba0 hok (by omega)
    refine ⟨x, exec_of_op_ok nofun ?_, hxok, hbits⟩
    rw [Instr.op, baExtendOp, hx, Except.map, Accum.empty]
  · rw [Instr.op, baExtendOp, appendBits_of_overflow hok hfull, Except.map]

/-! ### Draining (R113, R114) -/

/-- Settles O28, by the check of the room in OUTQ. -/
theorem baDrainMovesCompletedBytes : Obligations.BaDrainMovesCompletedBytes := fun _ _ =>
  ⟨fun hroom => exec_of_op_ok nofun (baDrainOp_of_room hroom),
    fun hfull => exec_of_op_error nofun (baDrainOp_of_overflow hfull)⟩

theorem baDrainOp_moves {a : AccSel} {d d' : Data} (h : baDrainOp a d = .ok d') :
    d'.outq = d.outq ++ (d.acc a).bytes ∧ d'.acc a = { d.acc a with bytes := [] } := by
  obtain ⟨-, rfl⟩ := baDrainOp_ok h
  exact ⟨rfl, by cases a <;> rfl⟩

/-- Settles O32: the bytes that leave the accumulator's stream are those that join OUTQ's. -/
theorem drainPreservesTheStream : Obligations.DrainPreservesTheStream := by
  intro s t a h _ ht
  obtain ⟨d, hd, rfl⟩ := exec_completed (i := .baDrain a) nofun h ht
  obtain ⟨houtq, hacc⟩ := baDrainOp_moves hd
  rw [completed_data, houtq, hacc]
  simp [streamBits, Accum.bits]

/-! ### Flushing (R116) -/

/-- The bits of a byte below 2^k: its k low bits, then zeros. -/
theorem byteBits_eq_take_append {v : Byte} {k : Nat} (h : v.toNat < 2 ^ k) :
    byteBits v = (byteBits v).take k ++ List.replicate (8 - k) false := by
  have hzero : (byteBits v).drop k = List.replicate (8 - k) false := by
    refine List.ext_getElem (by simp) fun j hj _ => ?_
    simp [byteBits, getLsbD_add_of_lt h j]
  rw [← hzero, List.take_append_drop]

theorem bits_flushed {a : Accum} (h : a.clean) :
    Accum.bits ⟨a.bytes ++ [a.pv], 0, 0⟩ = a.bits ++ List.replicate (8 - a.pc.val) false := by
  calc Accum.bits ⟨a.bytes ++ [a.pv], 0, 0⟩ = a.bytes.flatMap byteBits ++ byteBits a.pv := by simp [Accum.bits]
    _ = a.bits ++ List.replicate (8 - a.pc.val) false := by
      rw [Accum.bits, List.append_assoc, ← byteBits_eq_take_append h]

/-- Settles O30, by the partial bit count and then the room for one more byte. -/
theorem baFlushCompletesThePartialByte : Obligations.BaFlushCompletesThePartialByte := by
  intro s a hclean
  refine ⟨fun h0 => exec_of_op_ok nofun (baFlushOp_of_aligned h0), fun hpc hroom => ?_, fun hpc hfull => ?_⟩
  · exact ⟨_, exec_of_op_ok nofun ((baFlushOp_of_partial hpc).trans (if_neg hroom)), rfl, bits_flushed hclean⟩
  · exact exec_of_op_error nofun ((baFlushOp_of_partial hpc).trans (if_pos hfull))

/-! ### Clearing (R118, R133, R150) -/

/-- Settles O31: the three operations check nothing. -/
theorem clearingCommandsEmptyTheirUnit : Obligations.ClearingCommandsEmptyTheirUnit := fun _ =>
  ⟨fun _ => exec_of_op_ok nofun rfl, exec_of_op_ok nofun rfl, exec_of_op_ok nofun rfl⟩

end Sys2Proof.Machine
end

section
/-! PROOFS. The Match Finder (R130 to R136): a registration below capacity appends and at capacity drops the oldest
entry, and any registrations into an empty window leave the last w of them. -/

namespace Sys2Proof.Machine

theorem mfRegister_of_lt {w : Nat} {mf : List MfEntry} (e : MfEntry) (h : mf.length < w) :
    mfRegister w e mf = mf ++ [e] :=
  if_neg (by rw [List.length_append, List.length_singleton]; omega)

/-- Unlike `mfRegister_eq` this needs no bound on the window: one entry goes, also where more stand above capacity. -/
theorem mfRegister_of_ge {w : Nat} {mf : List MfEntry} (e : MfEntry) (h : w ≤ mf.length) :
    mfRegister w e mf = (mf ++ [e]).tail :=
  (if_pos (by rw [List.length_append, List.length_singleton]; omega)).trans List.drop_one

/-- Settles O34, by the window's room. -/
theorem matchFinderRegistersAndLocates : Obligations.MatchFinderRegistersAndLocates := by
  intro s key found
  refine ⟨fun hroom => exec_of_op_ok nofun ?_, fun hfull => exec_of_op_ok nofun ?_, exec_of_op_ok nofun rfl⟩
  · rw [Instr.op, mfRegisterOp, mfRegister_of_lt _ hroom]
    rfl
  · rw [Instr.op, mfRegisterOp, mfRegister_of_ge _ hfull]
    rfl

/-- The registrations es, in order, into an empty window leave the last w of them (R135). -/
theorem foldl_mfRegister_nil (w : Nat) (es : List MfEntry) :
    es.foldl (fun mf e => mfRegister w e mf) [] = es.drop (es.length - w) := by
  induction es using List.reverseRecOn with
  | nil => exact List.drop_nil.symm
  | append_singleton es e ih => rw [List.foldl_append, List.foldl_cons, List.foldl_nil, ih, mfRegister_drop]

/-- Settles O35: the window is the last w registrations, and a lookup reverses it. -/
theorem windowHoldsTheLastRegistrations : Obligations.WindowHoldsTheLastRegistrations := by
  intro w es key _
  rw [foldl_mfRegister_nil, mfLocate, List.filter_reverse, List.map_reverse]

end Sys2Proof.Machine
end

section
/-! PROOFS. The symbols SYM_RUN makes, in order (R152): each is the one chosen at the position the symbols before it
rebuild, and a chosen symbol expands to the bytes it advances over, so together they expand to the input (R154). -/

namespace Sys2Proof.Machine

/-! ### The symbols in order (R152) -/

/-- The symbols are those chosen from position i on, each where the one before it ends, up to the end of the input. -/
def chosenFrom (d : Data) : (i : Nat) → List Symbol → Prop
  | i, [] => d.input.length ≤ i
  | i, x :: xs => i < d.input.length ∧ x = (choiceAt d i).1 ∧ chosenFrom d (i + (choiceAt d i).2) xs

theorem symbolLoop_chosen {d : Data} (fuel i : Nat) (hfuel : d.input.length ≤ i + fuel) :
    chosenFrom d i
      (symbolLoop d.input d.window.toNat d.keySize.toNat d.lookback.toNat fuel i (windowBefore d i)).1 := by
  induction fuel generalizing i with
  | zero => exact hfuel
  | succ fuel ih =>
    rw [symbolLoop]
    split
    · next hi =>
      have hadv := choiceAt_advance_pos d i
      have hrest := ih (i + (choiceAt d i).2) (by omega)
      rw [← registerSpan_windowBefore] at hrest
      exact ⟨hi, rfl, hrest⟩
    · next hi => exact Nat.not_lt.mp hi

theorem symbolize_chosen {d : Data} {xs : List Symbol} {mf : List MfEntry}
    (h : symbolize d = (xs ++ [.endOfBlock], mf)) : chosenFrom d 0 xs := by
  have hloop := symbolLoop_chosen (d := d) d.input.length 0 (by omega)
  rw [windowBefore_zero] at hloop
  rwa [← List.append_cancel_right (congrArg Prod.fst h)]

/-! ### The bytes a match copies (R152, R154) -/

theorem getElem?_eq_of_lt_commonPrefix {cap j : Nat} {xs ys : List Byte} (h : j < commonPrefix cap xs ys) :
    xs[j]? = ys[j]? := by
  induction cap generalizing j xs ys with
  | zero => exact absurd h (Nat.not_lt_zero j)
  | succ cap ih =>
    cases xs with
    | nil => exact absurd h (Nat.not_lt_zero j)
    | cons x xs =>
      cases ys with
      | nil => exact absurd h (Nat.not_lt_zero j)
      | cons y ys =>
        rw [commonPrefix] at h
        split at h
        · next hxy =>
          cases j with
          | zero => rw [hxy]; rfl
          | succ j => exact ih (xs := xs) (ys := ys) (Nat.lt_of_succ_lt_succ h)
        · exact absurd h (Nat.not_lt_zero j)

theorem commonPrefix_le_length (cap : Nat) (xs ys : List Byte) : commonPrefix cap xs ys ≤ ys.length := by
  induction cap generalizing xs ys with
  | zero => exact Nat.zero_le _
  | succ cap ih =>
    cases xs with
    | nil => exact Nat.zero_le _
    | cons x xs =>
      cases ys with
      | nil => exact Nat.zero_le _
      | cons y ys =>
        rw [commonPrefix]
        split
        · exact Nat.succ_le_succ (ih xs ys)
        · exact Nat.zero_le _

/-- Copying l bytes from `dist` back extends the first i bytes of a sequence that repeats itself there. -/
theorem copyBack_take {bytes : List Byte} {dist l i : Nat} (h1 : 1 ≤ dist) (hi : dist ≤ i)
    (hlen : i + l ≤ bytes.length) (hsame : ∀ j < l, bytes[i + j - dist]? = bytes[i + j]?) :
    copyBack dist l (bytes.take i) = bytes.take (i + l) := by
  induction l generalizing i with
  | zero => rfl
  | succ l ih =>
    have hbyte : (bytes.take i).getD ((bytes.take i).length - dist) 0 = bytes[i] := by
      have hfirst : bytes[i - dist]? = bytes[i]? := hsame 0 (Nat.succ_pos l)
      rw [List.length_take_of_le (by omega), List.getD_eq_getElem?_getD, List.getElem?_take_of_lt (by omega), hfirst,
        List.getElem?_eq_getElem (by omega), Option.getD_some]
    rw [copyBack, hbyte, List.take_append_getElem, ih (by omega) (by omega) fun j hj => ?_]
    · congr 1; omega
    · have hnext := hsame (j + 1) (Nat.succ_lt_succ hj)
      rwa [← Nat.add_assoc, Nat.add_right_comm] at hnext

/-! ### A chosen symbol expands to the bytes it advances over (R154) -/

theorem expandFrom_append {xs : List Symbol} (hxs : .endOfBlock ∉ xs) (ys : List Symbol) (out : List Byte) :
    expandFrom out (xs ++ ys) = expandFrom (expandFrom out xs) ys := by
  induction xs generalizing out with
  | nil => rfl
  | cons x xs ih =>
    obtain ⟨hx, hrest⟩ := not_or.mp (mt List.mem_cons.mpr hxs)
    cases x with
    | literal b => exact ih hrest _
    | reference l dist => exact ih hrest _
    | endOfBlock => exact absurd rfl hx

/-- The best match at a position, when there is one, copies the bytes that stand there (R152). -/
theorem copyBack_bestMatch {d : Data} {i : Nat} (hk : 1 ≤ d.keySize.toNat) (hfit : d.input.length ≤ Config.inCap)
    {l dist : Nat} (hl : l ≠ 0)
    (h : bestMatch d.input d.keySize.toNat d.lookback.toNat i (windowBefore d i) = (l, dist)) :
    i + l ≤ d.input.length ∧ copyBack dist l (d.input.take i) = d.input.take (i + l) := by
  rcases bestMatch_cases d.input d.keySize.toNat d.lookback.toNat i (windowBefore d i) with h0 | ⟨e, he, -, hbest⟩
  · rw [h0] at h
    cases h
    exact absurd rfl hl
  · obtain ⟨hpos, -⟩ := nearCandidates_distance hk hfit he
    rw [hbest] at h
    cases h
    have hlen : candidateLength d.input d.keySize.toNat i e ≤ (d.input.drop i).length := commonPrefix_le_length _ _ _
    rw [List.length_drop] at hlen
    refine ⟨by omega, copyBack_take hpos (Nat.sub_le _ _) (by omega) fun j hj => ?_⟩
    have hsame := getElem?_eq_of_lt_commonPrefix hj
    rw [List.getElem?_drop, List.getElem?_drop] at hsame
    rw [candidateDistance] at hpos ⊢
    rw [← hsame]
    congr 1
    omega

theorem choiceAt_expands {d : Data} {i : Nat} (hk : 1 ≤ d.keySize.toNat) (hfit : d.input.length ≤ Config.inCap)
    (hi : i < d.input.length) :
    i + (choiceAt d i).2 ≤ d.input.length
      ∧ expandFrom (d.input.take i) [(choiceAt d i).1] = d.input.take (i + (choiceAt d i).2) := by
  unfold choiceAt chooseSymbol
  split
  · next hlen => exact copyBack_bestMatch hk hfit (Nat.ne_of_gt (Nat.lt_of_lt_of_le (by decide) hlen)) rfl
  · refine ⟨hi, ?_⟩
    rw [List.getD_eq_getElem _ _ hi]
    exact List.take_append_getElem hi

/-- Symbols chosen from position i on: those before any of them expand the first i bytes to the bytes up to the position
where it is chosen (R154). -/
theorem expandFrom_of_chosenFrom {d : Data} (hk : 1 ≤ d.keySize.toNat) (hfit : d.input.length ≤ Config.inCap)
    {before rest : List Symbol} {i : Nat} (hi : i ≤ d.input.length) (h : chosenFrom d i (before ++ rest)) :
    ∃ j ≤ d.input.length, expandFrom (d.input.take i) before = d.input.take j ∧ chosenFrom d j rest := by
  induction before generalizing i with
  | nil => exact ⟨i, hi, rfl, h⟩
  | cons x before ih =>
    obtain ⟨hlt, rfl, hrest⟩ := h
    obtain ⟨hle, hexp⟩ := choiceAt_expands hk hfit hlt
    obtain ⟨j, hj, hbefore, hchosen⟩ := ih hle hrest
    refine ⟨j, hj, ?_, hchosen⟩
    rw [← List.singleton_append, expandFrom_append, hexp, hbefore]
    exact fun hmem => (choiceAt_blockSymbol hk hfit hlt).1 (List.mem_singleton.mp hmem).symm

/-- Everything SYM_RUN does to an input that fits (R152 to R154). -/
theorem symRun_completes {s : State} (hl : s.data.legalConfig) (hfit : s.data.input.length ≤ Config.inCap) :
    ∃ xs ll dist, exec .symRun s = .next (s.completed { s.data with
        symq := xs ++ [.endOfBlock], mf := windowBefore s.data s.data.input.length, freqLL := ll, freqD := dist
        result0 := BitVec.ofNat 32 (xs ++ [Symbol.endOfBlock]).length })
      ∧ countSymbols (xs ++ [.endOfBlock]) (.fill 0, .fill 0) = .ok (ll, dist)
      ∧ xs.length ≤ s.data.input.length ∧ (∀ x ∈ xs, blockSymbol s.data x) ∧ chosenFrom s.data 0 xs := by
  obtain ⟨xs, hsym, hlen, hxs⟩ := symbolize_spec hl hfit
  obtain ⟨⟨ll, dist⟩, ht⟩ := countSymbols_completes _ (inRange_of_blockSymbols hxs) (.fill 0, .fill 0)
  refine ⟨xs, ll, dist, exec_of_op_ok nofun ?_, ht, hlen, hxs, symbolize_chosen hsym⟩
  simp only [Instr.op, symRunOp, hsym, ht]
  rfl

/-- Settles O37: the symbols are those chosen from position 0 to the end of the input. -/
theorem symRunSymbolsRebuildTheInput : Obligations.SymRunSymbolsRebuildTheInput := by
  intro s hl hfit
  obtain ⟨xs, ll, dist, hrun, -, -, hxs, hchosen⟩ := symRun_completes hl hfit
  refine ⟨_, hrun, rfl, ?_⟩
  have hend : .endOfBlock ∉ xs := fun hmem => (hxs _ hmem).1 rfl
  obtain ⟨j, hj, hexp, hge⟩ := expandFrom_of_chosenFrom (rest := []) (keySize_pos hl) hfit (Nat.zero_le _)
    ((List.append_nil xs).symm ▸ hchosen)
  calc expand (xs ++ [Symbol.endOfBlock]) = expandFrom [] xs := expandFrom_append hend [.endOfBlock] []
    _ = s.data.input.take j := hexp
    _ = s.data.input := List.take_of_length_le hge

/-! ### The weights (R153) -/

/-- One more in the entry a symbol names, if it names one. -/
def bumpNamed {n : Nat} (t : Table Word n) (named : Option Nat) : Table Word n := named.elim t t.bump

theorem get_bumpNamed {n i : Nat} (t : Table Word n) (named : Option Nat) (hi : i < n) :
    (bumpNamed t named).get 0 i = t.get 0 i + if named = some i then 1 else 0 := by
  cases named with
  | none => exact (BitVec.add_zero _).symm
  | some j =>
    by_cases hj : j = i
    · subst hj
      rw [if_pos rfl]
      exact t.get_bump_self hi
    · rw [if_neg (fun h => hj (Option.some.inj h)), add_zero]
      exact t.get_bump_other hj

/-- A weight table after a symbol sequence has, for each entry, one more for each symbol that names it. -/
theorem get_foldl_bumpNamed {n i : Nat} (name : Symbol → Option Nat) (xs : List Symbol) (t : Table Word n)
    (hi : i < n) :
    (xs.foldl (fun u x => bumpNamed u (name x)) t).get 0 i
      = t.get 0 i + BitVec.ofNat 32 (xs.countP fun x => name x = some i) := by
  induction xs generalizing t with
  | nil => exact (BitVec.add_zero _).symm
  | cons x xs ih =>
    rw [List.foldl_cons, ih, get_bumpNamed _ _ hi, List.countP_cons, Nat.add_comm, BitVec.ofNat_add, BitVec.add_assoc]
    by_cases hx : name x = some i <;> simp [hx]

theorem countSymbol_ok {x : Symbol} {t t' : Weights} (h : countSymbol t x = .ok t') :
    t' = (bumpNamed t.1 (llSymbol x), bumpNamed t.2 (dSymbol x)) := by
  cases x with
  | literal b => cases h; rfl
  | endOfBlock => cases h; rfl
  | reference l dist =>
    obtain ⟨lc, hlc, h⟩ := bind_eq_ok.mp h
    obtain ⟨dc, hdc, h⟩ := bind_eq_ok.mp h
    rw [← pure_eq_ok.mp h, llSymbol, dSymbol, hlc, hdc]
    rfl

theorem countSymbols_ok {xs : List Symbol} {t t' : Weights} (h : countSymbols xs t = .ok t') :
    t' = (xs.foldl (fun u x => bumpNamed u (llSymbol x)) t.1, xs.foldl (fun u x => bumpNamed u (dSymbol x)) t.2) := by
  induction xs generalizing t with
  | nil => cases h; rfl
  | cons x xs ih =>
    obtain ⟨t1, hx, hxs⟩ := bind_eq_ok.mp h
    rw [ih hxs, countSymbol_ok hx]
    rfl

/-- An entry of an emptied weight table after fewer than 2^32 symbols is the number of those that name it. -/
theorem toNat_get_foldl_bumpNamed {n i : Nat} (name : Symbol → Option Nat) (xs : List Symbol)
    (hlen : xs.length < 2 ^ 32) (hi : i < n) :
    ((xs.foldl (fun u x => bumpNamed u (name x)) (.fill 0 : Table Word n)).get 0 i).toNat
      = xs.countP fun x => name x = some i := by
  rw [get_foldl_bumpNamed name xs _ hi, Table.get_fill _ _ hi, zero_add, BitVec.toNat_ofNat]
  exact Nat.mod_eq_of_lt (Nat.lt_of_le_of_lt List.countP_le_length hlen)

/-- Only EndOfBlock names entry 256 (R101). -/
theorem llSymbol_ne_of_blockSymbol {d : Data} {x : Symbol} (h : blockSymbol d x) : llSymbol x ≠ some 256 := by
  obtain ⟨hne, hrange, -⟩ := h
  cases x with
  | literal b => exact fun hb => Nat.ne_of_lt b.isLt (Option.some.inj hb)
  | endOfBlock => exact absurd rfl hne
  | reference l dist =>
    obtain ⟨hl3, hl258, -⟩ := hrange
    obtain ⟨e, he, hsym, -⟩ := lcode_ok hl3 hl258
    rw [llSymbol, he]
    exact fun hb => Nat.ne_of_gt hsym (Option.some.inj hb)

/-- Settles O39: the tables are those of the symbols counted from empty tables, and no count reaches 2^32. -/
theorem symRunCountsTheSymbols : Obligations.SymRunCountsTheSymbols := by
  intro s hl hfit
  obtain ⟨xs, ll, dist, hrun, hcount, hlen, hxs, -⟩ := symRun_completes hl hfit
  obtain ⟨rfl, rfl⟩ := Prod.mk.inj (countSymbols_ok hcount)
  have hcap : Config.inCap = 65536 := rfl
  have hsmall : (xs ++ [Symbol.endOfBlock]).length < 2 ^ 32 := by
    rw [List.length_append, List.length_singleton]
    omega
  refine ⟨_, hrun, fun i hi => toNat_get_foldl_bumpNamed _ _ hsmall hi,
    fun i hi => toNat_get_foldl_bumpNamed _ _ hsmall hi, BitVec.eq_of_toNat_eq ?_⟩
  have hnone : xs.countP (fun x => llSymbol x = some 256) = 0 :=
    List.countP_eq_zero.mpr fun x hx hname => llSymbol_ne_of_blockSymbol (hxs x hx) (of_decide_eq_true hname)
  refine (toNat_get_foldl_bumpNamed llSymbol _ hsmall (by decide)).trans ?_
  rw [List.countP_append, hnone]
  rfl

end Sys2Proof.Machine
end

section
/-! PROOFS. The match SYM_RUN takes (R156): the first of the longest candidates, which is the nearest of them because a
lookup returns the window's positions most recent first. -/

namespace Sys2Proof.Machine

/-! ### The best of a list of candidates (R152, R156) -/

/-- A candidate takes the best match's place exactly when it is near enough and strictly longer. -/
theorem considerCandidate_eq (bytes : List Byte) (k i : Nat) (best : Nat × Nat) (e : Word) :
    considerCandidate bytes k i best e
      = if candidateDistance k i e ≤ Config.maxDist ∧ best.1 < candidateLength bytes k i e then
          (candidateLength bytes k i e, candidateDistance k i e)
        else best := by
  by_cases hdist : candidateDistance k i e ≤ Config.maxDist
  · refine (if_neg (Nat.not_lt.mpr hdist)).trans ?_
    by_cases hlen : best.1 < candidateLength bytes k i e
    · exact (if_pos hlen).trans (if_pos ⟨hdist, hlen⟩).symm
    · exact (if_neg hlen).trans (if_neg fun h => hlen h.2).symm
  · exact (if_pos (Nat.not_le.mp hdist)).trans (if_neg fun h => hdist h.1).symm

/-- A candidate never shortens the best match, and leaves it at least as long as itself if it is near enough. -/
theorem le_considerCandidate (bytes : List Byte) (k i : Nat) (best : Nat × Nat) (e : Word) :
    best.1 ≤ (considerCandidate bytes k i best e).1
      ∧ (candidateDistance k i e ≤ Config.maxDist →
        candidateLength bytes k i e ≤ (considerCandidate bytes k i best e).1) := by
  rw [considerCandidate_eq]
  split
  · next h => exact ⟨Nat.le_of_lt h.2, fun _ => Nat.le_refl _⟩
  · next h => exact ⟨Nat.le_refl _, fun hdist => Nat.not_lt.mp fun hlen => h ⟨hdist, hlen⟩⟩

theorem le_foldl_considerCandidate (bytes : List Byte) (k i : Nat) (es : List Word) (best : Nat × Nat) :
    best.1 ≤ (es.foldl (considerCandidate bytes k i) best).1
      ∧ ∀ e ∈ es, candidateDistance k i e ≤ Config.maxDist →
        candidateLength bytes k i e ≤ (es.foldl (considerCandidate bytes k i) best).1 := by
  induction es generalizing best with
  | nil => exact ⟨Nat.le_refl _, nofun⟩
  | cons e es ih =>
    obtain ⟨hbest, hself⟩ := le_considerCandidate bytes k i best e
    obtain ⟨hkeep, hall⟩ := ih (considerCandidate bytes k i best e)
    exact ⟨Nat.le_trans hbest hkeep,
      List.forall_mem_cons.mpr ⟨fun hdist => Nat.le_trans (hself hdist) hkeep, hall⟩⟩

/-- The match is that of a candidate near enough which is longer than `len` and than every candidate examined before it
that is near enough. -/
def firstLongest (bytes : List Byte) (k i len : Nat) (es : List Word) (best : Nat × Nat) : Prop :=
  ∃ before e after, es = before ++ e :: after ∧ candidateDistance k i e ≤ Config.maxDist
    ∧ best = (candidateLength bytes k i e, candidateDistance k i e) ∧ len < candidateLength bytes k i e
    ∧ ∀ x ∈ before, candidateDistance k i x ≤ Config.maxDist → candidateLength bytes k i x < candidateLength bytes k i e

theorem foldl_considerCandidate_first (bytes : List Byte) (k i : Nat) (es : List Word) (best : Nat × Nat) :
    es.foldl (considerCandidate bytes k i) best = best
      ∨ firstLongest bytes k i best.1 es (es.foldl (considerCandidate bytes k i) best) := by
  induction es generalizing best with
  | nil => exact .inl rfl
  | cons e es ih =>
    rw [List.foldl_cons]
    rcases ih (considerCandidate bytes k i best e) with hkeep | ⟨before, e', after, rfl, hdist, hbest, hlen, hbefore⟩
    · rw [hkeep, considerCandidate_eq]
      split
      · next h => exact .inr ⟨[], e, es, rfl, h.1, rfl, h.2, nofun⟩
      · exact .inl rfl
    · obtain ⟨hle, hself⟩ := le_considerCandidate bytes k i best e
      exact .inr ⟨e :: before, e', after, rfl, hdist, hbest, Nat.lt_of_le_of_lt hle hlen,
        List.forall_mem_cons.mpr ⟨fun hd => Nat.lt_of_le_of_lt (hself hd) hlen, hbefore⟩⟩

/-! ### The best match at a position (R152, R156) -/

theorem bestMatch_eq_foldl (bytes : List Byte) (k lb i : Nat) (mf : List MfEntry) :
    bestMatch bytes k lb i mf = (nearCandidates bytes k lb i mf).foldl (considerCandidate bytes k i) (0, 0) := by
  unfold bestMatch nearCandidates
  split <;> rfl

theorem candidateLength_le_bestMatch {bytes : List Byte} {k lb i : Nat} {mf : List MfEntry} {e : Word}
    (he : e ∈ nearCandidates bytes k lb i mf) (hdist : candidateDistance k i e ≤ Config.maxDist) :
    candidateLength bytes k i e ≤ (bestMatch bytes k lb i mf).1 := by
  rw [bestMatch_eq_foldl]
  exact (le_foldl_considerCandidate bytes k i _ (0, 0)).2 e he hdist

theorem bestMatch_first (bytes : List Byte) (k lb i : Nat) (mf : List MfEntry) :
    bestMatch bytes k lb i mf = (0, 0)
      ∨ firstLongest bytes k i 0 (nearCandidates bytes k lb i mf) (bestMatch bytes k lb i mf) := by
  rw [bestMatch_eq_foldl]
  exact foldl_considerCandidate_first bytes k i _ (0, 0)

/-- Where the candidates are examined nearest first, none of the best length is nearer than the best match. -/
theorem bestMatch_nearest {bytes : List Byte} {k lb i : Nat} {mf : List MfEntry}
    (horder : (nearCandidates bytes k lb i mf).Pairwise fun e e' => candidateDistance k i e ≤ candidateDistance k i e')
    {e : Word} (he : e ∈ nearCandidates bytes k lb i mf) (hdist : candidateDistance k i e ≤ Config.maxDist)
    (hlen : candidateLength bytes k i e = (bestMatch bytes k lb i mf).1) :
    (bestMatch bytes k lb i mf).2 ≤ candidateDistance k i e := by
  rcases bestMatch_first bytes k lb i mf with hnone | ⟨before, e', after, hsplit, -, hbest, -, hbefore⟩
  · rw [hnone]
    exact Nat.zero_le _
  · rw [hbest] at hlen ⊢
    rw [hsplit] at he horder
    rcases List.mem_append.mp he with hmem | hmem
    · exact absurd hlen (Nat.ne_of_lt (hbefore e hmem hdist))
    · rcases List.mem_cons.mp hmem with rfl | hmem
      · exact Nat.le_refl _
      · exact List.rel_of_pairwise_cons (List.pairwise_append.mp horder).2.1 hmem

/-! ### The order of SYM_RUN's candidates (R131, R132) -/

/-- The entries of a window stand in the order of their positions, so those further on are nearer to position i. -/
theorem windowBefore_order {d : Data} (hk : 1 ≤ d.keySize.toNat) (hfit : d.input.length ≤ Config.inCap) (i : Nat) :
    (windowBefore d i).Pairwise fun x y =>
      candidateDistance d.keySize.toNat i y.pos ≤ candidateDistance d.keySize.toNat i x.pos := by
  have hcap : Config.inCap = 65536 := rfl
  rw [windowBefore_eq]
  refine List.Pairwise.sublist (List.drop_sublist _ _) (List.pairwise_map.mpr ?_)
  refine List.pairwise_lt_range.imp_of_mem fun {p q} hp hq hpq => ?_
  rw [List.mem_range] at hp hq
  have hpos : ∀ {r}, r < min i (d.input.length + 1 - d.keySize.toNat) →
      (positionEntry d.input d.keySize.toNat r).pos.toNat = r + d.keySize.toNat - 1 := fun hr =>
    Nat.mod_eq_of_lt (by omega)
  rw [candidateDistance, candidateDistance, hpos hp, hpos hq]
  omega

/-- SYM_RUN examines its candidates nearest first (R132). -/
theorem nearCandidates_order {d : Data} (hk : 1 ≤ d.keySize.toNat) (hfit : d.input.length ≤ Config.inCap) (i : Nat) :
    (nearCandidates d.input d.keySize.toNat d.lookback.toNat i (windowBefore d i)).Pairwise fun e e' =>
      candidateDistance d.keySize.toNat i e ≤ candidateDistance d.keySize.toNat i e' := by
  unfold nearCandidates
  split
  · refine List.Pairwise.sublist (List.take_sublist _ _) (List.pairwise_map.mpr ?_)
    exact (List.pairwise_reverse.mpr (windowBefore_order hk hfit i)).filter _
  · exact List.Pairwise.nil

/-! ### The symbols (R156) -/

/-- The symbol SYM_RUN emits after others is the one chosen at the position they rebuild. -/
theorem symbol_of_chosenFrom {d : Data} (hk : 1 ≤ d.keySize.toNat) (hfit : d.input.length ≤ Config.inCap)
    {before after : List Symbol} {x : Symbol} (h : chosenFrom d 0 (before ++ x :: after)) :
    x = (choiceAt d (expand before).length).1 := by
  obtain ⟨j, hj, hexp, -, hx, -⟩ := expandFrom_of_chosenFrom hk hfit (Nat.zero_le _) h
  have hlen : (expand before).length = j := (congrArg List.length hexp).trans (List.length_take_of_le hj)
  rw [hlen]
  exact hx

theorem chosenFrom_of_append_endOfBlock {d : Data} {i : Nat} {xs before after : List Symbol} {x : Symbol}
    (h : chosenFrom d i xs) (hsplit : xs ++ [.endOfBlock] = before ++ x :: after) (hx : x ≠ .endOfBlock) :
    ∃ after', chosenFrom d i (before ++ x :: after') := by
  rcases List.eq_nil_or_concat after with rfl | ⟨after', y, rfl⟩
  · exact absurd (List.append_inj_right' hsplit rfl) (fun he => hx (List.singleton_inj.mp he).symm)
  · rw [List.concat_eq_append, ← List.cons_append, ← List.append_assoc] at hsplit
    exact ⟨after', List.append_inj_left' hsplit rfl ▸ h⟩

/-- Settles O40: the loop's symbols are chosen at the positions they rebuild, a strictly greater length alone replaces
the best match, and a lookup returns the nearest position first. -/
theorem matchIsTheLongestNearest : Obligations.MatchIsTheLongestNearest := by
  refine ⟨fun s hl hfit => ?_, fun bytes k lb i mf => ⟨fun e he hdist => ?_, fun hbest => ?_, rfl⟩⟩
  · have hk := keySize_pos hl
    obtain ⟨xs, ll, dist, hrun, -, -, -, hchosen⟩ := symRun_completes hl hfit
    refine ⟨_, hrun, fun before x after hsplit hx => ?_⟩
    obtain ⟨after', hprefix⟩ := chosenFrom_of_append_endOfBlock hchosen hsplit hx
    exact ⟨symbol_of_chosenFrom hk hfit hprefix, fun e he => bestMatch_nearest (nearCandidates_order hk hfit _) he⟩
  · exact candidateLength_le_bestMatch he hdist
  · rcases bestMatch_first bytes k lb i mf with hnone | ⟨before, e, after, hsplit, hdist, heq, -, hbefore⟩
    · exact absurd (congrArg Prod.fst hnone) hbest
    · exact ⟨before, e, after, hsplit, hdist, heq, by rwa [heq]⟩

end Sys2Proof.Machine
end

section
/-! PROOFS. The queue reads (R155, R205): the word of the entry ARG0, or 0xFFFFFFFF beyond the queue, and the fields of
the CLS word (R95). -/

namespace Sys2Proof.Machine

theorem symword_literal (b : Byte) : symword (.literal b) = b.zeroExtend 32 := BitVec.ofNat_toNat 32 b

theorem symReadOp_of_getElem? {d : Data} {x : Symbol} (h : d.symq[d.arg0.toNat]? = some x) :
    symReadOp d = .ok { d with result0 := symword x } := by
  rw [symReadOp, h]

theorem symReadOp_of_le {d : Data} (h : d.symq.length ≤ d.arg0.toNat) :
    symReadOp d = .ok { d with result0 := 0xFFFFFFFF } := by
  rw [symReadOp, List.getElem?_eq_none h]

theorem clsReadOp_of_getElem? {d : Data} {e : ClsEntry} (h : d.clsq[d.arg0.toNat]? = some e) :
    clsReadOp d = .ok { d with result0 := clsword e } := by
  rw [clsReadOp, h]

theorem clsReadOp_of_le {d : Data} (h : d.clsq.length ≤ d.arg0.toNat) :
    clsReadOp d = .ok { d with result0 := 0xFFFFFFFF } := by
  rw [clsReadOp, List.getElem?_eq_none h]

/-- The fields of the CLS word (R95). -/
theorem clsword_fields (e : ClsEntry) :
    ((clsword e).extractLsb' 0 5).toNat = e.sym.val ∧ (clsword e).extractLsb' 5 3 = 0
      ∧ (clsword e).extractLsb' 8 8 = e.xv ∧ (clsword e).extractLsb' 16 4 = e.xw
      ∧ (clsword e).extractLsb' 20 12 = 0 := by
  have hsym : e.sym.val < 2 ^ 5 := Nat.lt_trans e.sym.isLt (by decide)
  refine ⟨?_, ?_, ?_, ?_, ?_⟩ <;> unfold clsword
  · rw [BitVec.extractLsb'_append_eq_of_add_le (by decide), BitVec.extractLsb'_eq_self, BitVec.toNat_ofNat,
      Nat.mod_eq_of_lt hsym]
  · rw [BitVec.extractLsb'_append_eq_of_le (by decide), BitVec.extractLsb'_append_eq_of_add_le (by decide)]
    exact BitVec.extractLsb'_eq_self
  · iterate 2 rw [BitVec.extractLsb'_append_eq_of_le (by decide)]
    rw [BitVec.extractLsb'_append_eq_of_add_le (by decide)]
    exact BitVec.extractLsb'_eq_self
  · iterate 3 rw [BitVec.extractLsb'_append_eq_of_le (by decide)]
    rw [BitVec.extractLsb'_append_eq_of_add_le (by decide)]
    exact BitVec.extractLsb'_eq_self
  · iterate 4 rw [BitVec.extractLsb'_append_eq_of_le (by decide)]
    exact BitVec.extractLsb'_eq_self

/-- Settles O41, by the entry the queue holds at ARG0. -/
theorem queueReadsReturnTheWord : Obligations.QueueReadsReturnTheWord := fun _ =>
  ⟨fun b h => symword_literal b ▸ exec_of_op_ok nofun (symReadOp_of_getElem? h),
    fun _ _ h => exec_of_op_ok nofun (symReadOp_of_getElem? h),
    fun h => exec_of_op_ok nofun (symReadOp_of_getElem? h), fun h => exec_of_op_ok nofun (symReadOp_of_le h),
    fun e h => ⟨_, exec_of_op_ok nofun (clsReadOp_of_getElem? h), clsword_fields e⟩,
    fun h => exec_of_op_ok nofun (clsReadOp_of_le h)⟩

end Sys2Proof.Machine
end

section
/-! PROOFS. The block BLK_ENCODE makes (R158, R238): its symbols are those of the input and the configuration, each of
its tables is computed from the symbols and the tables before it, and its bits from these, so two runs of the same input and
configuration make the same block. -/

namespace Sys2Proof.Machine

/-! ### The table units as functions of the table they read (R170, R190) -/

/-- The length table HL_ASSIGN makes of a weight table (R171). -/
def assignedLengths (t : TableSel) (freq : Table Word t.size) : Except FaultKind (Table (BitVec 4) t.size) :=
  (assignLengths (freq.entries.map BitVec.toNat) t.size t.lengthLimit).map fun lens =>
    .build t.size fun s => BitVec.ofNat 4 (lens.getD s 0)

/-- The code table CC_BUILD makes of a length table (R191). -/
def builtCodes (t : TableSel) (len : Table (BitVec 4) t.size) : Except FaultKind (Table CodeEntry t.size) :=
  (buildPairs (len.entries.map BitVec.toNat)).map fun pairs => .build t.size (codeIn pairs)

theorem hlAssignOp_assigned {t : TableSel} {d d' : Data} (h : hlAssignOp t d = .ok d') :
    ∃ len r, assignedLengths t (d.freqOf t) = .ok len ∧ d' = { d.setLen t len with result0 := r } := by
  obtain ⟨lens, hlens, rfl⟩ := hlAssignOp_ok h
  exact ⟨_, _, map_eq_ok.mpr ⟨lens, hlens, rfl⟩, rfl⟩

theorem ccBuildOp_built {t : TableSel} {d d' : Data} (h : ccBuildOp t d = .ok d') :
    ∃ codes r, builtCodes t (d.lenOf t) = .ok codes ∧ d' = { d.setCode t codes with result0 := r } := by
  obtain ⟨pairs, hpairs, rfl⟩ := ccBuildOp_ok h
  exact ⟨_, _, map_eq_ok.mpr ⟨pairs, hpairs, rfl⟩, rfl⟩

/-! ### What the header and the body read (R224, R227) -/

theorem appendMetas_congr {d d' : Data} (h : d.codeCL = d'.codeCL) (es : List ClsEntry) (a : Accum) :
    appendMetas d es a = appendMetas d' es a := by
  induction es generalizing a with
  | nil => rfl
  | cons e es ih => simp only [appendMetas, appendMeta, h, funext ih]

theorem appendHeader_congr {d d' : Data} (hlen : d.lenCL = d'.lenCL) (hcode : d.codeCL = d'.codeCL)
    (hclsq : d.clsq = d'.clsq) (f : Bool) (a : Accum) : appendHeader d f a = appendHeader d' f a := by
  simp only [appendHeader, appendClLengths_eq, hlen, hclsq, appendMetas_congr hcode]

theorem appendSymbols_congr {d d' : Data} (hll : d.codeLL = d'.codeLL) (hd : d.codeD = d'.codeD) (xs : List Symbol)
    (a : Accum) : appendSymbols d xs a = appendSymbols d' xs a := by
  induction xs generalizing a with
  | nil => rfl
  | cons x xs ih =>
    have hx : appendSymbol d a x = appendSymbol d' a x := by cases x <;> simp only [appendSymbol, hll, hd]
    rw [appendSymbols, appendSymbols, hx, funext ih]

theorem blockHeader_congr {d d' : Data} (hlen : d.lenCL = d'.lenCL) (hcode : d.codeCL = d'.codeCL)
    (hclsq : d.clsq = d'.clsq) (f : Bool) : blockHeader d f = blockHeader d' f := by
  have hmeta : metaBits d = metaBits d' := funext fun e => by rw [metaBits, metaBits, hcode]
  rw [blockHeader, blockHeader, hlen, hclsq, hmeta]

theorem blockBody_congr {d d' : Data} (hll : d.codeLL = d'.codeLL) (hd : d.codeD = d'.codeD)
    (hsymq : d.symq = d'.symq) :
    blockBody d = blockBody d' := by
  have hbits : symbolBits d = symbolBits d' := funext fun x => by cases x <;> simp only [symbolBits, hll, hd]
  rw [blockBody, blockBody, hsymq, hbits]

/-! ### The block (R230) -/

/-- The data hold the tables of the block with these symbols: each is what its unit makes of the ones before it. -/
structure Data.tablesOf (d : Data) (xs : List Symbol) : Prop where
  symq : d.symq = xs
  freq : countSymbols xs (.fill 0, .fill 0) = .ok (d.freqLL, d.freqD)
  freqCL : d.freqCL = countCls d.clsq
  len : ∀ t, assignedLengths t (d.freqOf t) = .ok (d.lenOf t)
  code : ∀ t, builtCodes t (d.lenOf t) = .ok (d.codeOf t)
  clsq : d.clsq = rle d.lenLL.entries ++ rle d.lenD.entries

/-- RESULT0 is the number of bits of the block's header and body on an empty accumulator (R230). -/
def Data.countsBlock (d : Data) (f : Bool) : Prop :=
  ∃ x y, appendHeader d f .empty = .ok x ∧ appendSymbols d d.symq x = .ok y
    ∧ d.result0 = BitVec.ofNat 32 x.bitCount + BitVec.ofNat 32 (y.bitCount - x.bitCount)

/-- Everything a BLK_ENCODE that completes leaves of its block: the tables of the input's symbols, and their count of
bits. -/
theorem blkEncodeOp_block {f : Bool} {d d' : Data} (h : blkEncodeOp f d = .ok d') :
    d'.tablesOf (symbolize d).1 ∧ d'.countsBlock f := by
  simp only [blkEncodeOp, bind_eq_ok, pure_eq_ok] at h
  obtain ⟨d1, h1, d2, h2, d3, h3, d4, h4, d5, h5, d6, h6, d7, h7, d8, h8, d9, h9, d10, h10, d11, h11, d12, h12, d13,
    h13, d14, h14, rfl⟩ := h
  obtain ⟨ll, dist, hcount, rfl⟩ := symRunOp_ok h1
  obtain ⟨lenLL, r2, hlenLL, rfl⟩ := hlAssignOp_assigned h2
  obtain ⟨lenD, r3, hlenD, rfl⟩ := hlAssignOp_assigned h3
  obtain ⟨codeLL, r4, hcodeLL, rfl⟩ := ccBuildOp_built h4
  obtain ⟨codeD, r5, hcodeD, rfl⟩ := ccBuildOp_built h5
  cases h6
  obtain ⟨lenCL, r7, hlenCL, rfl⟩ := hlAssignOp_assigned h7
  obtain ⟨codeCL, r8, hcodeCL, rfl⟩ := ccBuildOp_built h8
  cases h9
  obtain ⟨x, hx, rfl⟩ := blkHeaderOp_ok h10
  obtain ⟨y, hy, rfl⟩ := blkBodyOp_ok h11
  obtain ⟨z, hz, rfl⟩ := baExtendOp_ok h12
  obtain ⟨-, rfl⟩ := baDrainOp_ok h13
  cases h14
  -- Each table in terms of the tables alone, so that no later step compares whole states.
  replace hlenLL : assignedLengths .ll ll = .ok lenLL := hlenLL
  replace hlenD : assignedLengths .d dist = .ok lenD := hlenD
  replace hlenCL : assignedLengths .cl (countCls (rle lenLL.entries ++ rle lenD.entries)) = .ok lenCL := hlenCL
  replace hcodeLL : builtCodes .ll lenLL = .ok codeLL := hcodeLL
  replace hcodeD : builtCodes .d lenD = .ok codeD := hcodeD
  replace hcodeCL : builtCodes .cl lenCL = .ok codeCL := hcodeCL
  refine ⟨⟨rfl, hcount, rfl, fun | .ll => hlenLL | .d => hlenD | .cl => hlenCL,
    fun | .ll => hcodeLL | .d => hcodeD | .cl => hcodeCL, rfl⟩, x, y, ?header, ?body, rfl⟩
  case header => exact (appendHeader_congr (by rfl) (by rfl) (by rfl) f .empty).trans hx
  case body => exact (appendSymbols_congr (by rfl) (by rfl) _ x).trans hy

/-! ### Two runs of the same input and configuration (R158, R238) -/

theorem symbolize_congr {d d' : Data} (hin : d.input = d'.input) (hw : d.window = d'.window)
    (hk : d.keySize = d'.keySize) (hlb : d.lookback = d'.lookback) : symbolize d = symbolize d' := by
  rw [symbolize, symbolize, hin, hw, hk, hlb]

/-- The symbols determine every table of the block. -/
theorem tablesOf_unique {d d' : Data} {xs : List Symbol} (h : d.tablesOf xs) (h' : d'.tablesOf xs) :
    d.symq = d'.symq ∧ d.clsq = d'.clsq ∧ ∀ t, d.lenOf t = d'.lenOf t ∧ d.codeOf t = d'.codeOf t := by
  have hstep : ∀ t, d.freqOf t = d'.freqOf t → d.lenOf t = d'.lenOf t ∧ d.codeOf t = d'.codeOf t := by
    intro t hfreq
    have hlen : d.lenOf t = d'.lenOf t := Except.ok.inj ((h.len t).symm.trans (hfreq ▸ h'.len t))
    exact ⟨hlen, Except.ok.inj ((h.code t).symm.trans (hlen ▸ h'.code t))⟩
  obtain ⟨hfreqLL, hfreqD⟩ := Prod.mk.inj (Except.ok.inj (h.freq.symm.trans h'.freq))
  have hll := hstep .ll hfreqLL
  have hd := hstep .d hfreqD
  have hclsq : d.clsq = d'.clsq := by
    rw [h.clsq, h'.clsq, show d.lenLL = d'.lenLL from hll.1, show d.lenD = d'.lenD from hd.1]
  have hcl := hstep .cl (by rw [Data.freqOf, Data.freqOf, h.freqCL, h'.freqCL, hclsq])
  refine ⟨h.symq.trans h'.symq.symm, hclsq, fun t => ?_⟩
  cases t with
  | ll => exact hll
  | d => exact hd
  | cl => exact hcl

/-- Settles O58: both runs leave the tables of the same symbols, and the block's bits and their count are computed from
these. -/
theorem blkEncodeDependsOnlyOnItsInput : Obligations.BlkEncodeDependsOnlyOnItsInput := by
  intro s s' t t' f hin hw hk hlb _ _ hrun hrun' ht ht'
  obtain ⟨d, hd, rfl⟩ := exec_completed (i := .blkEncode f) nofun hrun ht
  obtain ⟨d', hd', rfl⟩ := exec_completed (i := .blkEncode f) nofun hrun' ht'
  obtain ⟨htables, x, y, hx, hy, hcount⟩ := blkEncodeOp_block hd
  obtain ⟨htables', x', y', hx', hy', hcount'⟩ := blkEncodeOp_block hd'
  rw [← symbolize_congr hin hw hk hlb] at htables'
  obtain ⟨hsymq, hclsq, htab⟩ := tablesOf_unique htables htables'
  obtain ⟨-, hll⟩ := htab .ll
  obtain ⟨-, hdist⟩ := htab .d
  obtain ⟨hlenCL, hcodeCL⟩ := htab .cl
  rw [appendHeader_congr hlenCL hcodeCL hclsq, hx'] at hx
  cases hx
  rw [appendSymbols_congr hll hdist, hsymq, hy'] at hy
  cases hy
  exact ⟨hsymq, hcount.trans hcount'.symm,
    congrArg₂ (· ++ ·) (blockHeader_congr hlenCL hcodeCL hclsq f) (blockBody_congr hll hdist hsymq)⟩

end Sys2Proof.Machine
end

section
/-! PROOFS. The used symbols of a weight table (R171): `usedSorted` lists each once, in the order of R171. -/

namespace Sys2Proof.Machine

/-! ### The used symbols in symbol order -/

theorem usedFrom_eq (s : Nat) (ws : List Nat) :
    usedFrom s ws = ((ws.zipIdx s).filter fun p => 0 < p.1).map fun p => ⟨p.2, p.1⟩ := by
  induction ws generalizing s with
  | nil => rfl
  | cons w ws ih =>
    rw [usedFrom, List.zipIdx_cons, List.filter_cons, ih]
    by_cases hw : 0 < w <;> simp [hw]

theorem mem_usedFrom_zero {ws : List Nat} {x : Weighted} :
    x ∈ usedFrom 0 ws ↔ 0 < x.weight ∧ ws[x.sym]? = some x.weight := by
  cases x
  simp [usedFrom_eq, List.mk_mem_zipIdx_iff_getElem?, and_comm]

theorem usedFrom_syms_sublist (s : Nat) (ws : List Nat) :
    ((usedFrom s ws).map fun x => x.sym).Sublist (List.range' s ws.length) := by
  rw [usedFrom_eq, List.map_map, ← List.zipIdx_map_snd s ws]
  exact List.filter_sublist.map Prod.snd

/-! ### The order of R171 -/

theorem before_iff {a b : Weighted} :
    a.before b = true ↔ b.weight < a.weight ∨ (a.weight = b.weight ∧ a.sym < b.sym) := by
  simp [Weighted.before]

theorem before_trans {a b c : Weighted} (hab : a.before b = true) (hbc : b.before c = true) : a.before c = true := by
  rw [before_iff] at *
  omega

theorem before_of_not_before {a b : Weighted} (hab : ¬ a.before b = true) (hne : b.sym ≠ a.sym) : b.before a = true := by
  rw [before_iff] at *
  omega

theorem insertWeighted_eq_orderedInsert (x : Weighted) (ys : List Weighted) :
    insertWeighted x ys = ys.orderedInsert (fun a b => a.before b = true) x := by
  induction ys with
  | nil => rfl
  | cons y ys ih => rw [insertWeighted, List.orderedInsert_cons, ih]

theorem usedSorted_perm (ws : List Nat) : (usedSorted ws).Perm (usedFrom 0 ws) := by
  rw [usedSorted, funext₂ insertWeighted_eq_orderedInsert]
  exact List.perm_insertionSort _ _

theorem insertWeighted_sorted {x : Weighted} {ys : List Weighted} (hys : ys.Pairwise fun a b => a.before b = true)
    (hne : ∀ y ∈ ys, y.sym ≠ x.sym) : (insertWeighted x ys).Pairwise fun a b => a.before b = true := by
  induction ys with
  | nil => exact List.pairwise_singleton _ x
  | cons y ys ih =>
    obtain ⟨hy, hys'⟩ := List.pairwise_cons.mp hys
    obtain ⟨hyx, hne'⟩ := List.forall_mem_cons.mp hne
    rw [insertWeighted]
    split
    · next hxy =>
      exact List.pairwise_cons.mpr
        ⟨List.forall_mem_cons.mpr ⟨hxy, fun z hz => before_trans hxy (hy z hz)⟩, hys⟩
    · next hxy =>
      refine List.pairwise_cons.mpr ⟨fun z hz => ?_, ih hys' hne'⟩
      rw [insertWeighted_eq_orderedInsert, List.mem_orderedInsert] at hz
      obtain rfl | hz := hz
      · exact before_of_not_before hxy hyx
      · exact hy z hz

theorem foldr_insertWeighted_sorted {xs : List Weighted} (h : (xs.map fun x => x.sym).Nodup) :
    (xs.foldr insertWeighted []).Pairwise fun a b => a.before b = true := by
  induction xs with
  | nil => exact .nil
  | cons x xs ih =>
    rw [List.map_cons, List.nodup_cons] at h
    refine insertWeighted_sorted (ih h.2) fun y hy hsym => h.1 (hsym ▸ List.mem_map_of_mem ?_)
    rw [funext₂ insertWeighted_eq_orderedInsert] at hy
    exact (List.mem_insertionSort _).mp hy

/-! ### The used symbols in the order of R171 -/

theorem usedSorted_sorted (ws : List Nat) : (usedSorted ws).Pairwise fun a b => a.before b = true :=
  foldr_insertWeighted_sorted ((usedFrom_syms_sublist 0 ws).nodup List.nodup_range')

theorem nodup_usedSorted_syms (ws : List Nat) : ((usedSorted ws).map fun x => x.sym).Nodup :=
  ((usedSorted_perm ws).map _).nodup_iff.mpr ((usedFrom_syms_sublist 0 ws).nodup List.nodup_range')

theorem length_usedSorted_le (ws : List Nat) : (usedSorted ws).length ≤ ws.length := by
  simpa [(usedSorted_perm ws).length_eq] using (usedFrom_syms_sublist 0 ws).length_le

theorem mem_usedSorted {ws : List Nat} {x : Weighted} :
    x ∈ usedSorted ws ↔ 0 < x.weight ∧ ws[x.sym]? = some x.weight :=
  (usedSorted_perm ws).mem_iff.trans mem_usedFrom_zero

/-- The weights of the alphabet T, symbol 0 first (R44). -/
def Data.weights (d : Data) (t : TableSel) : List Nat := (d.freqOf t).entries.map BitVec.toNat

theorem length_weights (d : Data) (t : TableSel) : (d.weights t).length = t.size := by simp [Data.weights]

theorem mem_usedSorted_weights {d : Data} {t : TableSel} {x : Weighted} :
    x ∈ usedSorted (d.weights t)
      ↔ x.sym < t.size ∧ 0 < x.weight ∧ x.weight = ((d.freqOf t).get 0 x.sym).toNat := by
  rw [mem_usedSorted, Data.weights, List.getElem?_map, Table.get, List.getD_eq_getElem?_getD]
  by_cases hx : x.sym < t.size
  · simp [hx, eq_comm]
  · simp [hx]

theorem mem_usedSorted_syms {d : Data} {t : TableSel} {i : Nat} (hi : i < t.size) :
    i ∈ (usedSorted (d.weights t)).map (fun x => x.sym) ↔ (d.freqOf t).get 0 i ≠ 0 := by
  simp only [List.mem_map, mem_usedSorted_weights]
  constructor
  · rintro ⟨x, ⟨-, hpos, hw⟩, rfl⟩ h0
    rw [h0] at hw
    exact hpos.ne' hw
  · intro h0
    exact ⟨⟨i, _⟩, ⟨hi, Nat.pos_of_ne_zero fun h => h0 (BitVec.eq_of_toNat_eq h), rfl⟩, rfl⟩

end Sys2Proof.Machine
end

section
/-! PROOFS. The split of R172: where the left group stops growing (R173, R174), and what the recursion gives a group of
1 to 2^r symbols with r levels left: one length for each symbol, the lengths of a full binary tree. -/

namespace Sys2Proof.Machine

/-! ### The left group (R172 to R174) -/

/-- The loop of R172 grows the left group of `g` from its `k` heaviest symbols. -/
def growsAt (cap : Nat) (g : List Weighted) (k : Nat) : Prop :=
  k < g.length - 1 ∧ k + 1 ≤ cap
    ∧ (k = 0 ∨ cap < g.length - k ∨ 2 * totalWeight (g.take k) + (g.getD k ⟨0, 0⟩).weight < totalWeight g)

theorem totalWeight_take_succ {g rest : List Weighted} {k : Nat} {x : Weighted} (h : g.drop k = x :: rest) :
    totalWeight (g.take (k + 1)) = totalWeight (g.take k) + x.weight := by
  have hx : g[k]? = some x := by rw [← List.head?_drop, h]; rfl
  simp [totalWeight, List.take_add_one, hx]

theorem growLeft_stops (cap : Nat) (g rest : List Weighted) (k : Nat) (h : g.drop k = rest) :
    let m := growLeft g.length cap (totalWeight g) k (totalWeight (g.take k)) rest
    ¬ growsAt cap g m ∧ ∀ j, k ≤ j → j < m → growsAt cap g j := by
  induction rest generalizing k with
  | nil =>
    have hk : g.length ≤ k := List.drop_eq_nil_iff.mp h
    exact ⟨fun hm => absurd hm.1 (by rw [growLeft]; omega), fun j hj hm => absurd hm (by rw [growLeft]; omega)⟩
  | cons x rest ih =>
    have hx : g.getD k ⟨0, 0⟩ = x := by
      rw [List.getD_eq_getElem?_getD, ← List.head?_drop, h]
      rfl
    have hrest : g.drop (k + 1) = rest := by rw [← List.tail_drop, h, List.tail_cons]
    rw [growLeft]
    split
    · next hgrows =>
      rw [← totalWeight_take_succ h]
      obtain ⟨hstop, hbefore⟩ := ih (k + 1) hrest
      refine ⟨hstop, fun j hj hm => ?_⟩
      obtain rfl | hj := Nat.eq_or_lt_of_le hj
      · rwa [growsAt, hx]
      · exact hbefore j hj hm
    · next hstop => exact ⟨by rwa [growsAt, hx], fun j hj hm => absurd hm (Nat.not_lt.mpr hj)⟩

/-- The left group is the shortest at which the loop of R172 stops. -/
theorem leftSize_stops (cap : Nat) (g : List Weighted) :
    ¬ growsAt cap g (leftSize cap g) ∧ ∀ j, j < leftSize cap g → growsAt cap g j := by
  obtain ⟨hstop, hbefore⟩ := growLeft_stops cap g g 0 rfl
  exact ⟨hstop, fun j => hbefore j (Nat.zero_le j)⟩

theorem leftSize_bounds {cap : Nat} {g : List Weighted} (h2 : 2 ≤ g.length) (hcap : g.length ≤ 2 * cap) :
    max 1 (g.length - cap) ≤ leftSize cap g ∧ leftSize cap g ≤ min cap (g.length - 1) := by
  obtain ⟨hstop, hbefore⟩ := leftSize_stops cap g
  have hlast := hbefore (leftSize cap g - 1)
  unfold growsAt at hstop hlast
  omega

theorem leftSize_balanced {cap : Nat} {g : List Weighted} (h2 : 2 ≤ g.length) (hcap : g.length ≤ 2 * cap) :
    leftSize cap g = min cap (g.length - 1)
      ∨ totalWeight g ≤ 2 * totalWeight (g.take (leftSize cap g)) + (g.getD (leftSize cap g) ⟨0, 0⟩).weight := by
  obtain ⟨hleast, hmost⟩ := leftSize_bounds h2 hcap
  obtain ⟨hstop, -⟩ := leftSize_stops cap g
  unfold growsAt at hstop
  omega

theorem not_balanced_of_lt_leftSize {cap j : Nat} {g : List Weighted} (hj : max 1 (g.length - cap) ≤ j)
    (hk : j < leftSize cap g) : ¬ totalWeight g ≤ 2 * totalWeight (g.take j) + (g.getD j ⟨0, 0⟩).weight := by
  obtain ⟨-, -, hforced⟩ := (leftSize_stops cap g).2 j hk
  omega

/-! ### The recursion (R172, R174) -/

@[simp] theorem splitGroup_singleton (r d : Nat) (x : Weighted) : splitGroup r d [x] = [(x.sym, d)] := by
  cases r <;> rfl

theorem splitGroup_succ {g : List Weighted} (h2 : 2 ≤ g.length) (r d : Nat) :
    splitGroup (r + 1) d g
      = splitGroup r (d + 1) (g.take (leftSize (2 ^ r) g)) ++ splitGroup r (d + 1) (g.drop (leftSize (2 ^ r) g)) := by
  match g with
  | x :: y :: g => rfl

/-- Induction along the split: a group of 1 to 2^r symbols is one symbol, or two groups with a level fewer left that
are not empty and fit it (R174). -/
theorem splitGroup_induction {P : Nat → Nat → List Weighted → Prop} (single : ∀ r d x, P r d [x])
    (split : ∀ r d g, 2 ≤ g.length → P r (d + 1) (g.take (leftSize (2 ^ r) g)) →
      P r (d + 1) (g.drop (leftSize (2 ^ r) g)) → P (r + 1) d g)
    {r : Nat} (d : Nat) {g : List Weighted} (hpos : 1 ≤ g.length) (hfit : g.length ≤ 2 ^ r) : P r d g := by
  induction r generalizing d g with
  | zero =>
    obtain ⟨x, rfl⟩ := List.length_eq_one_iff.mp (Nat.le_antisymm hfit hpos)
    exact single 0 d x
  | succ r ih =>
    obtain h1 | h2 := Nat.eq_or_lt_of_le hpos
    · obtain ⟨x, rfl⟩ := List.length_eq_one_iff.mp h1.symm
      exact single (r + 1) d x
    · rw [Nat.pow_succ'] at hfit
      obtain ⟨hleast, hmost⟩ := leftSize_bounds h2 hfit
      refine split r d g h2 (ih (d + 1) ?_ ?_) (ih (d + 1) ?_ ?_) <;> simp only [List.length_take, List.length_drop] <;>
        omega

section
variable {r d : Nat} {g : List Weighted} (hpos : 1 ≤ g.length) (hfit : g.length ≤ 2 ^ r)
include hpos hfit

theorem splitGroup_syms : (splitGroup r d g).map Prod.fst = g.map fun x => x.sym := by
  refine splitGroup_induction (P := fun r d g => (splitGroup r d g).map Prod.fst = g.map fun x => x.sym)
    (fun r d x => by simp) (fun r d g h2 hleft hright => ?_) d hpos hfit
  rw [splitGroup_succ h2, List.map_append, hleft, hright, ← List.map_append, List.take_append_drop]

/-- Only a group of one symbol keeps its depth. -/
theorem splitGroup_depth : ∀ p ∈ splitGroup r d g, d ≤ p.2 ∧ (2 ≤ g.length → d < p.2) := by
  refine splitGroup_induction (P := fun r d g => ∀ p ∈ splitGroup r d g, d ≤ p.2 ∧ (2 ≤ g.length → d < p.2))
    (fun r d x => by simp) (fun r d g h2 hleft hright p hp => ?_) d hpos hfit
  have hdeeper : d + 1 ≤ p.2 := by
    rw [splitGroup_succ h2] at hp
    obtain hp | hp := List.mem_append.mp hp
    · exact (hleft p hp).1
    · exact (hright p hp).1
  exact ⟨Nat.le_of_succ_le hdeeper, fun _ => hdeeper⟩

/-- Each split halves the share of the Kraft sum that a group at depth d has (R178). -/
theorem splitGroup_kraft {m : Nat} (hm : d + r ≤ m) :
    ((splitGroup r d g).map fun p => 2 ^ (m - p.2)).sum = 2 ^ (m - d) := by
  refine splitGroup_induction
    (P := fun r d g => d + r ≤ m → ((splitGroup r d g).map fun p => 2 ^ (m - p.2)).sum = 2 ^ (m - d))
    (fun r d x _ => by simp) (fun r d g h2 hleft hright hm => ?_) d hpos hfit hm
  rw [splitGroup_succ h2, List.map_append, List.sum_append, hleft (by omega), hright (by omega), ← Nat.two_mul,
    ← Nat.pow_succ']
  congr 1
  omega

end

end Sys2Proof.Machine
end

section
/-! PROOFS. HL_ASSIGN (R170 to R178): `assign` always completes with pairs that are a complete code, and the length table
and RESULT0 that HL_ASSIGN writes are those of the pairs. -/

namespace Sys2Proof.Machine

/-! ### The length a list of pairs gives a symbol -/

theorem lengthIn_of_not_mem {pairs : List (Nat × Nat)} {s : Nat} (h : s ∉ pairs.map Prod.fst) : lengthIn pairs s = 0 := by
  induction pairs with
  | nil => rfl
  | cons p ps ih =>
    obtain ⟨hp, hps⟩ := List.ne_and_not_mem_of_not_mem_cons h
    rw [lengthIn, if_neg (Ne.symm hp), ih hps]

theorem lengthIn_pos {pairs : List (Nat × Nat)} {s : Nat} (hpos : ∀ p ∈ pairs, 0 < p.2) (h : s ∈ pairs.map Prod.fst) :
    0 < lengthIn pairs s := by
  induction pairs with
  | nil => cases h
  | cons p ps ih =>
    obtain ⟨hp, hps⟩ := List.forall_mem_cons.mp hpos
    rw [lengthIn]
    split
    · exact hp
    · next hne => exact ih hps ((List.mem_cons.mp h).resolve_left (Ne.symm hne))

/-- The sum over an alphabet of a function of the lengths is the sum over the pairs that give them. -/
theorem sum_lengthIn {f : Nat → Nat} (h0 : f 0 = 0) {n : Nat} {pairs : List (Nat × Nat)}
    (hnodup : (pairs.map Prod.fst).Nodup) (hlt : ∀ p ∈ pairs, p.1 < n) :
    ∑ i ∈ Finset.range n, f (lengthIn pairs i) = (pairs.map fun p => f p.2).sum := by
  induction pairs with
  | nil => simp [lengthIn, h0]
  | cons p ps ih =>
    rw [List.map_cons, List.nodup_cons] at hnodup
    obtain ⟨hp, hps⟩ := List.forall_mem_cons.mp hlt
    have hstep : ∀ i, f (lengthIn (p :: ps) i) = (if p.1 = i then f p.2 else 0) + f (lengthIn ps i) := by
      intro i
      rw [lengthIn]
      split
      · next hi => rw [← hi, lengthIn_of_not_mem hnodup.1, h0, Nat.add_zero]
      · rw [Nat.zero_add]
    rw [Finset.sum_congr rfl fun i _ => hstep i, Finset.sum_add_distrib, Finset.sum_ite_eq, ih hnodup.2 hps,
      if_pos (Finset.mem_range.mpr hp), List.map_cons, List.sum_cons]

/-! ### The length table of a list of pairs -/

/-- The length table that a list of (symbol, length) pairs gives the alphabet T (R171). -/
def lengthTable (t : TableSel) (pairs : List (Nat × Nat)) : Table (BitVec 4) t.size :=
  .build t.size fun s => BitVec.ofNat 4 (lengthIn pairs s)

/-- The largest length the pairs give a symbol of the alphabet T (R170). -/
def largestLength (t : TableSel) (pairs : List (Nat × Nat)) : Nat := maxOf ((List.range t.size).map (lengthIn pairs))

theorem lengthLimit_le (t : TableSel) : t.lengthLimit ≤ 15 := by cases t <;> decide

theorem one_lt_size (t : TableSel) : 1 < t.size := by cases t <;> decide

/-- No alphabet has more symbols than its leaf budget (R177). -/
theorem size_le_two_pow_lengthLimit (t : TableSel) : t.size ≤ 2 ^ t.lengthLimit := by cases t <;> decide

theorem toNat_ofNat_lengthIn {t : TableSel} {pairs : List (Nat × Nat)} (h : ∀ p ∈ pairs, p.2 ≤ t.lengthLimit) (i : Nat) :
    (BitVec.ofNat 4 (lengthIn pairs i)).toNat = lengthIn pairs i := by
  have hle := (lengthIn_le h i).trans (lengthLimit_le t)
  exact Nat.mod_eq_of_lt (by omega)

theorem toNat_get_lengthTable {t : TableSel} {pairs : List (Nat × Nat)} (h : ∀ p ∈ pairs, p.2 ≤ t.lengthLimit) {i : Nat}
    (hi : i < t.size) : ((lengthTable t pairs).get 0 i).toNat = lengthIn pairs i := by
  rw [lengthTable, Table.get_build 0 _ hi, toNat_ofNat_lengthIn h]

theorem maxOf_spec {xs : List Nat} (h : xs ≠ []) : maxOf xs ∈ xs ∧ ∀ x ∈ xs, x ≤ maxOf xs := by
  cases xs with
  | nil => exact absurd rfl h
  | cons x xs => exact List.max?_eq_some_iff.mp (by rw [List.max?_cons', maxOf, List.foldl_cons, Nat.zero_max])

theorem largestLength_spec (t : TableSel) (pairs : List (Nat × Nat)) :
    (∃ i, i < t.size ∧ lengthIn pairs i = largestLength t pairs)
      ∧ ∀ i, i < t.size → lengthIn pairs i ≤ largestLength t pairs := by
  have hne : (List.range t.size).map (lengthIn pairs) ≠ [] := by
    simpa using (Nat.zero_lt_of_lt (one_lt_size t)).ne'
  obtain ⟨hmem, hle⟩ := maxOf_spec hne
  obtain ⟨i, hi, heq⟩ := List.mem_map.mp hmem
  exact ⟨⟨i, List.mem_range.mp hi, heq⟩, fun j hj => hle _ (List.mem_map_of_mem (List.mem_range.mpr hj))⟩

/-! ### HL_ASSIGN from the pairs of `assign` (R170) -/

theorem exec_hlAssign {s : State} {t : TableSel} {pairs : List (Nat × Nat)}
    (h : assignPairs (s.data.weights t) t.size t.lengthLimit = .ok pairs) :
    exec (.hlAssign t) s = .next (s.completed { s.data.setLen t (lengthTable t pairs) with
      result0 := BitVec.ofNat 32 (largestLength t pairs) }) := by
  have hlens : assignLengths (s.data.weights t) t.size t.lengthLimit = .ok ((List.range t.size).map (lengthIn pairs)) :=
    map_eq_ok.mpr ⟨pairs, h, rfl⟩
  have htable : (Table.build t.size fun i => BitVec.ofNat 4 (((List.range t.size).map (lengthIn pairs)).getD i 0))
      = lengthTable t pairs :=
    Table.ext_entries (List.map_congr_left fun i hi => by simp [List.mem_range.mp hi])
  refine exec_of_op_ok nofun (bind_eq_ok.mpr ⟨_, hlens, ?_⟩)
  rw [htable]
  rfl

/-- Everything `assign` can answer for the weights of an alphabet (R171, R175 to R177). -/
theorem assignPairs_cases (d : Data) (t : TableSel) :
    (usedSorted (d.weights t) = [] ∧ assignPairs (d.weights t) t.size t.lengthLimit = .ok [(0, 1), (1, 1)])
      ∨ (∃ x, usedSorted (d.weights t) = [x] ∧ assignPairs (d.weights t) t.size t.lengthLimit
        = .ok [(x.sym, 1), (if x.sym + 1 < t.size then x.sym + 1 else x.sym - 1, 1)])
      ∨ (2 ≤ (usedSorted (d.weights t)).length ∧ (usedSorted (d.weights t)).length ≤ 2 ^ t.lengthLimit
        ∧ assignPairs (d.weights t) t.size t.lengthLimit = .ok (splitGroup t.lengthLimit 0 (usedSorted (d.weights t)))) := by
  have hfit : (usedSorted (d.weights t)).length ≤ 2 ^ t.lengthLimit :=
    (length_usedSorted_le _).trans ((length_weights d t).trans_le (size_le_two_pow_lengthLimit t))
  rw [assignPairs]
  generalize usedSorted (d.weights t) = used at *
  match used with
  | [] => exact .inl ⟨rfl, rfl⟩
  | [x] => exact .inr (.inl ⟨x, rfl, rfl⟩)
  | x :: y :: g => exact .inr (.inr ⟨Nat.le_add_left 2 _, hfit, if_neg (Nat.not_lt.mpr hfit)⟩)

/-- Settles O44: the left group stops growing as R172 says, and HL_ASSIGN writes the depths of the split. -/
theorem splitSizesFitTheirCapacity : Obligations.SplitSizesFitTheirCapacity := by
  refine ⟨fun r g h2 hfit => ?_, splitGroup_singleton, fun s t => ⟨?_, fun x => mem_usedSorted_weights, fun h2 => ?_⟩⟩
  · obtain ⟨hleast, hmost⟩ := leftSize_bounds h2 hfit
    exact ⟨hleast, hmost, leftSize_balanced h2 hfit, fun j => not_balanced_of_lt_leftSize, splitGroup_succ h2 r⟩
  · exact (usedSorted_sorted _).imp before_iff.mp
  · obtain ⟨hnil, -⟩ | ⟨x, hone, -⟩ | ⟨-, -, hpairs⟩ := assignPairs_cases s.data t
    · exact absurd h2 (by rw [← Data.weights, hnil]; decide)
    · exact absurd h2 (by rw [← Data.weights, hone]; simp)
    · exact ⟨_, _, exec_hlAssign hpairs, fun i => toNat_get_lengthTable (assignPairs_le (lengthLimit_pos t) hpairs)⟩

/-! ### No or one used symbol (R175, R176) -/

theorem lengthIn_twoLeaves (a b i : Nat) : lengthIn [(a, 1), (b, 1)] i = if i = a ∨ i = b then 1 else 0 := by
  simp only [lengthIn, ite_or, eq_comm (a := i)]

theorem get_lengthTable_twoLeaves {t : TableSel} (a b : Nat) {i : Nat} (hi : i < t.size) :
    (lengthTable t [(a, 1), (b, 1)]).get 0 i = if i = a ∨ i = b then 1 else 0 := by
  rw [lengthTable, Table.get_build 0 _ hi, lengthIn_twoLeaves]
  split <;> rfl

theorem largestLength_twoLeaves {t : TableSel} {a : Nat} (b : Nat) (ha : a < t.size) :
    largestLength t [(a, 1), (b, 1)] = 1 := by
  obtain ⟨⟨i, -, hi⟩, hle⟩ := largestLength_spec t [(a, 1), (b, 1)]
  have hone := hle a ha
  rw [lengthIn_twoLeaves, if_pos (.inl rfl)] at hone
  rw [lengthIn_twoLeaves] at hi
  split at hi <;> omega

theorem usedSorted_eq_nil {d : Data} {t : TableSel} (h : ∀ i, i < t.size → (d.freqOf t).get 0 i = 0) :
    usedSorted (d.weights t) = [] := by
  refine List.eq_nil_iff_forall_not_mem.mpr fun x hx => ?_
  obtain ⟨hlt, hpos, hw⟩ := mem_usedSorted_weights.mp hx
  rw [h x.sym hlt] at hw
  exact hpos.ne' hw

theorem usedSorted_eq_singleton {d : Data} {t : TableSel} {a : Nat} (ha : a < t.size) (hused : (d.freqOf t).get 0 a ≠ 0)
    (h : ∀ i, i < t.size → i ≠ a → (d.freqOf t).get 0 i = 0) : ∃ x, usedSorted (d.weights t) = [x] ∧ x.sym = a := by
  have hsyms : (usedSorted (d.weights t)).map (fun x => x.sym) = [a] := by
    refine List.perm_singleton.mp
      ((List.perm_ext_iff_of_nodup (nodup_usedSorted_syms _) (List.nodup_singleton a)).mpr fun i => ?_)
    rw [List.mem_singleton]
    constructor
    · intro hi
      obtain ⟨x, hx, rfl⟩ := List.mem_map.mp hi
      have hlt := (mem_usedSorted_weights.mp hx).1
      by_contra hne
      exact (mem_usedSorted_syms hlt).mp hi (h _ hlt hne)
    · rintro rfl
      exact (mem_usedSorted_syms ha).mpr hused
  exact List.map_eq_singleton_iff.mp hsyms

/-- Settles O43: `assign` answers the two leaves of R175 or R176. -/
theorem noneOrOneUsedSymbolGetsTwoLeaves : Obligations.NoneOrOneUsedSymbolGetsTwoLeaves := by
  intro s t a b h
  have hleaves : a < t.size ∧ assignPairs (s.data.weights t) t.size t.lengthLimit = .ok [(a, 1), (b, 1)] := by
    obtain ⟨hnone, rfl, rfl⟩ | ⟨ha, hused, hone, rfl⟩ := h
    · exact ⟨Nat.zero_lt_of_lt (one_lt_size t), by rw [assignPairs, usedSorted_eq_nil hnone]⟩
    · obtain ⟨x, hx, rfl⟩ := usedSorted_eq_singleton ha hused hone
      exact ⟨ha, by rw [assignPairs, hx]⟩
  obtain ⟨ha, hpairs⟩ := hleaves
  have hexec := exec_hlAssign hpairs
  rw [largestLength_twoLeaves b ha] at hexec
  exact ⟨_, hexec, fun i => get_lengthTable_twoLeaves a b⟩

/-! ### A complete code (R178) -/

/-- The pairs give each of some symbols of an alphabet of `n` one length of 1 to 15, and the Kraft sum of the lengths
is 1. -/
structure CompleteCode (n : Nat) (pairs : List (Nat × Nat)) : Prop where
  nodup : (pairs.map Prod.fst).Nodup
  lt : ∀ p ∈ pairs, p.1 < n
  pos : ∀ p ∈ pairs, 0 < p.2
  kraft : (pairs.map fun p => 2 ^ (15 - p.2)).sum = 2 ^ 15

theorem completeCode_twoLeaves {n a b : Nat} (ha : a < n) (hb : b < n) (hab : a ≠ b) :
    CompleteCode n [(a, 1), (b, 1)] where
  nodup := by simpa using hab
  lt := by simp [ha, hb]
  pos := by simp
  kraft := by simp

theorem completeCode_splitGroup {n limit : Nat} {g : List Weighted} (hlim : limit ≤ 15) (h2 : 2 ≤ g.length)
    (hfit : g.length ≤ 2 ^ limit) (hnodup : (g.map fun x => x.sym).Nodup) (hlt : ∀ x ∈ g, x.sym < n) :
    CompleteCode n (splitGroup limit 0 g) where
  nodup := by rwa [splitGroup_syms (Nat.le_of_succ_le h2) hfit]
  lt p hp := by
    have hsym := List.mem_map_of_mem (f := Prod.fst) hp
    rw [splitGroup_syms (Nat.le_of_succ_le h2) hfit] at hsym
    obtain ⟨x, hx, hxp⟩ := List.mem_map.mp hsym
    exact hxp ▸ hlt x hx
  pos p hp := (splitGroup_depth (Nat.le_of_succ_le h2) hfit p hp).2 h2
  kraft := splitGroup_kraft (Nat.le_of_succ_le h2) hfit (by omega)

/-- `assign` answers a complete code for every weight table; it names each used symbol, and no other where two or more
are used. -/
theorem assignPairs_complete (d : Data) (t : TableSel) :
    ∃ pairs, assignPairs (d.weights t) t.size t.lengthLimit = .ok pairs ∧ CompleteCode t.size pairs
      ∧ (∀ x ∈ usedSorted (d.weights t), x.sym ∈ pairs.map Prod.fst)
      ∧ (2 ≤ (usedSorted (d.weights t)).length →
        pairs.map Prod.fst = (usedSorted (d.weights t)).map fun x => x.sym) := by
  have hsize := one_lt_size t
  have hmem : ∀ x ∈ usedSorted (d.weights t), x.sym < t.size := fun x hx => (mem_usedSorted_weights.mp hx).1
  obtain ⟨hnil, hpairs⟩ | ⟨x, hone, hpairs⟩ | ⟨h2, hfit, hpairs⟩ := assignPairs_cases d t
  · refine ⟨_, hpairs, completeCode_twoLeaves (Nat.zero_lt_of_lt hsize) hsize Nat.zero_ne_one, ?_, ?_⟩ <;> simp [hnil]
  · have hx := hmem x (by simp [hone])
    refine ⟨_, hpairs, completeCode_twoLeaves hx ?_ ?_, ?_, ?_⟩
    · split <;> omega
    · split <;> omega
    · simp [hone]
    · simp [hone]
  · have hsyms := splitGroup_syms (d := 0) (Nat.le_of_succ_le h2) hfit
    exact ⟨_, hpairs, completeCode_splitGroup (lengthLimit_le t) h2 hfit (nodup_usedSorted_syms _) hmem,
      fun x hx => hsyms ▸ List.mem_map_of_mem hx, fun _ => hsyms⟩

/-- The share of the Kraft sum that one length takes, times 2^15. -/
def kraftShare (l : Nat) : Nat := if l = 0 then 0 else 2 ^ (15 - l)

theorem kraft_eq (lens : List (BitVec 4)) : kraft lens = (lens.map fun l => kraftShare l.toNat).sum := by
  simp [kraft, kraftShare, BitVec.toNat_eq]

theorem kraft_lengthTable {t : TableSel} {pairs : List (Nat × Nat)} (hle : ∀ p ∈ pairs, p.2 ≤ t.lengthLimit)
    (hc : CompleteCode t.size pairs) : kraft (lengthTable t pairs).entries = 2 ^ 15 :=
  calc kraft (lengthTable t pairs).entries
    _ = ((List.range t.size).map fun i => kraftShare (lengthIn pairs i)).sum := by
      simp only [kraft_eq, lengthTable, Table.entries_build, List.map_map, Function.comp_def, toNat_ofNat_lengthIn hle]
    _ = ∑ i ∈ Finset.range t.size, kraftShare (lengthIn pairs i) := rfl
    _ = (pairs.map fun p => kraftShare p.2).sum := sum_lengthIn rfl hc.nodup hc.lt
    _ = (pairs.map fun p => 2 ^ (15 - p.2)).sum :=
      congrArg List.sum (List.map_congr_left fun p hp => if_neg (hc.pos p hp).ne')
    _ = 2 ^ 15 := hc.kraft

theorem two_le_length_usedSorted {d : Data} {t : TableSel} {i j : Nat} (hi : i < t.size) (hj : j < t.size) (hne : i ≠ j)
    (hui : (d.freqOf t).get 0 i ≠ 0) (huj : (d.freqOf t).get 0 j ≠ 0) : 2 ≤ (usedSorted (d.weights t)).length := by
  have hsub : ({i, j} : Finset Nat) ⊆ ((usedSorted (d.weights t)).map fun x => x.sym).toFinset := by
    intro k hk
    rw [List.mem_toFinset]
    obtain rfl | rfl := by simpa using hk
    · exact (mem_usedSorted_syms hi).mpr hui
    · exact (mem_usedSorted_syms hj).mpr huj
  simpa [Finset.card_pair hne] using (Finset.card_le_card hsub).trans (List.toFinset_card_le _)

/-- Settles O42: `assign` answers a complete code, and HL_ASSIGN writes its lengths and the largest of them. -/
theorem hlAssignGivesACompleteCode : Obligations.HlAssignGivesACompleteCode := by
  intro s t
  obtain ⟨pairs, hpairs, hc, hused, honly⟩ := assignPairs_complete s.data t
  have hle := assignPairs_le (lengthLimit_pos t) hpairs
  have hget := fun i (hi : i < t.size) => toNat_get_lengthTable hle hi
  have hentry : ∀ l ∈ (lengthTable t pairs).entries, ∃ i, i < t.size ∧ l.toNat = lengthIn pairs i := by
    intro l hl
    obtain ⟨i, hi, rfl⟩ := List.mem_map.mp hl
    exact ⟨i, List.mem_range.mp hi, toNat_ofNat_lengthIn hle i⟩
  obtain ⟨⟨k, hk, hkmax⟩, hmax⟩ := largestLength_spec t pairs
  have hr : (BitVec.ofNat 32 (largestLength t pairs)).toNat = largestLength t pairs := by
    have := (lengthIn_le hle k).trans (lengthLimit_le t)
    exact Nat.mod_eq_of_lt (by omega)
  refine ⟨_, _, exec_hlAssign hpairs, fun l hl => ?_, ⟨_, (lengthTable t pairs).get_mem 0 hk, ?_⟩,
    kraft_lengthTable hle hc, fun i hi hui hzero => ?_, fun i j hi hj hne hui huj m hm hum => ?_⟩
  · obtain ⟨i, hi, hl⟩ := hentry l hl
    rw [hl, hr]
    exact ⟨lengthIn_le hle i, hmax i hi⟩
  · rw [hget k hk, hkmax, hr]
  · obtain ⟨x, hx, rfl⟩ := List.mem_map.mp ((mem_usedSorted_syms hi).mpr hui)
    have hpos := lengthIn_pos hc.pos (hused x hx)
    rw [← hget x.sym hi, hzero] at hpos
    exact Nat.lt_irrefl 0 hpos
  · have hnot : m ∉ pairs.map Prod.fst := by
      rw [honly (two_le_length_usedSorted hi hj hne hui huj), mem_usedSorted_syms hm]
      exact not_not_intro hum
    exact BitVec.eq_of_toNat_eq ((hget m hm).trans (lengthIn_of_not_mem hnot))

end Sys2Proof.Machine
end

section
/-! PROOFS. The canonical code builder (R190 to R194). A code of width w stands for its part of the 2^15 words of 15
bits: the 2^(15-w) that it begins. The loop of R191 gives each symbol the next free part, which starts where the parts of the
symbols before it end, and fails where the parts pass 2^15. -/

namespace Sys2Proof.Machine

/-! ### The coded symbols in the order of R191 -/

theorem lengthedBefore_iff {a b : Lengthed} :
    a.before b = true ↔ a.len < b.len ∨ (a.len = b.len ∧ a.sym < b.sym) := by
  simp [Lengthed.before]

theorem lengthedBefore_trans {a b c : Lengthed} (hab : a.before b = true) (hbc : b.before c = true) :
    a.before c = true := by
  rw [lengthedBefore_iff] at *
  omega

theorem lengthedBefore_of_not {a b : Lengthed} (hab : ¬ a.before b = true) (hne : b.sym ≠ a.sym) :
    b.before a = true := by
  rw [lengthedBefore_iff] at *
  omega

theorem not_lengthedBefore_of_before {a b : Lengthed} (hab : a.before b = true) : ¬ b.before a = true := by
  rw [lengthedBefore_iff] at *
  omega

theorem not_lengthedBefore_self (a : Lengthed) : ¬ a.before a = true := by simp [lengthedBefore_iff]

theorem insertLengthed_eq_orderedInsert (x : Lengthed) (ys : List Lengthed) :
    insertLengthed x ys = ys.orderedInsert (fun a b => a.before b = true) x := by
  induction ys with
  | nil => rfl
  | cons y ys ih => rw [insertLengthed, List.orderedInsert_cons, ih]

theorem codedSorted_perm (lens : List Nat) : (codedSorted lens).Perm (codedFrom 0 lens) := by
  rw [codedSorted, funext₂ insertLengthed_eq_orderedInsert]
  exact List.perm_insertionSort _ _

theorem insertLengthed_sorted {x : Lengthed} {ys : List Lengthed} (hys : ys.Pairwise fun a b => a.before b = true)
    (hne : ∀ y ∈ ys, y.sym ≠ x.sym) : (insertLengthed x ys).Pairwise fun a b => a.before b = true := by
  induction ys with
  | nil => exact List.pairwise_singleton _ x
  | cons y ys ih =>
    obtain ⟨hy, hys'⟩ := List.pairwise_cons.mp hys
    obtain ⟨hyx, hne'⟩ := List.forall_mem_cons.mp hne
    rw [insertLengthed]
    split
    · next hxy =>
      exact List.pairwise_cons.mpr
        ⟨List.forall_mem_cons.mpr ⟨hxy, fun z hz => lengthedBefore_trans hxy (hy z hz)⟩, hys⟩
    · next hxy =>
      refine List.pairwise_cons.mpr ⟨fun z hz => ?_, ih hys' hne'⟩
      obtain rfl | hz := mem_insertLengthed hz
      · exact lengthedBefore_of_not hxy hyx
      · exact hy z hz

theorem foldr_insertLengthed_sorted {xs : List Lengthed} (h : (xs.map fun x => x.sym).Nodup) :
    (xs.foldr insertLengthed []).Pairwise fun a b => a.before b = true := by
  induction xs with
  | nil => exact .nil
  | cons x xs ih =>
    rw [List.map_cons, List.nodup_cons] at h
    refine insertLengthed_sorted (ih h.2) fun y hy hsym => h.1 (hsym ▸ List.mem_map_of_mem ?_)
    rw [funext₂ insertLengthed_eq_orderedInsert] at hy
    exact (List.mem_insertionSort _).mp hy

theorem codedFrom_range' (len : Nat → Nat) (s m : Nat) :
    codedFrom s ((List.range' s m).map len)
      = ((List.range' s m).filter fun i => 0 < len i).map fun i => ⟨i, len i⟩ := by
  induction m generalizing s with
  | zero => rfl
  | succ m ih =>
    rw [List.range'_succ, List.map_cons, codedFrom, ih, List.filter_cons]
    by_cases h : 0 < len s <;> simp [h]

/-- S of R191 for the lengths `len 0` to `len (n - 1)`. -/
def codedSymbols (n : Nat) (len : Nat → Nat) : List Lengthed := codedSorted ((List.range n).map len)

variable {n : Nat} {len : Nat → Nat}

theorem codedSymbols_perm (n : Nat) (len : Nat → Nat) :
    (codedSymbols n len).Perm (((List.range n).filter fun i => 0 < len i).map fun i => ⟨i, len i⟩) := by
  rw [List.range_eq_range', ← codedFrom_range', ← List.range_eq_range']
  exact codedSorted_perm _

theorem mem_codedSymbols {x : Lengthed} : x ∈ codedSymbols n len ↔ x.sym < n ∧ 0 < len x.sym ∧ x.len = len x.sym := by
  rw [(codedSymbols_perm n len).mem_iff]
  cases x
  simp only [List.mem_map, List.mem_filter, List.mem_range, decide_eq_true_eq, Lengthed.mk.injEq]
  constructor
  · rintro ⟨i, ⟨hi, hpos⟩, rfl, rfl⟩
    exact ⟨hi, hpos, rfl⟩
  · rintro ⟨hi, hpos, rfl⟩
    exact ⟨_, ⟨hi, hpos⟩, rfl, rfl⟩

theorem nodup_codedSymbols_syms (n : Nat) (len : Nat → Nat) : ((codedSymbols n len).map fun x => x.sym).Nodup := by
  rw [((codedSymbols_perm n len).map _).nodup_iff, List.map_map]
  simpa [Function.comp_def] using List.nodup_range.filter _

theorem codedSymbols_sorted (n : Nat) (len : Nat → Nat) :
    (codedSymbols n len).Pairwise fun a b => a.before b = true := by
  refine foldr_insertLengthed_sorted ?_
  rw [← ((codedSorted_perm _).map _).nodup_iff]
  exact nodup_codedSymbols_syms n len

/-! ### The loop of R191 -/

/-- The parts of the 2^15 words of 15 bits that the symbols take together: 2^15 times their Kraft sum. -/
def sharesOf (xs : List Lengthed) : Nat := (xs.map fun x => 2 ^ (15 - x.len)).sum

/-- The code of width `w` whose part begins at `k`. -/
def codeAt (k w : Nat) : CodeEntry := ⟨BitVec.ofNat 15 (k / 2 ^ (15 - w)), BitVec.ofNat 4 w⟩

/-- The codes of the symbols whose parts stand one after another from `k` on. -/
def codesFrom (k : Nat) : List Lengthed → List (Nat × CodeEntry)
  | [] => []
  | x :: xs => (x.sym, codeAt k x.len) :: codesFrom (k + 2 ^ (15 - x.len)) xs

/-- The loop of R191 and its check (R192): from code c of the current width it gives the symbols the parts from c's part
on where these fit, and fails where they do not. -/
theorem assignCodes_eq {xs : List Lengthed} {c width : Nat} (hsorted : xs.Pairwise fun a b => a.before b = true)
    (hwidth : ∀ x ∈ xs, width ≤ x.len) (h15 : ∀ x ∈ xs, x.len ≤ 15) (hw : width ≤ 15) (hc : c ≤ 2 ^ width) :
    assignCodes c width xs = if c * 2 ^ (15 - width) + sharesOf xs ≤ 2 ^ 15
      then .ok (codesFrom (c * 2 ^ (15 - width)) xs) else .error .oversubscribed := by
  induction xs generalizing c width with
  | nil =>
    have hfit : c * 2 ^ (15 - width) ≤ 2 ^ 15 := by
      simpa only [pow_mul_pow_sub 2 hw] using Nat.mul_le_mul_right (2 ^ (15 - width)) hc
    exact (if_pos hfit).symm
  | cons x xs ih =>
    obtain ⟨hfirst, hsorted⟩ := List.pairwise_cons.mp hsorted
    obtain ⟨hx, -⟩ := List.forall_mem_cons.mp hwidth
    obtain ⟨hx15, h15⟩ := List.forall_mem_cons.mp h15
    have hlen : (if width < x.len then x.len else width) = x.len := by split <;> omega
    have hshift : (if width < x.len then c <<< (x.len - width) else c) = c * 2 ^ (x.len - width) := by
      split
      · exact Nat.shiftLeft_eq _ _
      · rw [show x.len - width = 0 by omega, pow_zero, mul_one]
    have hstart : c * 2 ^ (15 - width) = c * 2 ^ (x.len - width) * 2 ^ (15 - x.len) := by
      rw [mul_assoc, ← pow_add, show x.len - width + (15 - x.len) = 15 - width by omega]
    have hshares : sharesOf (x :: xs) = 2 ^ (15 - x.len) + sharesOf xs := rfl
    simp only [assignCodes, hlen, hshift, hstart, hshares, codesFrom]
    generalize c * 2 ^ (x.len - width) = c'
    split
    · next hfull =>
      have hfull15 := Nat.mul_le_mul_right (2 ^ (15 - x.len)) hfull
      rw [pow_mul_pow_sub 2 hx15] at hfull15
      have hpos := Nat.two_pow_pos (15 - x.len)
      exact (if_neg (by omega)).symm
    · next hroom =>
      have hlater : ∀ y ∈ xs, x.len ≤ y.len := fun y hy => by
        have := lengthedBefore_iff.mp (hfirst y hy)
        omega
      have hnext : c'.succ * 2 ^ (15 - x.len) = c' * 2 ^ (15 - x.len) + 2 ^ (15 - x.len) := Nat.succ_mul _ _
      rw [ih hsorted hlater h15 hx15 (Nat.not_le.mp hroom), hnext, ← add_assoc, codeAt,
        Nat.mul_div_cancel _ (Nat.two_pow_pos _)]
      split <;> rfl

/-- A code's part begins where the parts of the symbols before it end. -/
theorem codeIn_codesFrom {xs : List Lengthed} (hsorted : xs.Pairwise fun a b => a.before b = true)
    (hnodup : (xs.map fun x => x.sym).Nodup) {x : Lengthed} (hx : x ∈ xs) (k : Nat) :
    codeIn (codesFrom k xs) x.sym = codeAt (k + sharesOf (xs.filter fun y => y.before x)) x.len := by
  induction xs generalizing k with
  | nil => cases hx
  | cons y ys ih =>
    obtain ⟨hfirst, hsorted⟩ := List.pairwise_cons.mp hsorted
    obtain ⟨hy, hnodup⟩ := List.nodup_cons.mp hnodup
    rw [codesFrom, codeIn]
    obtain rfl | hx := List.mem_cons.mp hx
    · have hnone : (x :: ys).filter (fun y => y.before x) = [] :=
        List.filter_eq_nil_iff.mpr (List.forall_mem_cons.mpr
          ⟨not_lengthedBefore_self x, fun z hz => not_lengthedBefore_of_before (hfirst z hz)⟩)
      rw [if_pos rfl, hnone]
      rfl
    · have hne : y.sym ≠ x.sym := fun hsym => hy (List.mem_map.mpr ⟨x, hx, hsym.symm⟩)
      rw [if_neg hne, ih hsorted hnodup hx, List.filter_cons,
        if_pos (hfirst x hx), add_assoc]
      rfl

theorem codeIn_codesFrom_of_not_mem {xs : List Lengthed} {j : Nat} (h : ∀ x ∈ xs, x.sym ≠ j) (k : Nat) :
    codeIn (codesFrom k xs) j = ⟨0, 0⟩ := by
  induction xs generalizing k with
  | nil => rfl
  | cons x xs ih =>
    obtain ⟨hx, hxs⟩ := List.forall_mem_cons.mp h
    rw [codesFrom, codeIn, if_neg hx, ih hxs]

/-! ### The Kraft sum of the symbols before one (R191) -/

/-- The symbols of R191's order before `j`. -/
def earlier (n : Nat) (len : Nat → Nat) (j : Nat) : Finset Nat :=
  (Finset.range n).filter fun i => 0 < len i ∧ (len i < len j ∨ (len i = len j ∧ i < j))

/-- 2^15 times the Kraft sum of some symbols. -/
def kraftOver (len : Nat → Nat) (A : Finset Nat) : Nat := ∑ i ∈ A, 2 ^ (15 - len i)

theorem mem_earlier {i j : Nat} :
    i ∈ earlier n len j ↔ i < n ∧ 0 < len i ∧ (len i < len j ∨ (len i = len j ∧ i < j)) := by
  simp [earlier]

theorem not_mem_earlier_self (j : Nat) : j ∉ earlier n len j := by simp [mem_earlier]

/-- Where the part of `j` starts: the sum of R191 over the symbols before it. -/
def partStart (n : Nat) (len : Nat → Nat) (j : Nat) : Nat := kraftOver len (earlier n len j)

/-- Where the part of `j` ends. -/
def partEnd (n : Nat) (len : Nat → Nat) (j : Nat) : Nat := kraftOver len (insert j (earlier n len j))

theorem partEnd_eq (n : Nat) (len : Nat → Nat) (j : Nat) : partEnd n len j = partStart n len j + 2 ^ (15 - len j) := by
  rw [partEnd, kraftOver, Finset.sum_insert (not_mem_earlier_self j), add_comm]
  rfl

theorem kraftOver_mono {A B : Finset Nat} (h : A ⊆ B) : kraftOver len A ≤ kraftOver len B :=
  Finset.sum_le_sum_of_subset h

/-- The parts do not overlap. -/
theorem partEnd_le_partStart {i j : Nat} (hij : i ∈ earlier n len j) : partEnd n len i ≤ partStart n len j := by
  refine kraftOver_mono (Finset.insert_subset hij fun m hm => ?_)
  rw [mem_earlier] at hij hm ⊢
  omega

theorem sharesOf_codedSymbols (n : Nat) (len : Nat → Nat) :
    sharesOf (codedSymbols n len) = kraftOver len ((Finset.range n).filter fun i => 0 < len i) := by
  rw [sharesOf, ((codedSymbols_perm n len).map _).sum_eq, List.map_map]
  rfl

theorem sharesOf_before (n j : Nat) (len : Nat → Nat) :
    sharesOf ((codedSymbols n len).filter fun y => y.before ⟨j, len j⟩) = partStart n len j := by
  have hbefore : (List.range n).filter (fun i => (⟨i, len i⟩ : Lengthed).before ⟨j, len j⟩ && decide (0 < len i))
      = (List.range n).filter fun i => 0 < len i ∧ (len i < len j ∨ (len i = len j ∧ i < j)) := by
    refine List.filter_congr fun i _ => ?_
    rw [Bool.eq_iff_iff, Bool.and_eq_true, lengthedBefore_iff, decide_eq_true_iff, decide_eq_true_iff, and_comm]
  rw [sharesOf, (((codedSymbols_perm n len).filter _).map _).sum_eq, List.filter_map, List.filter_filter, List.map_map]
  exact congrArg (fun is => (is.map fun i => 2 ^ (15 - len i)).sum) hbefore

/-- No symbol before `j` has a longer code, so a part starts at a code of its width. -/
theorem dvd_partStart (n j : Nat) (len : Nat → Nat) : 2 ^ (15 - len j) ∣ partStart n len j := by
  rw [partStart, kraftOver]
  refine Finset.dvd_sum fun i hi => pow_dvd_pow 2 ?_
  have := (mem_earlier.mp hi).2.2
  omega

/-! ### CC_BUILD on a length table (R190 to R192) -/

/-- The length a table gives a symbol, as a number. -/
def lenAt (lens : Table (BitVec 4) n) (i : Nat) : Nat := (lens.get 0 i).toNat

/-- The symbols to which a length table gives a code. -/
def coded (lens : Table (BitVec 4) n) : Finset Nat := (Finset.range n).filter fun i => 0 < lenAt lens i

theorem lenAt_le (lens : Table (BitVec 4) n) (i : Nat) : lenAt lens i ≤ 15 := by
  have := (lens.get 0 i).isLt
  rw [lenAt]
  omega

theorem map_toNat_entries (lens : Table (BitVec 4) n) :
    lens.entries.map BitVec.toNat = (List.range n).map (lenAt lens) := by
  refine List.ext_getElem (by simp) fun i hi _ => ?_
  have hi : i < n := by simpa using hi
  simp [lenAt, Table.get, hi]

theorem kraft_entries (lens : Table (BitVec 4) n) : kraft lens.entries = kraftOver (lenAt lens) (coded lens) := by
  calc kraft lens.entries
    _ = ((lens.entries.map BitVec.toNat).map kraftShare).sum := by rw [kraft_eq, List.map_map]; rfl
    _ = ∑ i ∈ Finset.range n, kraftShare (lenAt lens i) := by rw [map_toNat_entries, List.map_map]; rfl
    _ = kraftOver (lenAt lens) (coded lens) := by
      rw [kraftOver, coded, Finset.sum_filter]
      exact Finset.sum_congr rfl fun i _ => by simp [kraftShare, Nat.pos_iff_ne_zero]

/-- The pairs CC_BUILD makes of a length table within the Kraft inequality. -/
def canonicalPairs (lens : Table (BitVec 4) n) : List (Nat × CodeEntry) := codesFrom 0 (codedSymbols n (lenAt lens))

theorem buildPairs_eq (lens : Table (BitVec 4) n) :
    buildPairs (lens.entries.map BitVec.toNat)
      = if kraft lens.entries ≤ 2 ^ 15 then .ok (canonicalPairs lens) else .error .oversubscribed := by
  have h15 : ∀ x ∈ codedSymbols n (lenAt lens), x.len ≤ 15 := fun x hx =>
    (mem_codedSymbols.mp hx).2.2.trans_le (lenAt_le lens _)
  rw [buildPairs, map_toNat_entries]
  refine (assignCodes_eq (codedSymbols_sorted _ _) (fun _ _ => Nat.zero_le _) h15 (Nat.zero_le _)
    (Nat.zero_le _)).trans ?_
  rw [sharesOf_codedSymbols, kraft_entries, zero_mul, zero_add]
  rfl

theorem codeIn_canonicalPairs {lens : Table (BitVec 4) n} {j : Nat} (hj : j < n) (hpos : 0 < lenAt lens j) :
    codeIn (canonicalPairs lens) j = codeAt (partStart n (lenAt lens) j) (lenAt lens j) := by
  have hmem : ⟨j, lenAt lens j⟩ ∈ codedSymbols n (lenAt lens) := mem_codedSymbols.mpr ⟨hj, hpos, rfl⟩
  have hcode := codeIn_codesFrom (codedSymbols_sorted _ _) (nodup_codedSymbols_syms _ _) hmem 0
  rwa [sharesOf_before, zero_add] at hcode

theorem codeIn_canonicalPairs_of_zero {lens : Table (BitVec 4) n} {j : Nat} (h0 : lenAt lens j = 0) :
    codeIn (canonicalPairs lens) j = ⟨0, 0⟩ := by
  refine codeIn_codesFrom_of_not_mem (fun x hx hsym => ?_) 0
  obtain ⟨-, hpos, -⟩ := mem_codedSymbols.mp hx
  rw [hsym, h0] at hpos
  exact Nat.lt_irrefl 0 hpos

theorem insert_earlier_subset_coded {lens : Table (BitVec 4) n} {j : Nat} (hj : j < n) (hpos : 0 < lenAt lens j) :
    insert j (earlier n (lenAt lens) j) ⊆ coded lens := by
  intro i hi
  rw [coded, Finset.mem_filter, Finset.mem_range]
  obtain rfl | hi := Finset.mem_insert.mp hi
  · exact ⟨hj, hpos⟩
  · obtain ⟨hin, hipos, -⟩ := mem_earlier.mp hi
    exact ⟨hin, hipos⟩

/-- The part of a coded symbol ends within the Kraft sum. -/
theorem partEnd_le_kraft {lens : Table (BitVec 4) n} {j : Nat} (hj : j < n) (hpos : 0 < lenAt lens j) :
    partEnd n (lenAt lens) j ≤ kraft lens.entries := by
  rw [kraft_entries]
  exact kraftOver_mono (insert_earlier_subset_coded hj hpos)

theorem canonicalCodes_canonicalPairs {lens : Table (BitVec 4) n} (hkraft : kraft lens.entries ≤ 2 ^ 15) :
    canonicalCodes lens (.build n (codeIn (canonicalPairs lens))) := by
  intro j hj
  rw [Table.get_build _ _ hj]
  refine ⟨codeIn_canonicalPairs_of_zero, fun hpos => ?_⟩
  rw [codeIn_canonicalPairs hj hpos]
  refine ⟨BitVec.ofNat_toNat .., ?_⟩
  have hend := (partEnd_le_kraft hj hpos).trans hkraft
  have hshare := Nat.two_pow_pos (15 - lenAt lens j)
  rw [partEnd_eq] at hend
  have hfit : partStart n (lenAt lens) j / 2 ^ (15 - lenAt lens j) < 2 ^ 15 := (Nat.div_le_self _ _).trans_lt (by omega)
  calc (codeAt (partStart n (lenAt lens) j) (lenAt lens j)).code.toNat * 2 ^ (15 - lenAt lens j)
    _ = partStart n (lenAt lens) j / 2 ^ (15 - lenAt lens j) * 2 ^ (15 - lenAt lens j) := by
      rw [codeAt, BitVec.toNat_ofNat, Nat.mod_eq_of_lt hfit]
    _ = partStart n (lenAt lens) j := Nat.div_mul_cancel (dvd_partStart n j _)

/-- The codes made of a length table within the Kraft inequality are its canonical ones (R191). -/
theorem builtCodes_canonical {t : TableSel} {lens : Table (BitVec 4) t.size} (hkraft : kraft lens.entries ≤ 2 ^ 15) :
    ∃ codes, builtCodes t lens = .ok codes ∧ canonicalCodes lens codes :=
  ⟨_, map_eq_ok.mpr ⟨_, (buildPairs_eq lens).trans (if_pos hkraft), rfl⟩, canonicalCodes_canonicalPairs hkraft⟩

/-- CC_BUILD on a length table within the Kraft inequality (R190). -/
theorem exec_ccBuild_canonical {s : State} {t : TableSel} (hkraft : kraft (s.data.lenOf t).entries ≤ 2 ^ 15) :
    ∃ codes, exec (.ccBuild t) s = .next (s.completed { s.data.setCode t codes with
        result0 := BitVec.ofNat 32 ((s.data.lenOf t).entries.countP fun l => l ≠ 0) })
      ∧ canonicalCodes (s.data.lenOf t) codes := by
  obtain ⟨codes, hbuilt, hcan⟩ := builtCodes_canonical hkraft
  obtain ⟨pairs, hpairs, rfl⟩ := map_eq_ok.mp hbuilt
  have hcount : (((s.data.lenOf t).entries.map BitVec.toNat).filter fun l => 0 < l).length
      = (s.data.lenOf t).entries.countP fun l => l ≠ 0 := by
    rw [← List.countP_eq_length_filter, List.countP_map]
    exact List.countP_congr fun l _ => by simp [Nat.pos_iff_ne_zero, BitVec.toNat_eq]
  refine ⟨_, exec_of_op_ok nofun (bind_eq_ok.mpr ⟨pairs, hpairs, ?_⟩), hcan⟩
  rw [hcount]
  rfl

/-- Settles O47: past 2^15 the loop's check of R192 fails at a symbol whose part does not fit. -/
theorem ccBuildFaultsWhenOversubscribed : Obligations.CcBuildFaultsWhenOversubscribed := by
  intro s t hkraft
  have hpairs := (buildPairs_eq (s.data.lenOf t)).trans (if_neg (Nat.not_le.mpr hkraft))
  refine exec_of_op_error nofun ?_
  rw [Instr.op, ccBuildOp, hpairs]
  rfl

/-! ### What canonical codes are (R193) -/

section
variable {lens : Table (BitVec 4) n} {codes : Table CodeEntry n} (hcan : canonicalCodes lens codes) {i j : Nat}
include hcan

theorem canonical_width (hj : j < n) : (codes.get ⟨0, 0⟩ j).width = lens.get 0 j := by
  obtain ⟨hzero, hcode⟩ := hcan j hj
  rcases Nat.eq_zero_or_pos (lens.get 0 j).toNat with h0 | hpos
  · rw [hzero h0]
    exact (BitVec.eq_of_toNat_eq h0).symm
  · exact (hcode hpos).1

theorem canonical_width_toNat (hj : j < n) : (codes.get ⟨0, 0⟩ j).width.toNat = lenAt lens j := by
  rw [canonical_width hcan hj, lenAt]

theorem lenAt_pos_of_width (hj : j < n) (hw : (codes.get ⟨0, 0⟩ j).width ≠ 0) : 0 < lenAt lens j := by
  rw [← canonical_width_toNat hcan hj]
  exact Nat.pos_of_ne_zero fun h => hw (BitVec.eq_of_toNat_eq h)

/-- A code is, in words of 15 bits, the start of its symbol's part. -/
theorem canonical_code (hj : j < n) (hpos : 0 < lenAt lens j) :
    (codes.get ⟨0, 0⟩ j).code.toNat * 2 ^ (15 - lenAt lens j) = partStart n (lenAt lens) j :=
  ((hcan j hj).2 hpos).2

/-- One more than a code is, in words of 15 bits, the end of its symbol's part. -/
theorem canonical_code_succ (hj : j < n) (hpos : 0 < lenAt lens j) :
    ((codes.get ⟨0, 0⟩ j).code.toNat + 1) * 2 ^ (15 - lenAt lens j)
      = partEnd n (lenAt lens) j := by
  rw [partEnd_eq, ← canonical_code hcan hj hpos, Nat.succ_mul]

theorem canonical_inRange (hkraft : kraft lens.entries ≤ 2 ^ 15) (hj : j < n) : (codes.get ⟨0, 0⟩ j).inRange := by
  rcases Nat.eq_zero_or_pos (lenAt lens j) with h0 | hpos
  · rw [(hcan j hj).1 h0]
    exact Nat.zero_lt_one
  · have hend := (partEnd_le_kraft hj hpos).trans hkraft
    rw [← canonical_code_succ hcan hj hpos, ← pow_mul_pow_sub 2 (lenAt_le lens j)] at hend
    rw [CodeEntry.inRange, canonical_width_toNat hcan hj]
    exact Nat.le_of_mul_le_mul_right hend (Nat.two_pow_pos _)

/-- A code is below the leading bits of every code after it. -/
theorem canonical_code_lt (hj : j < n) (hij : i ∈ earlier n (lenAt lens) j) :
    (codes.get ⟨0, 0⟩ i).code.toNat < (codes.get ⟨0, 0⟩ j).code.toNat >>> (lenAt lens j - lenAt lens i) := by
  obtain ⟨hi, hpos, hord⟩ := mem_earlier.mp hij
  have hle : lenAt lens i ≤ lenAt lens j := by omega
  have hparts := partEnd_le_partStart hij
  have hscale : 15 - lenAt lens i = lenAt lens j - lenAt lens i + (15 - lenAt lens j) := by
    have := lenAt_le lens j
    omega
  rw [← canonical_code_succ hcan hi hpos, ← canonical_code hcan hj (hpos.trans_le hle), hscale, pow_add,
    ← mul_assoc] at hparts
  rw [Nat.shiftRight_eq_div_pow]
  exact (Nat.le_div_iff_mul_le (Nat.two_pow_pos _)).mpr (Nat.le_of_mul_le_mul_right hparts (Nat.two_pow_pos _))

/-- Codes of one length are consecutive in symbol order (R193). -/
theorem canonical_code_consecutive (hj : j < n) (hpos : 0 < lenAt lens j) (hij : i < j)
    (hlen : lenAt lens i = lenAt lens j)
    (hnone : ∀ m, i < m → m < j → lenAt lens m ≠ lenAt lens j) :
    (codes.get ⟨0, 0⟩ j).code.toNat = (codes.get ⟨0, 0⟩ i).code.toNat + 1 := by
  have hparts : insert i (earlier n (lenAt lens) i) = earlier n (lenAt lens) j := by
    ext m
    have := hnone m
    rw [Finset.mem_insert, mem_earlier, mem_earlier]
    by_cases hm : m = i
    · subst hm
      omega
    · omega
  have hcode : _ = partStart n (lenAt lens) j :=
    (canonical_code_succ hcan (hij.trans hj) (hlen ▸ hpos)).trans (congrArg (kraftOver (lenAt lens)) hparts)
  rw [← canonical_code hcan hj hpos, hlen] at hcode
  exact (Nat.eq_of_mul_eq_mul_right (Nat.two_pow_pos _) hcode).symm

/-- With the Kraft equality the last symbol of R191's order has the all-ones code (R193). -/
theorem canonical_code_last (hj : j < n) (hpos : 0 < lenAt lens j) (hkraft : kraft lens.entries = 2 ^ 15)
    (hlast : ∀ m, m < n → lenAt lens m < lenAt lens j ∨ (lenAt lens m = lenAt lens j ∧ m ≤ j)) :
    (codes.get ⟨0, 0⟩ j).code.toNat = 2 ^ lenAt lens j - 1 := by
  have hparts : insert j (earlier n (lenAt lens) j) = coded lens := by
    refine (insert_earlier_subset_coded hj hpos).antisymm fun m hm => ?_
    obtain ⟨hmn, hmpos⟩ := Finset.mem_filter.mp hm
    have hmlast := hlast m (Finset.mem_range.mp hmn)
    rw [Finset.mem_insert, mem_earlier]
    have := Finset.mem_range.mp hmn
    omega
  have hcode := (canonical_code_succ hcan hj hpos).trans (congrArg (kraftOver (lenAt lens)) hparts)
  rw [← kraft_entries, hkraft, ← pow_mul_pow_sub 2 (lenAt_le lens j)] at hcode
  exact Nat.eq_sub_of_add_eq (Nat.eq_of_mul_eq_mul_right (Nat.two_pow_pos _) hcode)

end

/-- A code whose bits begin those of another is the other's leading bits (R220). -/
theorem code_eq_shiftRight_of_prefix {a b : CodeEntry} (ha : a.inRange) (hb : b.inRange)
    (h : codeBits a <+: codeBits b) :
    a.width.toNat ≤ b.width.toNat ∧ a.code.toNat = b.code.toNat >>> (b.width.toNat - a.width.toNat) := by
  have hle : a.width.toNat ≤ b.width.toNat := by simpa using h.length_le
  refine ⟨hle, Nat.eq_of_testBit_eq fun k => ?_⟩
  rw [Nat.testBit_shiftRight]
  by_cases hk : k < a.width.toNat
  · have hbit := h.getElem (i := a.width.toNat - 1 - k) (by simp; omega)
    simp only [codeBits, List.getElem_map, List.getElem_range] at hbit
    rwa [show a.width.toNat - 1 - (a.width.toNat - 1 - k) = k by omega,
      show b.width.toNat - 1 - (a.width.toNat - 1 - k) = b.width.toNat - a.width.toNat + k by omega] at hbit
  · rw [Nat.testBit_lt_two_pow (ha.trans_le (Nat.pow_le_pow_right Nat.two_pos (by omega))),
      Nat.testBit_lt_two_pow (hb.trans_le (Nat.pow_le_pow_right Nat.two_pos (by omega)))]

/-- R193: of two symbols with canonical codes, the earlier one's code is not the leading bits of the later one's, as
its part has ended where the later one's starts. -/
theorem prefixFree_of_canonical {lens : Table (BitVec 4) n} {codes : Table CodeEntry n}
    (hcan : canonicalCodes lens codes) (hkraft : kraft lens.entries ≤ 2 ^ 15) : prefixFree codes := by
  intro i j hi hj hne hwi hwj hprefix
  obtain ⟨hle, hcode⟩ :=
    code_eq_shiftRight_of_prefix (canonical_inRange hcan hkraft hi) (canonical_inRange hcan hkraft hj) hprefix
  rw [canonical_width_toNat hcan hi, canonical_width_toNat hcan hj] at hle hcode
  have hposi := lenAt_pos_of_width hcan hi hwi
  have hposj := lenAt_pos_of_width hcan hj hwj
  by_cases hij : lenAt lens i < lenAt lens j ∨ i < j
  · exact (canonical_code_lt hcan hj (mem_earlier.mpr ⟨hi, hposi, by omega⟩)).ne hcode
  · have hsame : lenAt lens i = lenAt lens j := by omega
    have hlt := canonical_code_lt hcan hi (mem_earlier.mpr ⟨hj, hposj, .inr ⟨hsame.symm, by omega⟩⟩)
    rw [hsame, Nat.sub_self] at hlt hcode
    exact hlt.ne' hcode

/-- Settles O45: the codes are the canonical ones, whose parts do not overlap. -/
theorem ccBuildGivesPrefixFreeCodes : Obligations.CcBuildGivesPrefixFreeCodes := by
  intro s t hkraft
  obtain ⟨codes, hexec, hcan⟩ := exec_ccBuild_canonical hkraft
  exact ⟨codes, hexec, fun i hi => ⟨canonical_width hcan hi, canonical_inRange hcan hkraft hi⟩,
    prefixFree_of_canonical hcan hkraft⟩

/-- Settles O46: CC_BUILD gives the canonical codes, and R193's properties follow from where their parts begin. -/
theorem ccBuildCodesAreCanonical : Obligations.CcBuildCodesAreCanonical := by
  intro s t hkraft
  obtain ⟨codes, hexec, hcan⟩ := exec_ccBuild_canonical hkraft
  exact ⟨codes, hexec, hcan, fun j hj hpos => ⟨fun i => canonical_code_consecutive hcan hj hpos,
    fun i hi hposi hlt => canonical_code_lt hcan hj (mem_earlier.mpr ⟨hi, hposi, .inl hlt⟩),
    canonical_code_last hcan hj hpos⟩⟩

end Sys2Proof.Machine
end

section
/-! PROOFS. Decoding a block's body (R193, R221, R237): a code is known from the bits that begin with it, its code
symbol and its extra bits name one length or distance (R96, R97), and so the bits of one symbol determine it and what
follows. -/

namespace Sys2Proof.Machine

/-! ### Splitting off a code (R193) and an extra field (R221) -/

theorem codeBits_append_inj {n : Nat} {t : Table CodeEntry n} (ht : prefixFree t) {i j : Nat} (hi : i < n) (hj : j < n)
    (hwi : (t.get ⟨0, 0⟩ i).width ≠ 0) (hwj : (t.get ⟨0, 0⟩ j).width ≠ 0) {bs cs : List Bool}
    (h : codeBits (t.get ⟨0, 0⟩ i) ++ bs = codeBits (t.get ⟨0, 0⟩ j) ++ cs) : i = j ∧ bs = cs := by
  have hij : i = j := by
    by_contra hne
    rcases List.prefix_or_prefix_of_prefix (List.prefix_append _ bs) (h ▸ List.prefix_append _ cs) with hp | hp
    · exact ht i j hi hj hne hwi hwj hp
    · exact ht j i hj hi (Ne.symm hne) hwj hwi hp
  subst hij
  exact ⟨rfl, List.append_cancel_left h⟩

theorem numBits_inj {n v w : Nat} (hv : v < 2 ^ n) (hw : w < 2 ^ n) (h : numBits v n = numBits w n) : v = w := by
  refine Nat.eq_of_testBit_eq fun k => ?_
  by_cases hk : k < n
  · exact List.map_inj_left.mp h k (List.mem_range.mpr hk)
  · have hn : 2 ^ n ≤ 2 ^ k := Nat.pow_le_pow_right Nat.two_pos (Nat.not_lt.mp hk)
    rw [Nat.testBit_lt_two_pow (hv.trans_le hn), Nat.testBit_lt_two_pow (hw.trans_le hn)]

/-! ### Lengths and distances by their rows (R96, R97) -/

/-- The code of a value is that of a row that begins at or below it, with the value's offset in the row. -/
def codedByRow (rows : List CodeRow) (code : Nat → Except FaultKind ExtraCode) (v : Nat) : Prop :=
  ∃ r ∈ rows, r.first ≤ v ∧ code v = .ok ⟨r.symbol, r.extra, v - r.first⟩ ∧ v - r.first < 2 ^ r.extra

/-- Rows that follow one another leave no value between the first and the last out. -/
theorem exists_row {rows : List CodeRow} {q : CodeRow} (hchain : (q :: rows).IsChain fun a b => b.first = a.last + 1)
    {v : Nat} (hlo : q.last < v) (hhi : ∃ r ∈ rows, v ≤ r.last) : ∃ r ∈ rows, r.first ≤ v ∧ v ≤ r.last := by
  induction rows generalizing q with
  | nil => simp at hhi
  | cons r rows ih =>
    obtain ⟨hnext, hchain⟩ := List.isChain_cons_cons.mp hchain
    by_cases hv : v ≤ r.last
    · exact ⟨r, List.mem_cons_self, by omega, hv⟩
    · obtain ⟨p, hp, hvp⟩ := hhi
      obtain rfl | hp := List.mem_cons.mp hp
      · exact absurd hvp hv
      · obtain ⟨r', hr', hrow⟩ := ih hchain (Nat.not_le.mp hv) ⟨p, hp, hvp⟩
        exact ⟨r', List.mem_cons_of_mem r hr', hrow⟩

theorem codedByRow_lcode {l : Nat} (h3 : 3 ≤ l) (h258 : l ≤ 258) : codedByRow lengthRows lcode l := by
  obtain ⟨r, hr, hlo, hhi⟩ := exists_row (q := ⟨0, 0, 0, 2⟩) (by decide) h3
    ⟨⟨285, 0, 258, 258⟩, (by decide : _ ∈ lengthRows), h258⟩
  obtain ⟨e, he, -, -, -, hxv⟩ := lcode_ok h3 h258
  rw [lcode_row hr hlo hhi] at he
  cases he
  exact ⟨r, hr, hlo, lcode_row hr hlo hhi, hxv⟩

theorem codedByRow_dcode {dist : Nat} (h1 : 1 ≤ dist) (hmax : dist ≤ 32768) : codedByRow distanceRows dcode dist := by
  obtain ⟨r, hr, hlo, hhi⟩ := exists_row (q := ⟨0, 0, 0, 0⟩) (by decide) h1
    ⟨⟨29, 13, 24577, 32768⟩, (by decide : _ ∈ distanceRows), hmax⟩
  obtain ⟨e, he, -, -, hxv⟩ := dcode_ok h1 hmax
  rw [dcode_row hr hlo hhi] at he
  cases he
  exact ⟨r, hr, hlo, dcode_row hr hlo hhi, hxv⟩

/-- The code symbol and the extra bits determine the value, and what follows the extra bits. -/
theorem extraBits_append_inj {rows : List CodeRow} (hrows : (rows.map fun r => r.symbol).Nodup)
    {code : Nat → Except FaultKind ExtraCode} {v w : Nat} (hv : codedByRow rows code v) (hw : codedByRow rows code w)
    (hsym : (code v).toOption.map (fun e => e.symbol) = (code w).toOption.map fun e => e.symbol)
    {bs cs : List Bool} (h : extraBits (code v) ++ bs = extraBits (code w) ++ cs) : v = w ∧ bs = cs := by
  obtain ⟨r, hr, hrv, hcv, hxv⟩ := hv
  obtain ⟨q, hq, hqw, hcw, hxw⟩ := hw
  rw [hcv, hcw] at h hsym
  have hrq : r = q := List.inj_on_of_nodup_map hrows hr hq (Option.some.inj hsym)
  subst hrq
  obtain ⟨hbits, htail⟩ := List.append_inj h (by simp [extraBits])
  have hoff := numBits_inj hxv hxw hbits
  exact ⟨by omega, htail⟩

/-! ### One symbol (R221) -/

/-- The bits of a symbol after its LL code (R221). -/
def bitsAfterLL (d : Data) : Symbol → List Bool
  | .literal _ => []
  | .endOfBlock => []
  | .reference l dist => extraBits (lcode l) ++ (codeBits (codeFor d.codeD (dcode dist)) ++ extraBits (dcode dist))

theorem symbolBits_split {d : Data} {x : Symbol} (hr : x.inRange) (hc : hasCodes d x) :
    ∃ i, llSymbol x = some i ∧ i < Config.nLL ∧ (d.codeLL.get ⟨0, 0⟩ i).width ≠ 0
      ∧ symbolBits d x = codeBits (d.codeLL.get ⟨0, 0⟩ i) ++ bitsAfterLL d x := by
  cases x with
  | literal b => exact ⟨_, rfl, b.isLt.trans (by decide), hc, (List.append_nil _).symm⟩
  | endOfBlock => exact ⟨256, rfl, by decide, hc, (List.append_nil _).symm⟩
  | reference l dist =>
    obtain ⟨h3, h258, -, -⟩ := hr
    obtain ⟨e, he, -, hsym, -⟩ := lcode_ok h3 h258
    obtain ⟨hcl, -⟩ := hc
    rw [he, codeFor] at hcl
    refine ⟨e.symbol, by rw [llSymbol, he]; rfl, Nat.lt_succ_of_le hsym, hcl, ?_⟩
    simp only [symbolBits, bitsAfterLL, he, codeFor, List.append_assoc]

/-- The bits of a distance determine it, and what follows. -/
theorem distanceBits_append_inj {t : Table CodeEntry Config.nD} (ht : prefixFree t) {v w : Nat}
    (hv : 1 ≤ v ∧ v ≤ 32768) (hw : 1 ≤ w ∧ w ≤ 32768) (hcv : (codeFor t (dcode v)).width ≠ 0)
    (hcw : (codeFor t (dcode w)).width ≠ 0) {bs cs : List Bool}
    (h : codeBits (codeFor t (dcode v)) ++ (extraBits (dcode v) ++ bs)
      = codeBits (codeFor t (dcode w)) ++ (extraBits (dcode w) ++ cs)) : v = w ∧ bs = cs := by
  obtain ⟨e, he, hesym, -⟩ := dcode_ok hv.1 hv.2
  obtain ⟨f, hf, hfsym, -⟩ := dcode_ok hw.1 hw.2
  have hsplit : e.symbol = f.symbol ∧ extraBits (dcode v) ++ bs = extraBits (dcode w) ++ cs := by
    simp only [he, hf, codeFor] at hcv hcw h ⊢
    exact codeBits_append_inj ht (Nat.lt_succ_of_le hesym) (Nat.lt_succ_of_le hfsym) hcv hcw h
  obtain ⟨hsym, hextra⟩ := hsplit
  have hsymbols : (dcode v).toOption.map (fun e => e.symbol) = (dcode w).toOption.map fun e => e.symbol := by
    rw [he, hf]
    exact congrArg some hsym
  exact extraBits_append_inj (rows := distanceRows) (by decide) (codedByRow_dcode hv.1 hv.2)
    (codedByRow_dcode hw.1 hw.2) hsymbols hextra

theorem llSymbol_reference {l dist : Nat} (hr : (Symbol.reference l dist).inRange) :
    ∃ i, llSymbol (.reference l dist) = some i ∧ 256 < i := by
  obtain ⟨h3, h258, -, -⟩ := hr
  obtain ⟨e, he, hlo, -⟩ := lcode_ok h3 h258
  exact ⟨e.symbol, by rw [llSymbol, he]; rfl, hlo⟩

/-- Symbols of one LL code symbol differ, if at all, in the bits after it. -/
theorem symbol_eq_of_llSymbol_eq {d : Data} (hD : prefixFree d.codeD) {x y : Symbol} (hx : x.inRange ∧ hasCodes d x)
    (hy : y.inRange ∧ hasCodes d y) (hsym : llSymbol x = llSymbol y) {bs cs : List Bool}
    (h : bitsAfterLL d x ++ bs = bitsAfterLL d y ++ cs) : x = y ∧ bs = cs := by
  have hliteral : ∀ b : Byte, b.toNat < 256 := fun b => b.isLt
  cases x with
  | literal b =>
    cases y with
    | literal c => exact ⟨congrArg _ (BitVec.eq_of_toNat_eq (Option.some.inj hsym)), h⟩
    | endOfBlock => exact absurd (Option.some.inj hsym) (hliteral b).ne
    | reference l dist =>
      obtain ⟨i, hi, hlo⟩ := llSymbol_reference hy.1
      exact absurd (Option.some.inj (hsym.trans hi)) ((hliteral b).trans hlo).ne
  | endOfBlock =>
    cases y with
    | literal c => exact absurd (Option.some.inj hsym) (hliteral c).ne'
    | endOfBlock => exact ⟨rfl, h⟩
    | reference l dist =>
      obtain ⟨i, hi, hlo⟩ := llSymbol_reference hy.1
      exact absurd (Option.some.inj (hsym.trans hi)) hlo.ne
  | reference l dist =>
    obtain ⟨i, hi, hlo⟩ := llSymbol_reference hx.1
    obtain ⟨⟨hl3, hl258, hdist⟩, -, hcd⟩ := hx
    cases y with
    | literal c => exact absurd (Option.some.inj (hi.symm.trans hsym)) ((hliteral c).trans hlo).ne'
    | endOfBlock => exact absurd (Option.some.inj (hi.symm.trans hsym)) hlo.ne'
    | reference l' dist' =>
      obtain ⟨⟨hl3', hl258', hdist'⟩, -, hcd'⟩ := hy
      simp only [bitsAfterLL, List.append_assoc] at h
      obtain ⟨rfl, hrest⟩ := extraBits_append_inj (rows := lengthRows) (by decide) (codedByRow_lcode hl3 hl258)
        (codedByRow_lcode hl3' hl258') hsym h
      obtain ⟨rfl, htail⟩ := distanceBits_append_inj hD hdist hdist' hcd hcd' hrest
      exact ⟨rfl, htail⟩

/-- The bits of a symbol determine it, and what follows. -/
theorem symbolBits_append_inj {d : Data} (hLL : prefixFree d.codeLL) (hD : prefixFree d.codeD) {x y : Symbol}
    (hx : x.inRange ∧ hasCodes d x) (hy : y.inRange ∧ hasCodes d y) {bs cs : List Bool}
    (h : symbolBits d x ++ bs = symbolBits d y ++ cs) : x = y ∧ bs = cs := by
  obtain ⟨i, hix, hi, hwi, hbx⟩ := symbolBits_split hx.1 hx.2
  obtain ⟨j, hjy, hj, hwj, hby⟩ := symbolBits_split hy.1 hy.2
  rw [hbx, hby, List.append_assoc, List.append_assoc] at h
  obtain ⟨rfl, hrest⟩ := codeBits_append_inj hLL hi hj hwi hwj h
  exact symbol_eq_of_llSymbol_eq hD hx hy (hix.trans hjy.symm) hrest

/-! ### A block's body (R227) -/

/-- Settles O57: symbol by symbol, and EndOfBlock is the symbol at which both sequences end. -/
theorem blockBodiesDecodeUniquely : Obligations.BlockBodiesDecodeUniquely := by
  intro d xs ys r r' hLL hD hxs hys hend h
  have hend : Symbol.endOfBlock.inRange ∧ hasCodes d .endOfBlock := ⟨trivial, hend⟩
  rw [List.append_assoc, List.append_assoc] at h
  induction xs generalizing ys with
  | nil =>
    cases ys with
    | nil => exact ⟨rfl, (symbolBits_append_inj hLL hD hend hend h).2⟩
    | cons y ys =>
      obtain ⟨hne, hy⟩ := hys y List.mem_cons_self
      rw [List.flatMap_cons, List.append_assoc] at h
      exact absurd (symbolBits_append_inj hLL hD hend hy h).1.symm hne
  | cons x xs ih =>
    obtain ⟨⟨hne, hx⟩, hxs⟩ := List.forall_mem_cons.mp hxs
    rw [List.flatMap_cons, List.append_assoc] at h
    cases ys with
    | nil => exact absurd (symbolBits_append_inj hLL hD hx hend h).1 hne
    | cons y ys =>
      obtain ⟨⟨-, hy⟩, hys'⟩ := List.forall_mem_cons.mp hys
      rw [List.flatMap_cons, List.append_assoc] at h
      obtain ⟨rfl, hrest⟩ := symbolBits_append_inj hLL hD hx hy h
      obtain ⟨rfl, hr⟩ := ih ys hxs hys' hrest
      exact ⟨rfl, hr⟩

end Sys2Proof.Machine
end

section
/-! PROOFS. The code-length-table encoder (R200 to R206). FREQ_CL counts the entries of CLSQ by their meta-symbol. A
sequence splits into its runs wherever two neighbours differ, so `rle` works run by run; the runs spelled out are the
sequence, and `unrle` reads the entries of each run back as that run. -/

namespace Sys2Proof.Machine

/-! ### The counts (R203) -/

/-- Counting entries adds to each count the number of entries with its meta-symbol. -/
theorem get_foldl_bump {i : Nat} (hi : i < Config.nCL) (es : List ClsEntry) (t : Table Word Config.nCL) :
    (es.foldl (fun u e => u.bump e.sym.val) t).get 0 i
      = t.get 0 i + BitVec.ofNat 32 (es.countP fun e => e.sym.val = i) := by
  induction es generalizing t with
  | nil => exact (BitVec.add_zero _).symm
  | cons e es ih =>
    have hbump : (t.bump e.sym.val).get 0 i = t.get 0 i + if e.sym.val = i then 1 else 0 := by
      simpa [bumpNamed] using get_bumpNamed t (some e.sym.val) hi
    rw [List.foldl_cons, ih, hbump, List.countP_cons, Nat.add_comm, BitVec.ofNat_add, BitVec.add_assoc]
    by_cases he : e.sym.val = i <;> simp [he]

theorem toNat_get_countCls {i : Nat} (hi : i < Config.nCL) {es : List ClsEntry} (hlen : es.length < 2 ^ 32) :
    ((countCls es).get 0 i).toNat = es.countP fun e => e.sym.val = i := by
  rw [countCls, get_foldl_bump hi, Table.get_fill _ _ hi, zero_add, BitVec.toNat_ofNat]
  exact Nat.mod_eq_of_lt (Nat.lt_of_le_of_lt List.countP_le_length hlen)

/-- Settles O48: the queue has at most one entry per length, 286 + 30 of them, so no count reaches 2^32. -/
theorem ctRleEncodesTheLengths : Obligations.CtRleEncodesTheLengths := by
  intro s
  obtain ⟨hlen, hrange⟩ :=
    clsBounded_append (clsBounded_rle s.data.lenLL.entries) (clsBounded_rle s.data.lenD.entries)
  rw [s.data.lenLL.size, s.data.lenD.size] at hlen
  exact ⟨_, exec_of_op_ok nofun rfl, fun i hi => toNat_get_countCls hi (hlen.trans_lt (by decide)), hlen, hrange⟩

/-! ### The runs of a sequence (R201) -/

theorem runsOf_cons_of_nil {v : BitVec 4} {vs : List (BitVec 4)} (h : runsOf vs = []) :
    runsOf (v :: vs) = [(v, 1)] := by
  rw [runsOf, h]

theorem runsOf_cons_of_eq {v : BitVec 4} {vs : List (BitVec 4)} {r : Nat} {more : List (BitVec 4 × Nat)}
    (h : runsOf vs = (v, r) :: more) : runsOf (v :: vs) = (v, r + 1) :: more := by
  rw [runsOf, h]
  exact if_pos rfl

theorem runsOf_cons_of_ne {u v : BitVec 4} {vs : List (BitVec 4)} {r : Nat} {more : List (BitVec 4 × Nat)}
    (h : runsOf vs = (u, r) :: more) (hne : v ≠ u) : runsOf (v :: vs) = (v, 1) :: runsOf vs := by
  rw [runsOf, h]
  exact if_neg hne

/-- The first run of a sequence is of its first value. -/
theorem runsOf_cons (v : BitVec 4) (vs : List (BitVec 4)) : ∃ r more, runsOf (v :: vs) = (v, r) :: more := by
  cases hruns : runsOf vs with
  | nil => exact ⟨1, [], runsOf_cons_of_nil hruns⟩
  | cons run more =>
    obtain ⟨u, r⟩ := run
    by_cases hv : v = u
    · subst hv
      exact ⟨r + 1, more, runsOf_cons_of_eq hruns⟩
    · exact ⟨1, _, runsOf_cons_of_ne hruns hv⟩

/-- A value that differs from the one after it is a run of its own. -/
theorem runsOf_cons_of_head?_ne {v : BitVec 4} {vs : List (BitVec 4)} (h : vs.head? ≠ some v) :
    runsOf (v :: vs) = (v, 1) :: runsOf vs := by
  cases vs with
  | nil => rfl
  | cons u us =>
    obtain ⟨r, more, hruns⟩ := runsOf_cons u us
    exact runsOf_cons_of_ne hruns fun hv => h (congrArg some hv.symm)

/-- Where the values on both sides differ, no run crosses. -/
theorem runsOf_append {xs ys : List (BitVec 4)} (h : ∀ v, xs.getLast? = some v → ys.head? ≠ some v) :
    runsOf (xs ++ ys) = runsOf xs ++ runsOf ys := by
  induction xs with
  | nil => rfl
  | cons x xs ih =>
    cases xs with
    | nil => exact runsOf_cons_of_head?_ne (h x rfl)
    | cons u us =>
      have ih := ih fun v hv => h v (List.getLast?_cons_cons.trans hv)
      by_cases hx : x = u
      · subst hx
        obtain ⟨r, more, hruns⟩ := runsOf_cons x us
        rw [hruns] at ih
        rw [runsOf_cons_of_eq hruns]
        exact runsOf_cons_of_eq ih
      · have hne : ∀ vs, (u :: vs).head? ≠ some x := fun _ hu => hx (Option.some.inj hu).symm
        calc runsOf (x :: u :: (us ++ ys)) = (x, 1) :: runsOf (u :: us ++ ys) := runsOf_cons_of_head?_ne (hne _)
          _ = ((x, 1) :: runsOf (u :: us)) ++ runsOf ys := congrArg _ ih
          _ = runsOf (x :: u :: us) ++ runsOf ys := by rw [runsOf_cons_of_head?_ne (hne us)]

theorem runsOf_replicate (v : BitVec 4) (r : Nat) : runsOf (List.replicate (r + 1) v) = [(v, r + 1)] := by
  induction r with
  | zero => rfl
  | succ r ih => exact runsOf_cons_of_eq ih

/-- The runs spelled out are the sequence. -/
theorem flatMap_replicate_runsOf (lens : List (BitVec 4)) :
    ((runsOf lens).flatMap fun run => List.replicate run.2 run.1) = lens := by
  induction lens with
  | nil => rfl
  | cons v vs ih =>
    cases hruns : runsOf vs with
    | nil =>
      rw [hruns] at ih
      rw [runsOf_cons_of_nil hruns, ← ih]
      rfl
    | cons run more =>
      obtain ⟨u, r⟩ := run
      rw [hruns] at ih
      by_cases hv : v = u
      · subst hv
        rw [runsOf_cons_of_eq hruns, ← ih]
        rfl
      · rw [runsOf_cons_of_ne hruns hv, hruns]
        exact congrArg (v :: ·) ih

theorem rle_append {xs ys : List (BitVec 4)} (h : ∀ v, xs.getLast? = some v → ys.head? ≠ some v) :
    rle (xs ++ ys) = rle xs ++ rle ys := by
  rw [rle, runsOf_append h, List.flatMap_append]
  rfl

theorem rle_replicate (v : BitVec 4) (r : Nat) : rle (List.replicate (r + 1) v) = runEntries (v, r + 1) := by
  rw [rle, runsOf_replicate, List.flatMap_singleton]

/-- The entries of a run do not depend on what stands around it. -/
theorem rle_around_run {xs ys : List (BitVec 4)} {v : BitVec 4} {r : Nat} (hr : 1 ≤ r) (hxs : xs.getLast? ≠ some v)
    (hys : ys.head? ≠ some v) :
    rle (xs ++ List.replicate r v ++ ys) = rle xs ++ rle (List.replicate r v) ++ rle ys := by
  have hr : r ≠ 0 := Nat.ne_of_gt hr
  have hfirst : (List.replicate r v).head? = some v := by rw [List.head?_replicate, if_neg hr]
  have hlast : (xs ++ List.replicate r v).getLast? = some v := by
    rw [List.getLast?_append, List.getLast?_replicate, if_neg hr, Option.some_or]
  rw [rle_append fun u hu => Option.some.inj (hlast.symm.trans hu) ▸ hys,
    rle_append fun u hu hv => hxs (Option.some.inj (hfirst.symm.trans hv) ▸ hu)]

/-! ### The entries of a run (R202) -/

theorem clsLiteral_eq (v : BitVec 4) : clsLiteral v = ⟨Fin.ofNat 19 v.toNat, 0, 0⟩ := by
  have hv : v.toNat < 19 := v.isLt.trans (by decide)
  rw [clsLiteral, ClsEntry.mk.injEq]
  exact ⟨Fin.ext (Nat.mod_eq_of_lt hv).symm, rfl, rfl⟩

@[simp] theorem zeroEntries_zero (fuel : Nat) : zeroEntries fuel 0 = [] := by
  cases fuel <;> rfl

@[simp] theorem copyEntries_zero (v : BitVec 4) (fuel : Nat) : copyEntries v fuel 0 = [] := by
  cases fuel <;> rfl

/-- A run of zeros: an entry for every 138 of them, and then the rest. -/
theorem zeroEntries_eq {fuel rem : Nat} (h : rem ≤ fuel) :
    zeroEntries fuel rem = List.replicate (rem / 138) ⟨18, 127, 7⟩
      ++ (if 11 ≤ rem % 138 then [⟨18, BitVec.ofNat 8 (rem % 138 - 11), 7⟩]
        else if 3 ≤ rem % 138 then [⟨17, BitVec.ofNat 8 (rem % 138 - 3), 3⟩]
        else List.replicate (rem % 138) ⟨0, 0, 0⟩) := by
  induction fuel generalizing rem with
  | zero => rw [Nat.le_zero.mp h]; rfl
  | succ fuel ih =>
    by_cases hbig : 138 ≤ rem
    · rw [zeroEntries, if_pos (by omega : 11 ≤ rem), Nat.min_eq_right hbig, ih (by omega),
        Nat.div_eq_sub_div (by decide) hbig, Nat.mod_eq_sub_mod hbig]
      rfl
    · have hsmall : rem < 138 := Nat.not_le.mp hbig
      rw [zeroEntries, Nat.min_eq_left hsmall.le, Nat.sub_self, zeroEntries_zero, Nat.div_eq_of_lt hsmall,
        Nat.mod_eq_of_lt hsmall]
      rfl

/-- The copies of a length: an entry for every 6 of them, and then the rest. -/
theorem copyEntries_eq (v : BitVec 4) {fuel rem : Nat} (h : rem ≤ fuel) :
    copyEntries v fuel rem = List.replicate (rem / 6) ⟨16, 3, 2⟩
      ++ (if 3 ≤ rem % 6 then [⟨16, BitVec.ofNat 8 (rem % 6 - 3), 2⟩]
        else List.replicate (rem % 6) (clsLiteral v)) := by
  induction fuel generalizing rem with
  | zero => rw [Nat.le_zero.mp h]; rfl
  | succ fuel ih =>
    by_cases hbig : 6 ≤ rem
    · rw [copyEntries, if_pos (by omega : 3 ≤ rem), Nat.min_eq_right hbig, ih (by omega),
        Nat.div_eq_sub_div (by decide) hbig, Nat.mod_eq_sub_mod hbig]
      rfl
    · have hsmall : rem < 6 := Nat.not_le.mp hbig
      rw [copyEntries, Nat.min_eq_left hsmall.le, Nat.sub_self, copyEntries_zero, Nat.div_eq_of_lt hsmall,
        Nat.mod_eq_of_lt hsmall]
      rfl

theorem runEntries_zeros (r : Nat) : runEntries (0, r) = zeroEntries r r := if_pos rfl

theorem runEntries_of_ne {v : BitVec 4} (hv : v ≠ 0) (r : Nat) :
    runEntries (v, r + 1) = clsLiteral v :: copyEntries v r r := if_neg hv

theorem rle_zeros (r : Nat) : rle (List.replicate r 0) = zeroEntries r r := by
  cases r with
  | zero => rfl
  | succ r => rw [rle_replicate, runEntries_zeros]

theorem sym_ne_of_mem_zeroEntries {fuel rem : Nat} {e : ClsEntry} (h : e ∈ zeroEntries fuel rem) :
    e.sym.val ≠ 16 := by
  induction fuel generalizing rem with
  | zero => cases h
  | succ fuel ih =>
    rw [zeroEntries] at h
    split at h
    · rcases List.mem_cons.mp h with rfl | h
      · exact (by decide : (18 : Fin 19).val ≠ 16)
      · exact ih h
    · split at h
      · rw [List.mem_singleton.mp h]
        exact (by decide : (17 : Fin 19).val ≠ 16)
      · rw [List.eq_of_mem_replicate h]
        decide

/-- Only an entry of zeros or a literal begins the entries of a run. -/
theorem sym_ne_of_head?_runEntries {run : BitVec 4 × Nat} {e : ClsEntry} (h : (runEntries run).head? = some e) :
    e.sym.val ≠ 16 := by
  unfold runEntries at h
  split at h
  · exact sym_ne_of_mem_zeroEntries (List.mem_of_head? h)
  · cases h
    exact Nat.ne_of_lt run.1.isLt

theorem sym_ne_of_head?_rle {lens : List (BitVec 4)} {e : ClsEntry} (h : (rle lens).head? = some e) :
    e.sym.val ≠ 16 := by
  rw [rle, List.head?_flatMap] at h
  obtain ⟨run, -, hrun⟩ := List.exists_of_findSome?_eq_some h
  exact sym_ne_of_head?_runEntries hrun

/-! ### Reading the entries back (R204) -/

theorem unrleFrom_append (out : List (BitVec 4)) (es fs : List ClsEntry) :
    unrleFrom out (es ++ fs) = unrleFrom (unrleFrom out es) fs := by
  induction es generalizing out with
  | nil => rfl
  | cons e es ih =>
    simp only [List.cons_append, unrleFrom, ih]
    split_ifs <;> rfl

theorem unrleFrom_literal (out : List (BitVec 4)) (v : BitVec 4) (es : List ClsEntry) :
    unrleFrom out (clsLiteral v :: es) = unrleFrom (out ++ [v]) es := by
  rw [unrleFrom, if_pos (show (clsLiteral v).sym.val ≤ 15 from Nat.le_of_lt_succ v.isLt)]
  exact congrArg (fun u => unrleFrom (out ++ [u]) es) (BitVec.ofNat_toNat 4 v)

theorem unrleFrom_literals (out : List (BitVec 4)) (v : BitVec 4) (n : Nat) :
    unrleFrom out (List.replicate n (clsLiteral v)) = out ++ List.replicate n v := by
  induction n generalizing out with
  | zero => exact (List.append_nil out).symm
  | succ n ih => rw [List.replicate_succ, unrleFrom_literal, ih, List.append_assoc]; rfl

/-- An extra value of 8 bits holds a count above its least one (R95). -/
theorem toNat_extra {k n : Nat} (hk : k ≤ n) (hn : n < k + 256) : (BitVec.ofNat 8 (n - k)).toNat + k = n := by
  rw [BitVec.toNat_ofNat]
  omega

theorem unrleFrom_long_zeros (out : List (BitVec 4)) {n : Nat} (h11 : 11 ≤ n) (h138 : n ≤ 138)
    (es : List ClsEntry) :
    unrleFrom out (⟨18, BitVec.ofNat 8 (n - 11), 7⟩ :: es) = unrleFrom (out ++ List.replicate n 0) es :=
  congrArg (fun m => unrleFrom (out ++ List.replicate m 0) es) (toNat_extra h11 (by omega))

theorem unrleFrom_short_zeros (out : List (BitVec 4)) {n : Nat} (h3 : 3 ≤ n) (h10 : n ≤ 10) (es : List ClsEntry) :
    unrleFrom out (⟨17, BitVec.ofNat 8 (n - 3), 3⟩ :: es) = unrleFrom (out ++ List.replicate n 0) es :=
  congrArg (fun m => unrleFrom (out ++ List.replicate m 0) es) (toNat_extra h3 (by omega))

theorem unrleFrom_copies (out : List (BitVec 4)) {n : Nat} (h3 : 3 ≤ n) (h6 : n ≤ 6) (es : List ClsEntry) :
    unrleFrom out (⟨16, BitVec.ofNat 8 (n - 3), 2⟩ :: es)
      = unrleFrom (out ++ List.replicate n (out.getLastD 0)) es :=
  congrArg (fun m => unrleFrom (out ++ List.replicate m (out.getLastD 0)) es) (toNat_extra h3 (by omega))

/-- Two parts of a run, put on one after the other. -/
theorem append_replicate_sub {k n : Nat} (h : k ≤ n) (out : List (BitVec 4)) (v : BitVec 4) :
    out ++ List.replicate k v ++ List.replicate (n - k) v = out ++ List.replicate n v := by
  rw [List.append_assoc, List.replicate_append_replicate, Nat.add_sub_cancel' h]

theorem unrleFrom_zeroEntries (out : List (BitVec 4)) {fuel rem : Nat} (h : rem ≤ fuel) :
    unrleFrom out (zeroEntries fuel rem) = out ++ List.replicate rem 0 := by
  induction fuel generalizing out rem with
  | zero => rw [Nat.le_zero.mp h]; exact (List.append_nil out).symm
  | succ fuel ih =>
    rw [zeroEntries]
    split
    · rw [unrleFrom_long_zeros out (by omega) (by omega), ih _ (by omega), append_replicate_sub (Nat.min_le_left _ _)]
    · split
      · rw [unrleFrom_short_zeros out (by omega) (by omega), unrleFrom]
      · exact unrleFrom_literals out 0 rem

/-- Where the last length is v, the entries of its copies give copies of v. -/
theorem unrleFrom_copyEntries {v : BitVec 4} {out : List (BitVec 4)} (hout : out.getLastD 0 = v) {fuel rem : Nat}
    (h : rem ≤ fuel) : unrleFrom out (copyEntries v fuel rem) = out ++ List.replicate rem v := by
  induction fuel generalizing out rem with
  | zero => rw [Nat.le_zero.mp h]; exact (List.append_nil out).symm
  | succ fuel ih =>
    rw [copyEntries]
    split
    · have hlast : (out ++ List.replicate (min rem 6) v).getLastD 0 = v := by
        simp [List.getLastD_eq_getLast?, List.getLast?_append, List.getLast?_replicate, show rem ≠ 0 by omega]
      rw [unrleFrom_copies out (by omega) (by omega), hout, ih hlast (by omega),
        append_replicate_sub (Nat.min_le_left _ _)]
    · exact unrleFrom_literals out v rem

/-- The entries of a run give the run. -/
theorem unrleFrom_runEntries (out : List (BitVec 4)) (v : BitVec 4) {r : Nat} (hr : 1 ≤ r) :
    unrleFrom out (runEntries (v, r)) = out ++ List.replicate r v := by
  by_cases hv : v = 0
  · rw [hv, runEntries_zeros]
    exact unrleFrom_zeroEntries out le_rfl
  · obtain ⟨r, rfl⟩ := Nat.exists_eq_add_of_le' hr
    rw [runEntries_of_ne hv, unrleFrom_literal, unrleFrom_copyEntries List.getLastD_concat le_rfl, List.append_assoc]
    rfl

theorem unrleFrom_flatMap_runEntries {runs : List (BitVec 4 × Nat)} (h : ∀ run ∈ runs, 1 ≤ run.2)
    (out : List (BitVec 4)) :
    unrleFrom out (runs.flatMap runEntries) = out ++ runs.flatMap fun run => List.replicate run.2 run.1 := by
  induction runs generalizing out with
  | nil => exact (List.append_nil out).symm
  | cons run runs ih =>
    obtain ⟨hrun, hruns⟩ := List.forall_mem_cons.mp h
    rw [List.flatMap_cons, unrleFrom_append, unrleFrom_runEntries out run.1 hrun, ih hruns, List.append_assoc,
      List.flatMap_cons]

theorem unrle_rle (lens : List (BitVec 4)) : unrle (rle lens) = lens := by
  obtain ⟨hpos, -⟩ := runsOf_counts lens
  calc unrle (rle lens) = [] ++ (runsOf lens).flatMap fun run => List.replicate run.2 run.1 :=
        unrleFrom_flatMap_runEntries hpos []
    _ = lens := flatMap_replicate_runsOf lens

/-- Settles O49: run by run, for the reconstruction and for the entries. -/
theorem rleReconstructsTheLengths : Obligations.RleReconstructsTheLengths := by
  refine ⟨fun lens => ⟨unrle_rle lens, fun e es h => sym_ne_of_head?_rle (by rw [h, List.head?_cons])⟩,
    fun r => ?zeros, fun v r hv => ?copies, fun xs ys v r => rle_around_run, fun s => ⟨_, exec_of_op_ok nofun rfl, rfl⟩⟩
  case zeros => rw [rle_zeros, zeroEntries_eq le_rfl]
  case copies =>
    rw [rle_replicate, runEntries_of_ne hv, copyEntries_eq v le_rfl, clsLiteral_eq]
    rfl

end Sys2Proof.Machine
end

section
/-! PROOFS. BLK_HEADER and BLK_BODY (R220 to R229): each appends one sequence of bits to an accumulator and reports its
length; at a missing code the sequence ends and NO_CODE follows it, so OUT_OVERFLOW comes first exactly where the bits
before the code do not fit (R275). -/

namespace Sys2Proof.Machine

/-! ### A command that appends to an accumulator and reports how much (R224, R227) -/

/-- The data with accumulator A now x, and the number of bits x has gained in RESULT0. -/
def Data.appended (d : Data) (a : AccSel) (x : Accum) : Data :=
  { d.setAcc a x with result0 := BitVec.ofNat 32 (x.bitCount - (d.acc a).bitCount) }

theorem blkHeaderOp_eq (a : AccSel) (f : Bool) (d : Data) :
    blkHeaderOp a f d = (appendHeader d f (d.acc a)).map (d.appended a) := by
  rw [blkHeaderOp]
  cases appendHeader d f (d.acc a) <;> rfl

theorem blkBodyOp_eq (a : AccSel) (d : Data) :
    blkBodyOp a d = (appendSymbols d d.symq (d.acc a)).map (d.appended a) := by
  rw [blkBodyOp]
  cases appendSymbols d d.symq (d.acc a) <;> rfl

theorem bitCount_of_bits {a x : Accum} {bs : List Bool} (h : x.bits = a.bits ++ bs) :
    x.bitCount = a.bitCount + bs.length := by
  rw [← length_bits, h, List.length_append, length_bits]

theorem map_appended {d : Data} {a : AccSel} {x : Accum} {bs : List Bool} (hx : (d.acc a).appendBits bs = .ok x)
    (hbits : x.bits = (d.acc a).bits ++ bs) :
    ((d.acc a).appendBits bs).map (d.appended a)
      = .ok { d.setAcc a x with result0 := BitVec.ofNat 32 bs.length } := by
  rw [hx, Except.map, Data.appended, bitCount_of_bits hbits, Nat.add_sub_cancel_left]

/-- A command that appends the bits bs completes where the bytes fit, and raises OUT_OVERFLOW where they do not. -/
theorem exec_appended {i : Instr} {s : State} {a : AccSel} {bs : List Bool} (hi : i ≠ .softReset)
    (hop : i.op s.data = ((s.data.acc a).appendBits bs).map (s.data.appended a)) (hok : (s.data.acc a).ok) :
    ((s.data.acc a).bitCount + bs.length < 8 * (Config.outCap + 1) →
      ∃ x : Accum, exec i s
          = .next (s.completed { s.data.setAcc a x with result0 := BitVec.ofNat 32 bs.length }) ∧ x.ok
        ∧ x.bits = (s.data.acc a).bits ++ bs)
    ∧ (8 * (Config.outCap + 1) ≤ (s.data.acc a).bitCount + bs.length →
      ∃ t, exec i s = .next t ∧ t.recorded .outOverflow false s.data.pending) := by
  refine ⟨fun hroom => ?_, fun hfull => exec_of_op_error hi ?_⟩
  · obtain ⟨x, hx, hxok, hbits⟩ := appendBits_of_room bs _ hok (by omega)
    exact ⟨x, exec_of_op_ok hi (hop.trans (map_appended hx hbits)), hxok, hbits⟩
  · rw [hop, appendBits_of_overflow hok hfull, Except.map]

/-! ### Where every code exists (R223 to R225, R228) -/

theorem length_blockHeader (d : Data) (f : Bool) : (blockHeader d f).length
    = 74 + (d.clsq.map fun e => (d.codeCL.get ⟨0, 0⟩ e.sym.val).width.toNat + e.xw.toNat).sum := by
  have hmeta : ∀ e, (metaBits d e).length = (d.codeCL.get ⟨0, 0⟩ e.sym.val).width.toNat + e.xw.toNat := fun e => by
    rw [metaBits, List.length_append, length_codeBits, length_numBits]
  simp only [blockHeader, fixedHeader, List.length_append, List.length_flatMap, hmeta, length_numBits]
  rfl

theorem blkHeaderOp_of_codes {a : AccSel} {f : Bool} {d : Data}
    (hcodes : ∀ e ∈ d.clsq, (d.codeCL.get ⟨0, 0⟩ e.sym.val).width ≠ 0) :
    blkHeaderOp a f d = ((d.acc a).appendBits (blockHeader d f)).map (d.appended a) := by
  rw [blkHeaderOp_eq, appendHeader_eq f _ hcodes]

theorem blkBodyOp_of_codes {a : AccSel} {d : Data} (hsyms : ∀ x ∈ d.symq, x.inRange ∧ hasCodes d x) :
    blkBodyOp a d = ((d.acc a).appendBits (blockBody d)).map (d.appended a) := by
  rw [blkBodyOp_eq, appendSymbols_eq _ _ (fun x hx => (hsyms x hx).1) fun x hx => (hsyms x hx).2, blockBody]

/-- Settles O51: with every meta-code the header is one append of its bits. -/
theorem blkHeaderAddsTheHeaderBits : Obligations.BlkHeaderAddsTheHeaderBits := by
  intro s a f hok hcodes
  rw [← length_blockHeader s.data f]
  exact exec_appended nofun (blkHeaderOp_of_codes hcodes) hok

/-- Settles O52: with every code the body is one append of its bits. -/
theorem blkBodyAddsTheSymbolBits : Obligations.BlkBodyAddsTheSymbolBits := fun _ _ hok hsyms =>
  exec_appended nofun (blkBodyOp_of_codes hsyms) hok

/-! ### Where a code is missing (R229, R275) -/

theorem ok_bind {ε α β : Type} (x : α) (f : α → Except ε β) : (Except.ok x >>= f) = f x := rfl

theorem error_bind {ε α β : Type} (e : ε) (f : α → Except ε β) : (Except.error e >>= f) = .error e := rfl

/-- Bits, then a missing code: NO_CODE where the bits fit, and OUT_OVERFLOW where they do not. -/
theorem appendBits_bind_noCode {a : Accum} (ha : a.ok) (bs : List Bool) {rest : Accum → Except FaultKind Accum}
    (hrest : ∀ x, rest x = .error .noCode) :
    (a.appendBits bs).bind rest
      = .error (if a.bitCount + bs.length < 8 * (Config.outCap + 1) then .noCode else .outOverflow) := by
  split
  · next hroom =>
    obtain ⟨x, hx, -⟩ := appendBits_of_room bs a ha (by omega)
    rw [hx]
    exact hrest x
  · next hfull =>
    rw [appendBits_of_overflow ha (Nat.not_lt.mp hfull)]
    rfl

theorem appendMetas_append (d : Data) (es es' : List ClsEntry) (a : Accum) :
    appendMetas d (es ++ es') a = appendMetas d es a >>= appendMetas d es' := by
  induction es generalizing a with
  | nil => rfl
  | cons e es ih =>
    simp only [List.cons_append, appendMetas]
    cases appendMeta d a e with
    | error k => rfl
    | ok x => exact ih x

theorem appendSymbols_append (d : Data) (xs ys : List Symbol) (a : Accum) :
    appendSymbols d (xs ++ ys) a = appendSymbols d xs a >>= appendSymbols d ys := by
  induction xs generalizing a with
  | nil => rfl
  | cons x xs ih =>
    simp only [List.cons_append, appendSymbols]
    cases appendSymbol d a x with
    | error k => rfl
    | ok y => exact ih y

/-- The header up to some entry of CLSQ, then the entries from there on (R224). -/
theorem appendHeader_split {d : Data} {es es' : List ClsEntry} (h : d.clsq = es ++ es') (f : Bool) (a : Accum) :
    appendHeader d f a = appendHeader { d with clsq := es } f a >>= appendMetas d es' := by
  have hmetas : appendMetas d d.clsq = fun x => appendMetas { d with clsq := es } es x >>= appendMetas d es' :=
    funext fun x => by
      rw [h, appendMetas_append]
      exact congrArg (· >>= _) (appendMetas_congr (by rfl) es x)
  simp only [appendHeader, hmetas, appendClLengths_eq, bind_assoc]

/-- A symbol in range with a missing code: the bits before that code, then NO_CODE (R221, R229). -/
theorem appendSymbol_of_missing {d : Data} {x : Symbol} (hr : x.inRange) (hc : ¬ hasCodes d x) (a : Accum) :
    appendSymbol d a x = a.appendBits (bitsBeforeMissing d x) >>= fun _ => .error .noCode := by
  cases x with
  | literal b =>
    rw [hasCodes, not_not] at hc
    rw [appendSymbol, appendCode_eq, if_pos hc]
    rfl
  | endOfBlock =>
    rw [hasCodes, not_not] at hc
    rw [appendSymbol, appendCode_eq, if_pos hc]
    rfl
  | reference l dist =>
    obtain ⟨h3, h258, h1, hmax⟩ := hr
    obtain ⟨le, hle, -, -, hlw, -⟩ := lcode_ok h3 h258
    obtain ⟨de, hde, -⟩ := dcode_ok h1 hmax
    simp only [hasCodes, hle, hde, codeFor] at hc
    simp only [appendSymbol, bitsBeforeMissing, hle, hde, codeFor, extraBits, ok_bind, appendCode_eq]
    split
    · rfl
    · next hl =>
      have hd : (d.codeD.get ⟨0, 0⟩ de.symbol).width = 0 := not_not.mp fun hd => hc ⟨hl, hd⟩
      rw [appendBits_append]
      simp only [hd, if_true, appendNum_eq _ _ _ (show le.xw ≤ 64 by omega), error_bind]
      exact (bind_assoc _ _ _).symm

/-- Settles O53: the codes before the missing one are there, so the bits before it are one append. -/
theorem missingCodesRaiseNoCode : Obligations.MissingCodesRaiseNoCode := by
  refine fun s a hok => ⟨fun f before e after hclsq hbefore he => exec_of_op_error nofun ?_,
    fun before x after hsymq hbefore hr hx => exec_of_op_error nofun ?_⟩
  · have hmissing : ∀ y, appendMetas s.data (e :: after) y = .error .noCode := fun y => by
      rw [appendMetas, appendMeta, appendCode_eq, if_pos he]
      rfl
    refine (blkHeaderOp_eq a f s.data).trans ?_
    rw [appendHeader_split hclsq, appendHeader_eq (d := { s.data with clsq := before }) f _ hbefore]
    exact congrArg (Except.map _) (appendBits_bind_noCode hok _ hmissing)
  · have hbits : appendSymbols s.data s.data.symq (s.data.acc a)
        = (s.data.acc a).appendBits (before.flatMap (symbolBits s.data) ++ bitsBeforeMissing s.data x)
          >>= fun _ => .error .noCode := by
      rw [hsymq, appendSymbols_append, appendBits_append,
        appendSymbols_eq before _ (fun y hy => (hbefore y hy).1) fun y hy => (hbefore y hy).2]
      simp only [appendSymbols, appendSymbol_of_missing hr hx]
      cases (s.data.acc a).appendBits (before.flatMap (symbolBits s.data)) with
      | error k => rfl
      | ok y => exact bind_assoc (y.appendBits _) _ _
    refine (blkBodyOp_eq a s.data).trans ?_
    rw [hbits]
    exact congrArg (Except.map _) (appendBits_bind_noCode hok _ fun _ => rfl)

end Sys2Proof.Machine
end

section
/-! PROOFS. The tables of a block (R229, R236): the lengths of each alphabet are a complete code within its limit, its
codes are the canonical ones of them, and every symbol and every entry of CLSQ has the codes it needs. -/

namespace Sys2Proof.Machine

/-- HL_ASSIGN completes on every weight table, with a complete code of the used symbols. -/
theorem assignedLengths_complete (t : TableSel) (freq : Table Word t.size) :
    ∃ len, assignedLengths t freq = .ok len ∧ (∀ l ∈ len.entries, l.toNat ≤ t.lengthLimit)
      ∧ kraft len.entries = 2 ^ 15 ∧ ∀ i, i < t.size → freq.get 0 i ≠ 0 → len.get 0 i ≠ 0 := by
  obtain ⟨len, r, hexec, hle, -, hkraft, hused, -⟩ :=
    hlAssignGivesACompleteCode { State.reset with data := Data.reset.setFreq t freq } t
  obtain ⟨d, hd, hs⟩ := exec_completed (i := .hlAssign t) nofun hexec rfl
  obtain ⟨len', r', hlen, rfl⟩ := hlAssignOp_assigned hd
  have hsame : len = len' := by
    have h := congrArg (fun s => s.data.lenOf t) hs
    cases t <;> exact h
  rw [freqOf_setFreq, ← hsame] at hlen
  rw [freqOf_setFreq] at hused
  exact ⟨len, hlen, fun l hl => (hle l hl).1, hkraft, hused⟩

/-- A symbol that is counted has a nonzero weight (R153). -/
theorem get_foldl_bumpNamed_ne_zero {n i : Nat} (name : Symbol → Option Nat) {x : Symbol} {xs : List Symbol}
    (hlen : xs.length < 2 ^ 32) (hx : x ∈ xs) (hname : name x = some i) (hi : i < n) :
    (xs.foldl (fun u y => bumpNamed u (name y)) (.fill 0 : Table Word n)).get 0 i ≠ 0 := by
  intro hzero
  have hcount := toNat_get_foldl_bumpNamed name xs hlen hi
  rw [hzero] at hcount
  exact (List.countP_pos_iff.mpr ⟨x, hx, by simpa using hname⟩).ne hcount

section
variable {d : Data} {xs : List Symbol} (h : d.tablesOf xs)
include h

theorem tablesOf_lengths (t : TableSel) : (∀ l ∈ (d.lenOf t).entries, l.toNat ≤ t.lengthLimit)
    ∧ kraft (d.lenOf t).entries = 2 ^ 15
    ∧ ∀ i, i < t.size → (d.freqOf t).get 0 i ≠ 0 → (d.lenOf t).get 0 i ≠ 0 := by
  obtain ⟨len, hlen, hspec⟩ := assignedLengths_complete t (d.freqOf t)
  rwa [Except.ok.inj (hlen.symm.trans (h.len t))] at hspec

theorem tablesOf_canonical (t : TableSel) : canonicalCodes (d.lenOf t) (d.codeOf t) := by
  obtain ⟨-, hkraft, -⟩ := tablesOf_lengths h t
  obtain ⟨codes, hcodes, hcan⟩ := builtCodes_canonical hkraft.le
  rwa [Except.ok.inj (hcodes.symm.trans (h.code t))] at hcan

/-- A symbol of nonzero weight has a code (R229). -/
theorem tablesOf_width (t : TableSel) {i : Nat} (hi : i < t.size) (hused : (d.freqOf t).get 0 i ≠ 0) :
    ((d.codeOf t).get ⟨0, 0⟩ i).width ≠ 0 := by
  rw [canonical_width (tablesOf_canonical h t) hi]
  obtain ⟨-, -, hlen⟩ := tablesOf_lengths h t
  exact hlen i hi hused

/-- CLSQ has at most 316 entries, each as R95 lists them (R47). -/
theorem tablesOf_clsBounded : clsBounded 316 d.clsq := by
  have hcls := clsBounded_append (clsBounded_rle d.lenLL.entries) (clsBounded_rle d.lenD.entries)
  rwa [d.lenLL.size, d.lenD.size, ← h.clsq] at hcls

theorem tablesOf_metaCodes : ∀ e ∈ d.clsq, (d.codeCL.get ⟨0, 0⟩ e.sym.val).width ≠ 0 := by
  intro e he
  refine tablesOf_width h .cl e.sym.isLt fun hzero => ?_
  have hcount := toNat_get_countCls e.sym.isLt ((tablesOf_clsBounded h).1.trans_lt (by decide))
  rw [← h.freqCL, show d.freqCL.get 0 e.sym.val = 0 from hzero] at hcount
  exact (List.countP_pos_iff.mpr ⟨e, he, by simp⟩).ne hcount

theorem tablesOf_hasCodes (hlen : xs.length < 2 ^ 32) (hr : ∀ x ∈ xs, x.inRange) : ∀ x ∈ xs, hasCodes d x := by
  intro x hx
  obtain ⟨hll, hdist⟩ := Prod.mk.inj (countSymbols_ok h.freq)
  have hcodeLL : ∀ i, i < Config.nLL → llSymbol x = some i → (d.codeLL.get ⟨0, 0⟩ i).width ≠ 0 := fun i hi hname =>
    tablesOf_width h .ll hi (by rw [Data.freqOf, hll]; exact get_foldl_bumpNamed_ne_zero llSymbol hlen hx hname hi)
  have hcodeD : ∀ i, i < Config.nD → dSymbol x = some i → (d.codeD.get ⟨0, 0⟩ i).width ≠ 0 := fun i hi hname =>
    tablesOf_width h .d hi (by rw [Data.freqOf, hdist]; exact get_foldl_bumpNamed_ne_zero dSymbol hlen hx hname hi)
  cases x with
  | literal b => exact hcodeLL _ (b.isLt.trans (by decide)) rfl
  | endOfBlock => exact hcodeLL 256 (by decide) rfl
  | reference l dist =>
    obtain ⟨h3, h258, h1, hmax⟩ := hr _ hx
    obtain ⟨le, hle, -, hlsym, -⟩ := lcode_ok h3 h258
    obtain ⟨de, hde, hdsym, -⟩ := dcode_ok h1 hmax
    rw [llSymbol, hle] at hcodeLL
    rw [dSymbol, hde] at hcodeD
    rw [hasCodes, hle, hde]
    exact ⟨hcodeLL _ (Nat.lt_succ_of_le hlsym) rfl, hcodeD _ (Nat.lt_succ_of_le hdsym) rfl⟩

end

end Sys2Proof.Machine
end

section
/-! PROOFS. BLK_ENCODE (R230 to R236): its first steps leave the tables of the input's symbols, in which every code the
block needs exists, and its last steps put the block's bits on the stream, where they fit. A block's bits are bounded by
those of its entries and of its symbols, which cover the input. -/

namespace Sys2Proof.Machine

/-! ### The steps that make the tables (R230) -/

theorem symRunOp_completes {d : Data} {ll : Table Word Config.nLL} {dist : Table Word Config.nD}
    (h : countSymbols (symbolize d).1 (.fill 0, .fill 0) = .ok (ll, dist)) :
    ∃ r, symRunOp d = .ok { d with
      symq := (symbolize d).1, mf := (symbolize d).2, freqLL := ll, freqD := dist, result0 := r } :=
  ⟨_, bind_eq_ok.mpr ⟨_, h, rfl⟩⟩

theorem hlAssignOp_completes {t : TableSel} {d : Data} {len : Table (BitVec 4) t.size}
    (h : assignedLengths t (d.freqOf t) = .ok len) :
    ∃ r, hlAssignOp t d = .ok { d.setLen t len with result0 := r } := by
  obtain ⟨lens, hlens, rfl⟩ := map_eq_ok.mp h
  exact ⟨_, bind_eq_ok.mpr ⟨lens, hlens, rfl⟩⟩

theorem ccBuildOp_completes {t : TableSel} {d : Data} {codes : Table CodeEntry t.size}
    (h : builtCodes t (d.lenOf t) = .ok codes) :
    ∃ r, ccBuildOp t d = .ok { d.setCode t codes with result0 := r } := by
  obtain ⟨pairs, hpairs, rfl⟩ := map_eq_ok.mp h
  exact ⟨_, bind_eq_ok.mpr ⟨pairs, hpairs, rfl⟩⟩

theorem ctRleOp_completes (d : Data) : ∃ r, ctRleOp d = .ok { d with
    clsq := rle d.lenLL.entries ++ rle d.lenD.entries
    freqCL := countCls (rle d.lenLL.entries ++ rle d.lenD.entries), result0 := r } := ⟨_, rfl⟩

/-- A step that completes with some RESULT0, before steps that do not read it. -/
theorem bind_completes {x : Except FaultKind Data} {dOf : Word → Data} {rest last : Data → Except FaultKind Data}
    {P : Data → Prop} (hx : ∃ r, x = .ok (dOf r)) (h : ∀ r, ∃ c, P c ∧ rest (dOf r) = last c) :
    ∃ c, P c ∧ (x >>= rest) = last c := by
  obtain ⟨r, rfl⟩ := hx
  exact h r

/-- The steps of BLK_ENCODE after the tables (R230). -/
def putBlockOp (f : Bool) (d : Data) : Except FaultKind Data := do
  let d ← baClearOp .ba1 d
  let d ← blkHeaderOp .ba1 f d
  let h := d.result0
  let d ← blkBodyOp .ba1 d
  let b := d.result0
  let d ← baExtendOp d
  let d ← baDrainOp .ba0 d
  let m := d.result0
  let d ← inClearOp d
  return { d with result0 := h + b, result1 := m }

/-- The stream and the locate results are those of d: the table steps leave them alone. -/
structure Data.sameStream (c d : Data) : Prop where
  ba0 : c.ba0 = d.ba0
  outq : c.outq = d.outq
  locq : c.locq = d.locq

/-- BLK_ENCODE makes the tables of the input's symbols and puts their block on the stream (R230). -/
theorem blkEncodeOp_eq_putBlockOp {d : Data} (hr : ∀ x ∈ (symbolize d).1, x.inRange) (f : Bool) :
    ∃ c : Data, (c.tablesOf (symbolize d).1 ∧ c.sameStream d) ∧ blkEncodeOp f d = putBlockOp f c := by
  obtain ⟨⟨ll, dist⟩, hcount⟩ := countSymbols_completes _ hr (.fill 0, .fill 0)
  obtain ⟨lenLL, hlenLL, -, hkraftLL, -⟩ := assignedLengths_complete .ll ll
  obtain ⟨lenD, hlenD, -, hkraftD, -⟩ := assignedLengths_complete .d dist
  obtain ⟨codeLL, hcodeLL, -⟩ := builtCodes_canonical hkraftLL.le
  obtain ⟨codeD, hcodeD, -⟩ := builtCodes_canonical hkraftD.le
  obtain ⟨lenCL, hlenCL, -, hkraftCL, -⟩ :=
    assignedLengths_complete .cl (countCls (rle lenLL.entries ++ rle lenD.entries))
  obtain ⟨codeCL, hcodeCL, -⟩ := builtCodes_canonical hkraftCL.le
  refine bind_completes (symRunOp_completes hcount) fun r1 => ?_
  refine bind_completes (hlAssignOp_completes (t := .ll) hlenLL) fun r2 => ?_
  refine bind_completes (hlAssignOp_completes (t := .d) hlenD) fun r3 => ?_
  refine bind_completes (ccBuildOp_completes (t := .ll) hcodeLL) fun r4 => ?_
  refine bind_completes (ccBuildOp_completes (t := .d) hcodeD) fun r5 => ?_
  refine bind_completes (ctRleOp_completes _) fun r6 => ?_
  refine bind_completes (hlAssignOp_completes (t := .cl) hlenCL) fun r7 => ?_
  refine bind_completes (ccBuildOp_completes (t := .cl) hcodeCL) fun r8 => ?_
  refine ⟨_, ⟨?tables, ?stream⟩, rfl⟩
  case stream => exact ⟨rfl, rfl, rfl⟩
  case tables =>
    exact ⟨rfl, hcount, rfl, fun | .ll => hlenLL | .d => hlenD | .cl => hlenCL,
      fun | .ll => hcodeLL | .d => hcodeD | .cl => hcodeCL, rfl⟩

/-! ### The steps that put the block on the stream (R231, R232) -/

/-- What the steps after the tables leave of c, where z is BA0 with the block's bits behind its own. -/
def Data.withBlock (c : Data) (f : Bool) (z : Accum) : Data :=
  { c with
    ba0 := { z with bytes := [] }, ba1 := .empty, outq := c.outq ++ z.bytes, input := []
    result0 := BitVec.ofNat 32 (blockHeader c f ++ blockBody c).length
    result1 := BitVec.ofNat 32 z.bytes.length }

/-- With every code of the block and room for its bytes, header and body are joined in BA1 and then to BA0. -/
theorem putBlockOp_completes {c : Data} {f : Bool} (hok : c.ba0.ok)
    (hmeta : ∀ e ∈ c.clsq, (c.codeCL.get ⟨0, 0⟩ e.sym.val).width ≠ 0)
    (hsyms : ∀ x ∈ c.symq, x.inRange ∧ hasCodes c x)
    (hroom : c.outq.length + (c.ba0.bitCount + (blockHeader c f ++ blockBody c).length) / 8 ≤ Config.outCap) :
    ∃ z, z.bits = c.ba0.bits ++ (blockHeader c f ++ blockBody c) ∧ putBlockOp f c = .ok (c.withBlock f z) := by
  have hempty : Accum.empty.bitCount = 0 := rfl
  rw [List.length_append] at hroom
  obtain ⟨x, hx, hxok, hxbits⟩ := appendBits_of_room (blockHeader c f) .empty ok_empty (by omega)
  have hxcount := bitCount_of_bits hxbits
  obtain ⟨y, hy, -, hybits⟩ := appendBits_of_room (blockBody c) x hxok (by omega)
  have hyall : y.bits = blockHeader c f ++ blockBody c := by rw [hybits, hxbits, bits_empty, List.nil_append]
  obtain ⟨z, hz, -, hzbits⟩ := appendBits_of_room y.bits c.ba0 hok (by rw [hyall, List.length_append]; omega)
  rw [hyall] at hzbits
  have hdrained : c.outq.length + z.bytes.length ≤ Config.outCap := by
    have hcount := bitCount_of_bits hzbits
    rw [List.length_append, Accum.bitCount] at hcount
    omega
  have hheader :=
    (blkHeaderOp_of_codes (a := .ba1) (d := { c with ba1 := .empty }) hmeta).trans (map_appended hx hxbits)
  have hbody := fun r =>
    (blkBodyOp_of_codes (a := .ba1) (d := { c with ba1 := x, result0 := r }) hsyms).trans (map_appended hy hybits)
  have hextend : ∀ r, baExtendOp { c with ba1 := y, result0 := r }
      = .ok { c with ba0 := z, ba1 := .empty, result0 := r } := fun r => congrArg (Except.map _) hz
  have hdrain := fun r => baDrainOp_of_room (a := .ba0) (d := { c with ba0 := z, ba1 := .empty, result0 := r }) hdrained
  refine ⟨z, hzbits, bind_eq_ok.mpr ⟨_, rfl, bind_eq_ok.mpr ⟨_, hheader, bind_eq_ok.mpr ⟨_, hbody _, bind_eq_ok.mpr
    ⟨_, hextend _, bind_eq_ok.mpr ⟨_, hdrain _, ?_⟩⟩⟩⟩⟩⟩
  rw [Data.withBlock, List.length_append, BitVec.ofNat_add]
  rfl

/-- d' is d with one block more on its stream, the block of the tables of d' (R230). -/
structure Data.gainsBlock (d d' : Data) (f : Bool) : Prop where
  stream : streamBits d'.outq ++ d'.ba0.bits
    = streamBits d.outq ++ d.ba0.bits ++ (blockHeader d' f ++ blockBody d')
  result0 : d'.result0 = BitVec.ofNat 32 (blockHeader d' f ++ blockBody d').length
  result1 : d'.result1 = BitVec.ofNat 32 (d'.outq.length - d.outq.length)
  outq : d.outq <+: d'.outq
  ba0 : d'.ba0.bytes = []
  ba1 : d'.ba1 = .empty
  input : d'.input = []
  locq : d'.locq = d.locq

theorem gainsBlock_withBlock {c d : Data} {f : Bool} {z : Accum} (hsame : c.sameStream d)
    (hz : z.bits = c.ba0.bits ++ (blockHeader c f ++ blockBody c)) : d.gainsBlock (c.withBlock f z) f := by
  have hblock : blockHeader (c.withBlock f z) f ++ blockBody (c.withBlock f z) = blockHeader c f ++ blockBody c := rfl
  have houtq : (c.withBlock f z).outq = d.outq ++ z.bytes := congrArg (· ++ z.bytes) hsame.outq
  exact {
    stream := by
      rw [hblock, List.append_assoc, ← hsame.ba0, ← hz, houtq]
      simp [Data.withBlock, streamBits, Accum.bits]
    result0 := rfl
    result1 := by rw [houtq, List.length_append, Nat.add_sub_cancel_left]; rfl
    outq := houtq ▸ List.prefix_append _ _
    ba0 := rfl
    ba1 := rfl
    input := rfl
    locq := hsame.locq }

/-- The run of BLK_ENCODE on an input whose symbols are in range, with room for the block they make. -/
theorem blkEncodeOp_completes {d : Data} {f : Bool} (hr : ∀ x ∈ (symbolize d).1, x.inRange)
    (hlen : (symbolize d).1.length < 2 ^ 32) (hok : d.ba0.ok)
    (hroom : ∀ c : Data, c.tablesOf (symbolize d).1 →
      d.outq.length + (d.ba0.bitCount + (blockHeader c f ++ blockBody c).length) / 8 ≤ Config.outCap) :
    ∃ d', blkEncodeOp f d = .ok d' ∧ d'.tablesOf (symbolize d).1 ∧ d.gainsBlock d' f := by
  obtain ⟨c, ⟨htables, hsame⟩, heq⟩ := blkEncodeOp_eq_putBlockOp hr f
  have hcodes := tablesOf_hasCodes htables hlen hr
  have hsyms : ∀ x ∈ c.symq, x.inRange ∧ hasCodes c x := by
    rw [htables.symq]
    exact fun x hx => ⟨hr x hx, hcodes x hx⟩
  have hfit := hroom c htables
  rw [← hsame.ba0, ← hsame.outq] at hfit
  obtain ⟨z, hz, hrun⟩ := putBlockOp_completes (hsame.ba0 ▸ hok) (tablesOf_metaCodes htables) hsyms hfit
  rw [← heq] at hrun
  exact ⟨_, hrun, (blkEncodeOp_block hrun).1, gainsBlock_withBlock hsame hz⟩

/-! ### The block of an empty input (R235) -/

theorem symbolize_of_empty {d : Data} (h : d.input = []) : symbolize d = ([.endOfBlock], []) := by
  rw [symbolize, h]
  rfl

/-- The bits of vector S1, the block of an empty input with BFINAL = 1. -/
def emptyBlockBits : List Bool :=
  (streamBits [0xED, 0xFD, 0x81, 0x00, 0x00, 0x00, 0x00, 0x00, 0x10, 0xFC, 0x5F, 0x33, 0xC2, 0x08]).take 111

theorem blkEncodeOp_reset_block : (blkEncodeOp true .reset).toOption.map (fun d => blockHeader d true ++ blockBody d)
    = some emptyBlockBits := by decide +kernel

/-- The tables of EndOfBlock alone make the block of vector S1 but for BFINAL. -/
theorem block_of_empty {c : Data} (h : c.tablesOf [.endOfBlock]) (f : Bool) :
    blockHeader c f ++ blockBody c = f :: emptyBlockBits.tail := by
  have hrun := blkEncodeOp_reset_block
  cases hd : blkEncodeOp true .reset with
  | error k => rw [hd] at hrun; cases hrun
  | ok d =>
    rw [hd] at hrun
    have htables := (blkEncodeOp_block hd).1
    rw [symbolize_of_empty rfl] at htables
    obtain ⟨hsymq, hclsq, htab⟩ := tablesOf_unique h htables
    obtain ⟨-, hll⟩ := htab .ll
    obtain ⟨-, hdist⟩ := htab .d
    obtain ⟨hlenCL, hcodeCL⟩ := htab .cl
    rw [blockHeader_congr hlenCL hcodeCL hclsq, blockBody_congr hll hdist hsymq, ← Option.some.inj hrun]
    rfl

theorem length_block_of_empty {c : Data} (h : c.tablesOf [.endOfBlock]) (f : Bool) :
    (blockHeader c f ++ blockBody c).length = 111 := by
  have htail : emptyBlockBits.tail.length = 110 := by decide +kernel
  rw [block_of_empty h, List.length_cons, htail]

/-- Settles O54: the input's one symbol is EndOfBlock. -/
theorem blkEncodeOfEmptyInput : Obligations.BlkEncodeOfEmptyInput := by
  intro s f hin hok hroom
  have hsym := symbolize_of_empty hin
  obtain ⟨d, hd, htables, hgains⟩ := blkEncodeOp_completes (d := s.data) (f := f)
    (by simp [hsym, Symbol.inRange]) (by simp [hsym]) hok
    (by rw [hsym]; exact fun c hc => by rwa [length_block_of_empty hc])
  rw [hsym] at htables
  refine ⟨_, exec_of_op_ok nofun hd, rfl, rfl, ?_, htables.symq, hgains.input, ?_⟩
  · rw [completed_data, hgains.result0, length_block_of_empty htables]
    rfl
  · rw [completed_data, hgains.stream, block_of_empty htables]
    rfl

/-! ### The size of a block (R236) -/

/-- The number of input bytes a symbol stands for (R154). -/
def Symbol.covers : Symbol → Nat
  | .literal _ => 1
  | .reference l _ => l
  | .endOfBlock => 0

theorem length_copyBack (dist l : Nat) (out : List Byte) : (copyBack dist l out).length = out.length + l := by
  induction l generalizing out with
  | zero => rfl
  | succ l ih => rw [copyBack, ih, List.length_append, List.length_singleton, Nat.add_assoc, Nat.add_comm 1]

/-- Symbols before EndOfBlock expand to as many bytes as they cover. -/
theorem length_expandFrom {xs : List Symbol} (hxs : .endOfBlock ∉ xs) (out : List Byte) :
    (expandFrom out xs).length = out.length + (xs.map Symbol.covers).sum := by
  induction xs generalizing out with
  | nil => rfl
  | cons x xs ih =>
    obtain ⟨hx, hrest⟩ := not_or.mp (mt List.mem_cons.mpr hxs)
    rw [List.map_cons, List.sum_cons, ← Nat.add_assoc]
    cases x with
    | literal b => exact (ih hrest _).trans (by rw [List.length_append]; rfl)
    | reference l dist => exact (ih hrest _).trans (by rw [length_copyBack]; rfl)
    | endOfBlock => exact absurd rfl hx

theorem length_codeBits_le (c : CodeEntry) : (codeBits c).length ≤ 15 := by
  rw [length_codeBits]
  have := c.width.isLt
  omega

/-- A Literal costs at most 15 bits for its byte, and a Reference at most 15 + 5 + 15 + 13 for at least 3 bytes. -/
theorem length_symbolBits_le (d : Data) {x : Symbol} (hne : x ≠ .endOfBlock) (hr : x.inRange) :
    (symbolBits d x).length ≤ 16 * x.covers := by
  cases x with
  | literal b => exact (length_codeBits_le _).trans (show 15 ≤ 16 * 1 by decide)
  | endOfBlock => exact absurd rfl hne
  | reference l dist =>
    obtain ⟨h3, h258, h1, hmax⟩ := hr
    obtain ⟨le, hle, -, -, hlw, -⟩ := lcode_ok h3 h258
    obtain ⟨de, hde, -, hdw, -⟩ := dcode_ok h1 hmax
    have hll := length_codeBits_le (codeFor d.codeLL (lcode l))
    have hdist := length_codeBits_le (codeFor d.codeD (dcode dist))
    have hmin : Config.minMatch = 3 := rfl
    simp only [symbolBits, hle, hde, extraBits, List.length_append, length_numBits, Symbol.covers] at *
    omega

theorem length_flatMap_symbolBits_le (d : Data) {xs : List Symbol} (h : ∀ x ∈ xs, x ≠ .endOfBlock ∧ x.inRange) :
    (xs.flatMap (symbolBits d)).length ≤ 16 * (xs.map Symbol.covers).sum := by
  induction xs with
  | nil => exact Nat.zero_le _
  | cons x xs ih =>
    obtain ⟨⟨hne, hr⟩, hxs⟩ := List.forall_mem_cons.mp h
    rw [List.flatMap_cons, List.length_append, List.map_cons, List.sum_cons, Nat.mul_add]
    exact Nat.add_le_add (length_symbolBits_le d hne hr) (ih hxs)

theorem xw_le_of_inRange {e : ClsEntry} (h : e.inRange) : e.xw.toNat ≤ 7 := by
  rcases h with ⟨-, hxw, -⟩ | ⟨-, hxw, -⟩ | ⟨-, hxw, -⟩ | ⟨-, hxw, -⟩ <;> simp [hxw]

/-- The header's part of R236: 74 bits, and at most 7 + 7 for each of at most 316 entries. -/
theorem length_blockHeader_le {c : Data} {xs : List Symbol} (h : c.tablesOf xs) (f : Bool) :
    (blockHeader c f).length ≤ 4498 := by
  obtain ⟨hlen, hrange⟩ := tablesOf_clsBounded h
  obtain ⟨hlimit, -⟩ := tablesOf_lengths h .cl
  have hentry : ∀ n ∈ c.clsq.map fun e => (c.codeCL.get ⟨0, 0⟩ e.sym.val).width.toNat + e.xw.toNat, n ≤ 14 := by
    intro n hn
    obtain ⟨e, he, rfl⟩ := List.mem_map.mp hn
    have hcode : (c.codeCL.get ⟨0, 0⟩ e.sym.val).width.toNat ≤ 7 := by
      rw [canonical_width (lens := c.lenCL) (codes := c.codeCL) (tablesOf_canonical h .cl) e.sym.isLt]
      exact hlimit _ (c.lenCL.get_mem 0 e.sym.isLt)
    have hextra := xw_le_of_inRange (hrange e he)
    omega
  have hsum := List.sum_le_card_nsmul _ _ hentry
  rw [List.length_map, smul_eq_mul] at hsum
  rw [length_blockHeader]
  omega

theorem expand_symbolize {d : Data} (hl : d.legalConfig) (hfit : d.input.length ≤ Config.inCap) :
    expand (symbolize d).1 = d.input := by
  obtain ⟨t, hexec, ht, hexp⟩ := symRunSymbolsRebuildTheInput { State.reset with data := d } hl hfit
  obtain ⟨d', hd', rfl⟩ := exec_completed (i := .symRun) nofun hexec (by rw [ht]; rfl)
  obtain ⟨ll, dist, -, rfl⟩ := symRunOp_ok hd'
  exact hexp

/-- R236: the body costs at most 16 bits for each byte of the input, and EndOfBlock at most 15. -/
theorem length_block_le {c d : Data} (hl : d.legalConfig) (hfit : d.input.length ≤ Config.inCap)
    (h : c.tablesOf (symbolize d).1) (f : Bool) :
    (blockHeader c f ++ blockBody c).length ≤ 16 * d.input.length + 4513 := by
  obtain ⟨xs, hsym, -, hxs⟩ := symbolize_spec hl hfit
  have hexp := expand_symbolize hl hfit
  have hend : .endOfBlock ∉ xs := fun hmem => (hxs _ hmem).1 rfl
  rw [hsym, expand, expandFrom_append hend] at hexp
  have hcover : d.input.length = (xs.map Symbol.covers).sum := by
    rw [← hexp]
    exact (length_expandFrom hend []).trans (Nat.zero_add _)
  have hheader := length_blockHeader_le h f
  have hbody := length_flatMap_symbolBits_le c fun x hx => ⟨(hxs x hx).1, (hxs x hx).2.1⟩
  have hlast := length_codeBits_le (c.codeLL.get ⟨0, 0⟩ 256)
  have hsplit : blockBody c = xs.flatMap (symbolBits c) ++ codeBits (c.codeLL.get ⟨0, 0⟩ 256) := by
    rw [blockBody, h.symq, hsym, List.flatMap_append, List.flatMap_singleton]
    rfl
  rw [hsplit, List.length_append, List.length_append]
  omega

/-! ### The block of an input that fits (R230) -/

/-- BLK_ENCODE within the limits of R236. -/
theorem blkEncodeOp_of_legal {d : Data} (hl : d.legalConfig) (hfit : d.input.length ≤ Config.inCap) (hok : d.ba0.ok)
    (hroom : d.ba0.bytes.length + d.outq.length + 2 * d.input.length + 566 ≤ Config.outCap) (f : Bool) :
    ∃ d', blkEncodeOp f d = .ok d' ∧ d'.tablesOf (symbolize d).1 ∧ d.gainsBlock d' f := by
  obtain ⟨xs, hsym, hlen, hxs⟩ := symbolize_spec hl hfit
  refine blkEncodeOp_completes ?_ ?_ hok fun c hc => ?_
  · rw [hsym]
    exact inRange_of_blockSymbols hxs
  · have hcap : Config.inCap = 65536 := rfl
    rw [hsym, List.length_append, List.length_singleton]
    omega
  · have hblock := length_block_le hl hfit hc f
    have hpc := d.ba0.pc.isLt
    rw [Accum.bitCount]
    omega

/-- Settles O55: the block is that of the tables left, and the bound on its bits is the room it needs. -/
theorem blkEncodePutsOneBlockOnTheStream : Obligations.BlkEncodePutsOneBlockOnTheStream := by
  intro s f hl hfit hok hroom
  obtain ⟨d, hd, htables, hgains⟩ := blkEncodeOp_of_legal hl hfit hok hroom f
  refine ⟨_, exec_of_op_ok nofun hd, rfl, ?_, ?_, length_block_le hl hfit htables f, hgains.result0, hgains.result1,
    hgains.outq, hgains.ba0, hgains.ba1, hgains.input, hgains.locq⟩
  · rw [completed_data, htables.symq, expand_symbolize hl hfit]
  · rw [completed_data, hgains.stream, List.append_assoc _ (blockHeader d f)]

/-! ### The tables after it (R226) -/

theorem unrleFrom_rle (out lens : List (BitVec 4)) : unrleFrom out (rle lens) = out ++ lens := by
  obtain ⟨hpos, -⟩ := runsOf_counts lens
  rw [rle, unrleFrom_flatMap_runEntries hpos, flatMap_replicate_runsOf]

/-- Settles O56: each table is what its unit makes of the ones before it. -/
theorem blkEncodeTablesAgree : Obligations.BlkEncodeTablesAgree := by
  intro s f hl hfit hok hroom
  obtain ⟨d, hd, htables, -⟩ := blkEncodeOp_of_legal hl hfit hok hroom f
  refine ⟨_, exec_of_op_ok nofun hd, ?_, fun t => ?_⟩
  · rw [completed_data, htables.clsq, unrle, unrleFrom_append, unrleFrom_rle, unrleFrom_rle, List.nil_append]
  · obtain ⟨-, hkraft, -⟩ := tablesOf_lengths htables t
    have hcan := tablesOf_canonical htables t
    exact ⟨hkraft, prefixFree_of_canonical hcan hkraft.le, hcan, fun i => canonical_width hcan⟩

end Sys2Proof.Machine
end

section
/-! PROOFS. The system and table-access commands (R250 to R256) and the two resets (R253): each check of TBL_READ and
TBL_WRITE in its order, and what is left of an access that passes them. -/

namespace Sys2Proof.Machine

/-! ### Words with a reserved bit or T = 3 (R80, R85) -/

/-- The step of an illegal word (R85). -/
theorem step_of_illegalWord {s : State} (hs : s.engineReady) (h : illegalWord s.data.pending) :
    ∃ t, step s = .next t ∧ t.recorded .illegalCommand false s.data.pending := by
  obtain ⟨hillegal, -⟩ := everyWordIsACommandOrIllegal
  exact hillegal s hs h

/-- A reserved bit set, or T = 3 in a format with field T, is illegal under the opcode of any command (R85). -/
theorem illegalWord_of_opcode {w : Word} {i : Instr} (hop : opField w = i.opcode)
    (h : w &&& i.format.reservedMask ≠ 0 ∨ (i.format = .t ∨ i.format = .x) ∧ w.extractLsb' 8 2 = 3) : illegalWord w := by
  rw [opField] at hop
  rw [illegalWord, hop, lookup_opcode]
  exact h.imp_right .inl

/-- NOP has one word, 0: every other word of its opcode has a reserved bit set (R250). -/
theorem reservedBit_of_nop {w : Word} (hop : opField w = Instr.opcode .nop) (hne : w ≠ 0) :
    w &&& (Instr.format .nop).reservedMask ≠ 0 := fun hmask =>
  have hdecode : decode w = .ok .nop := decode_eq_ok.mpr ⟨hop, hmask, trivial⟩
  hne (encodeOfDecodeIsTheWord w .nop hdecode).symm

/-! ### NOP (R250) -/

/-- Settles O22: the command's operation keeps the data, and 0 is the only word of its opcode that decodes. -/
theorem nopOnlyClearsBusy : Obligations.NopOnlyClearsBusy :=
  ⟨decodeOfEncodeIsTheCommand .nop, fun _ =>
    ⟨exec_of_op_ok nofun rfl, fun hs hop hne => step_of_illegalWord hs
      (illegalWord_of_opcode (i := .nop) hop (.inl (reservedBit_of_nop hop hne)))⟩⟩

/-! ### The resets (R252, R253) -/

theorem isReset_resetBlock (s : State) : (resetBlock s).isReset := ⟨rfl, rfl, rfl, rfl, rfl, rfl⟩

/-- The host's SOFT_RESET word is checked before FAULT and BUSY (R55), and a hard reset checks nothing. -/
theorem step_reset {s : State} {ts : List Turn}
    (h : s.script = .write 32 0x04 softResetWord :: ts ∨ s.script = .hardReset :: ts) :
    step s = .next (resetBlock s.inTurn) := by
  rcases h with hsoft | hhard
  · rw [step_cons hsoft, takeTurn_write (by decide), hostWrite, if_pos ⟨by decide, rfl⟩]
  · exact step_cons hhard

/-- Settles O3: both turns are the reset of the block, which keeps the world outside it. -/
theorem softResetAndHardResetGiveResetState : Obligations.SoftResetAndHardResetGiveResetState := by
  intro s ts h
  refine ⟨_, step_reset h, isReset_resetBlock _, ?_, rfl⟩
  rcases h with h | h <;> simp [State.inTurn, h]

/-! ### TBL_READ by case (R254) -/

section TblRead

variable {t : TableSel} {kd : TableKind} {idx : BitVec 16} {d : Data}

theorem tblReadOp_of_ge (hkd : kd.readable = true) (h : t.size ≤ idx.toNat) :
    tblReadOp t kd idx d = .error .illegalOperand :=
  (if_neg (by simp [hkd])).trans (if_pos h)

theorem tblReadOp_freq (h : idx.toNat < t.size) :
    tblReadOp t .freq idx d = .ok { d with result0 := (d.freqOf t).get 0 idx.toNat } :=
  (if_neg nofun).trans (if_neg (Nat.not_le.mpr h))

theorem tblReadOp_len (h : idx.toNat < t.size) :
    tblReadOp t .len idx d = .ok { d with result0 := ((d.lenOf t).get 0 idx.toNat).zeroExtend 32 } :=
  (if_neg nofun).trans (if_neg (Nat.not_le.mpr h))

theorem tblReadOp_code (h : idx.toNat < t.size) :
    tblReadOp t .code idx d = .ok { d with
      result0 := ((d.codeOf t).get ⟨0, 0⟩ idx.toNat).code.zeroExtend 32
      result1 := ((d.codeOf t).get ⟨0, 0⟩ idx.toNat).width.zeroExtend 32 } :=
  (if_neg nofun).trans (if_neg (Nat.not_le.mpr h))

end TblRead

/-- Settles O24: the entry by its table's kind, then the checks of KD, of the index and of T. -/
theorem tblReadReturnsTheEntry : Obligations.TblReadReturnsTheEntry := by
  intro s t idx
  refine ⟨fun hidx => ⟨?_, ?_, ?_⟩, ?_, fun kd hkd hidx => ?_, fun hs hop ht => ?_⟩
  · exact exec_of_op_ok nofun (tblReadOp_freq hidx)
  · exact exec_of_op_ok nofun (tblReadOp_len hidx)
  · exact exec_of_op_ok nofun (tblReadOp_code hidx)
  · exact ⟨_, exec_of_not_wellFormed rfl s, raiseCommand_recorded _ s⟩
  · have hread : kd.readable = true := by
      cases kd with
      | freq | len | code => rfl
      | reserved => exact absurd rfl hkd
    exact exec_of_op_error nofun (tblReadOp_of_ge hread hidx)
  · exact step_of_illegalWord hs (illegalWord_of_opcode (i := .tblRead t .freq idx) hop (.inr ⟨.inr rfl, ht⟩))

/-! ### TBL_WRITE by case (R256) -/

section TblWrite

variable {t : TableSel} {kd : TableKind} {idx : BitVec 16} {d : Data}

theorem tblWriteOp_of_ge (hkd : kd.writable = true) (h : t.size ≤ idx.toNat) :
    tblWriteOp t kd idx d = .error .illegalOperand :=
  (if_neg (by simp [hkd])).trans (if_pos h)

theorem tblWriteOp_freq (h : idx.toNat < t.size) :
    tblWriteOp t .freq idx d = .ok (d.setFreq t ((d.freqOf t).set idx.toNat d.arg0)) :=
  (if_neg nofun).trans (if_neg (Nat.not_le.mpr h))

theorem tblWriteOp_len (h : idx.toNat < t.size) :
    tblWriteOp t .len idx d = if t.lengthLimit < d.arg0.toNat then .error .illegalOperand
      else .ok (d.setLen t ((d.lenOf t).set idx.toNat (d.arg0.extractLsb' 0 4))) :=
  (if_neg nofun).trans (if_neg (Nat.not_le.mpr h))

end TblWrite

/-- A length within its limit fits the four bits of its entry (R45). -/
theorem toNat_lengthField {t : TableSel} {v : Word} (h : v.toNat ≤ t.lengthLimit) :
    (v.extractLsb' 0 4).toNat = v.toNat := by
  have hlimit := lengthLimit_le t
  rw [BitVec.extractLsb'_toNat, Nat.shiftRight_zero]
  exact Nat.mod_eq_of_lt (by omega)

/-- Settles O25: the table with one entry set, then the checks of the length, of KD, of the index and of T. -/
theorem tblWriteReplacesTheEntry : Obligations.TblWriteReplacesTheEntry := by
  intro s t idx
  refine ⟨fun hidx => ⟨⟨(s.data.freqOf t).set idx.toNat s.data.arg0, ?_, ?_, fun i hi => ?_⟩,
    fun hv => ⟨(s.data.lenOf t).set idx.toNat (s.data.arg0.extractLsb' 0 4), ?_, ?_, fun i hi => ?_⟩, fun hv => ?_⟩,
    fun kd hkd => ?_, fun kd hkd hidx => ?_, fun hs hop ht => ?_⟩
  · exact exec_of_op_ok nofun (tblWriteOp_freq hidx)
  · exact Table.get_set_self _ _ _ hidx
  · exact Table.get_set_other _ _ _ hi.symm
  · exact exec_of_op_ok nofun ((tblWriteOp_len hidx).trans (if_neg (Nat.not_lt.mpr hv)))
  · rw [Table.get_set_self _ _ _ hidx, toNat_lengthField hv]
  · exact Table.get_set_other _ _ _ hi.symm
  · exact exec_of_op_error nofun ((tblWriteOp_len hidx).trans (if_pos hv))
  · refine ⟨_, exec_of_not_wellFormed ?_ s, raiseCommand_recorded _ s⟩
    rcases hkd with rfl | rfl <;> rfl
  · refine exec_of_op_error nofun (tblWriteOp_of_ge ?_ hidx)
    rcases hkd with rfl | rfl <;> rfl
  · exact step_of_illegalWord hs (illegalWord_of_opcode (i := .tblWrite t .freq idx) hop (.inr ⟨.inr rfl, ht⟩))

end Sys2Proof.Machine
end

section
/-! PROOFS. The fault state (R270 to R279): once FAULT = 1 a turn that is not a reset leaves the whole block as it is,
and only the record of reads and the free-value counter go on (`step_faulted`). -/

namespace Sys2Proof.Machine

/-! ### The register map, from the offset (R23) -/

/-- A register stands at its own offset and nowhere else. -/
theorem ofOffset_eq_some {off : BitVec 8} {r : Reg} : Reg.ofOffset off = some r ↔ off = r.offset := by
  refine ⟨fun h => ?_, fun h => h ▸ ofOffset_offset r⟩
  unfold Reg.ofOffset at h
  split at h <;> cases h
  all_goals exact BitVec.eq_of_toNat_eq ‹_›

/-! ### Accesses that are not refused (R56) -/

/-- A step that takes a host access has an access of 32 bits at a multiple of 4. -/
theorem step_access_next {s t : State} {w : Nat} {off : BitVec 8} {v : Word} {ts : List Turn}
    (hs : s.script = .read w off :: ts ∨ s.script = .write w off v :: ts) (h : step s = .next t) :
    w = 32 ∧ off.toNat % 4 = 0 := by
  obtain ⟨hwidth, halign⟩ := oddAccessesAreRefused s w off v ts hs
  have hw : w = 32 := by
    by_contra hw
    cases h.symm.trans (hwidth hw)
  refine ⟨hw, ?_⟩
  by_contra hoff
  cases h.symm.trans (halign hw hoff)

/-- The registers whose values the host can read with FAULT = 1 (R54). -/
def Reg.readableFaulted (r : Reg) : Prop := r = .id ∨ r = .status ∨ r = .faultInfo

/-! ### The turns of a faulted block (R54, R55, R272) -/

section Faulted

variable {s : State} {off : BitVec 8} {v : Word} {ts : List Turn}

/-- With FAULT = 1 the engine's turn is taken and does nothing (R20). -/
theorem step_engine_faulted (hf : s.fault = true) (hn : s.engineNext) : step s = .next s.inTurn :=
  engineHasNoOtherStep s hn (by simp [hf])

/-- With FAULT = 1 a write of any word but SOFT_RESET's is ignored (R55). -/
theorem hostWrite_faulted (hf : s.fault = true) (hsoft : ¬(off = Reg.cmd.offset ∧ v = softResetWord)) :
    hostWrite off v s = s := by
  rw [hostWrite, if_neg (by rwa [ofOffset_eq_some]), if_pos hf]

theorem step_write_faulted (hf : s.fault = true) (hs : s.script = .write 32 off v :: ts) (hal : off.toNat % 4 = 0)
    (hsoft : ¬(off = Reg.cmd.offset ∧ v = softResetWord)) : step s = .next s.inTurn := by
  rw [step_cons hs, takeTurn_write hal, hostWrite_faulted (s := s.inTurn) hf hsoft]

/-- With FAULT = 1 a read changes at most the free-value counter: ID, STATUS and FAULT_INFO return their values, and
every other offset a free word (R54). -/
theorem hostRead_faulted (hf : s.fault = true) (hb : s.busy = false) (off : BitVec 8) :
    ∃ n v, hostRead off s = ({ s with free := n }, v)
      ∧ ∀ r : Reg, r.readableFaulted → off = r.offset → v = readReg s r := by
  by_cases hread : ∃ r : Reg, r.readableFaulted ∧ off = r.offset
  · obtain ⟨r, hr, rfl⟩ := hread
    have hsame : afterRead s r = s := by rcases hr with rfl | rfl | rfl <;> rfl
    refine ⟨s.free, readReg s r, ?_, fun r' _ hoff => ?_⟩
    · rw [hostRead_reg (by simp [hb]) (fun _ => hr), hsame]
    · have hreg : r = r' := by simpa using ofOffset_eq_some.mpr hoff
      rw [hreg]
  · refine ⟨s.free + 1, Config.freeWord s.free, ?_, fun r hr hoff => absurd ⟨r, hr, hoff⟩ hread⟩
    have hne : ∀ r : Reg, r.readableFaulted → Reg.ofOffset off ≠ some r :=
      fun r hr hoff => hread ⟨r, hr, ofOffset_eq_some.mp hoff⟩
    rw [hostRead, if_neg (by simp [hb]),
      if_pos ⟨hf, hne _ (.inl rfl), hne _ (.inr (.inl rfl)), hne _ (.inr (.inr rfl))⟩]

theorem step_read_faulted (hf : s.fault = true) (hb : s.busy = false) (hs : s.script = .read 32 off :: ts)
    (hal : off.toNat % 4 = 0) :
    ∃ n v, step s = .next { s.inTurn with reads := s.reads ++ [(off, v)], free := n }
      ∧ ∀ r : Reg, r.readableFaulted → off = r.offset → v = readReg s r := by
  obtain ⟨n, v, hread, hvalue⟩ := hostRead_faulted (s := s.inTurn) hf hb off
  refine ⟨n, v, ?_, hvalue⟩
  rw [step_cons hs, takeTurn_read hal, hread]
  rfl

/-- With FAULT = 1 a step that is no reset leaves the whole block as it is (R272). -/
theorem step_faulted {t : State} (hf : s.fault = true) (hb : s.busy = false)
    (hsoft : ∀ ts, s.script ≠ .write 32 Reg.cmd.offset softResetWord :: ts) (hhard : ∀ ts, s.script ≠ .hardReset :: ts)
    (h : step s = .next t) : ∃ rs n, t = { s.inTurn with reads := rs, free := n } := by
  have hkept (hstep : step s = .next s.inTurn) : ∃ rs n, t = { s.inTurn with reads := rs, free := n } := by
    cases h.symm.trans hstep
    exact ⟨s.reads, s.free, rfl⟩
  cases hs : s.script with
  | nil => exact hkept (step_engine_faulted hf (.inl hs))
  | cons turn ts =>
    cases turn with
    | engine => exact hkept (step_engine_faulted hf (.inr ⟨ts, hs⟩))
    | read w off =>
      obtain ⟨rfl, hal⟩ := step_access_next (v := 0) (.inl hs) h
      obtain ⟨n, v, hstep, -⟩ := step_read_faulted hf hb hs hal
      cases h.symm.trans hstep
      exact ⟨_, n, rfl⟩
    | write w off v =>
      obtain ⟨rfl, hal⟩ := step_access_next (.inr hs) h
      refine hkept (step_write_faulted hf hs hal ?_)
      rintro ⟨rfl, rfl⟩
      exact hsoft ts hs
    | hardReset => exact absurd hs (hhard ts)

end Faulted

/-- Settles O11: the engine, a write and a read by their turns, the fault record by `step_faulted`, and the two resets
by `step_reset`. -/
theorem faultsAreSticky : Obligations.FaultsAreSticky := by
  intro s hf hb
  refine ⟨step_engine_faulted hf, fun off v ts => step_write_faulted hf, fun off ts hs hal => ?_,
    fun hsoft hhard t h => ?_, fun ts h => ⟨_, step_reset h, rfl⟩⟩
  · obtain ⟨n, v, hstep, hvalue⟩ := step_read_faulted hf hb hs hal
    exact ⟨_, v, hstep, rfl, hvalue .id (.inl rfl), hvalue .status (.inr (.inl rfl)),
      hvalue .faultInfo (.inr (.inr rfl))⟩
  · obtain ⟨rs, n, rfl⟩ := step_faulted hf hb hsoft hhard h
    exact ⟨hf, hb, rfl, rfl, rfl⟩

end Sys2Proof.Machine
end

section
/-! PROOFS. The engine's step and the host's accesses while BUSY = 1 (R310, R311): every command clears BUSY, whether it
completes, faults or resets the block, and every access but those of R54 and R55 records BUSY_VIOLATION. -/

namespace Sys2Proof.Machine

/-! ### Every engine step clears BUSY (R251, R270, R310) -/

/-- A command is never refused and leaves the block with BUSY = 0. -/
theorem exec_clears_busy (i : Instr) (s : State) : ∃ t, exec i s = .next t ∧ t.busy = false := by
  by_cases hi : i = .softReset
  · exact ⟨resetBlock s, by rw [hi]; rfl, rfl⟩
  · rw [exec_eq_runCommand hi]
    rcases runCommand_cases i.op s with ⟨d, -, hdone⟩ | ⟨k, -, hfault⟩
    · exact ⟨_, hdone, completed_busy s d⟩
    · exact ⟨_, hfault, rfl⟩

/-- The engine's step of any pending word, one that decodes or not, leaves the block with BUSY = 0. -/
theorem step_engineReady_clears_busy {s : State} (h : s.engineReady) : ∃ t, step s = .next t ∧ t.busy = false := by
  cases hw : decode s.data.pending with
  | ok i =>
    rw [step_of_decode_ok h hw]
    exact exec_clears_busy i s.inTurn
  | error e => exact ⟨_, step_of_decode_error h hw, rfl⟩

/-- Settles O6: every engine step clears BUSY, so the block is idle unless the step recorded a fault. -/
theorem engineStepEndsIdleOrFaulted : Obligations.EngineStepEndsIdleOrFaulted := by
  intro s h
  obtain ⟨t, hstep, hbusy⟩ := step_engineReady_clears_busy h
  refine ⟨t, hstep, ?_⟩
  cases hfault : t.fault with
  | false => exact .inl ⟨hbusy, rfl⟩
  | true => exact .inr rfl

/-! ### Accesses while BUSY = 1 (R54, R55, R311) -/

section Busy

variable {s : State} {off : BitVec 8} {v : Word}

theorem hostRead_busy (hb : s.busy = true) (hid : off ≠ Reg.id.offset) (hstatus : off ≠ Reg.status.offset) :
    hostRead off s = (raiseAccess .busyViolation off s, Config.freeWord s.free) :=
  if_pos ⟨hb, ofOffset_eq_some.not.mpr hid, ofOffset_eq_some.not.mpr hstatus⟩

theorem hostWrite_busy (hb : s.busy = true) (hf : s.fault = false)
    (hsoft : ¬(off = Reg.cmd.offset ∧ v = softResetWord)) :
    hostWrite off v s = raiseAccess .busyViolation off s := by
  rw [hostWrite, if_neg (by rwa [ofOffset_eq_some]), if_neg (by simp [hf]), if_pos hb]

end Busy

/-- Settles O12: a read and a write each come to `raiseAccess` with their offset; a read's free word only joins the
record of reads. -/
theorem busyAccessesRaiseBusyViolation : Obligations.BusyAccessesRaiseBusyViolation := by
  intro s off ts hb hf hal
  have hrecorded := raiseAccess_recorded .busyViolation off s.inTurn
  refine ⟨fun hs hid hstatus => ?_, fun v hs hsoft => ?_⟩
  · rw [step_cons hs, takeTurn_read hal, hostRead_busy (s := s.inTurn) hb hid hstatus]
    exact ⟨_, rfl, hrecorded⟩
  · rw [step_cons hs, takeTurn_write hal, hostWrite_busy (s := s.inTurn) hb hf hsoft]
    exact ⟨_, rfl, hrecorded⟩

end Sys2Proof.Machine
end
